-- ==== Sys2Proof/Word.lean ====
section
/-! DEFINITION. The widths every other file uses, and the field order (00_scope.md R6, R13). -/

namespace Sys2Proof

/-- A `u64`: a register of the window, or a field element as stored, possibly not canonical (40 R130). -/
abbrev Word := BitVec 64

/-- A byte of the byte-oriented input or of a bus lane (20 R79, R80). -/
abbrev Byte := BitVec 8

/-- A byte offset in the 4 KiB register window (20 R70, R71). -/
abbrev Offset := BitVec 12

/-- The Goldilocks prime p = 2^64 − 2^32 + 1 (00 R6). -/
def fieldOrder : Nat := 0xFFFFFFFF00000001

/-- p as a stored word. -/
def pWord : Word := 0xFFFFFFFF00000001

/-- ε = 2^32 − 1, the residue of 2^64 modulo p (00 R6). -/
def epsilon : Word := 0xFFFFFFFF

/-- Structural recursion on a list for "the first match in a table": the value beside the first key equal to `k`. -/
def tableLookup {α : Type} (k : Nat) : List (Nat × α) → Option α
  | [] => none
  | (k', a) :: rest => if k = k' then some a else tableLookup k rest

end Sys2Proof
end

