-- ==== Sys2Proof/Config.lean ====
section
/-! DEFINITION. What one build of the block fixes (00_scope.md R7, R10, R12), and the free values of the spec's
`draw()` (00 R14). Nothing here changes while the machine runs. -/

namespace Sys2Proof

/-- The eight tables of 00 R10, in the order of their numbers (10 R52). -/
inductive Table where
  | rcFull | mdsCirc | mdsDiag | fpFirstRc | fpInitMatrix | fpRc | fpVs | fpWhats
deriving DecidableEq, Repr

/-- One build: the round counts HF and PR (00 R7), the bus address of offset 0 (00 R12) and the contents of the
read-only table memory, flat as 10 R52 lays them out (00 R10). LATENCY has no value here (70 R335, log 1). -/
structure Config where
  halfFullRounds : Nat
  partialRounds  : Nat
  baseAddr       : Nat
  rcFull         : List Word
  mdsCirc        : List Word
  mdsDiag        : List Word
  fpFirstRc      : List Word
  fpInitMatrix   : List Word
  fpRc           : List Word
  fpVs           : List Word
  fpWhats        : List Word
deriving DecidableEq, Repr

/-- NSTAGE = 2·HF + PR + 1 (00 R7, 41 R181). -/
def Config.nstage (c : Config) : Nat := 2 * c.halfFullRounds + c.partialRounds + 1

/-- The entries of one table of the build. -/
def Config.entries (c : Config) : Table → List Word
  | .rcFull       => c.rcFull
  | .mdsCirc      => c.mdsCirc
  | .mdsDiag      => c.mdsDiag
  | .fpFirstRc    => c.fpFirstRc
  | .fpInitMatrix => c.fpInitMatrix
  | .fpRc         => c.fpRc
  | .fpVs         => c.fpVs
  | .fpWhats      => c.fpWhats

/-- How many entries 00 R10 gives a table. -/
def Config.entryCount (c : Config) : Table → Nat
  | .rcFull       => 12 * (2 * c.halfFullRounds + c.partialRounds)
  | .mdsCirc      => 12
  | .mdsDiag      => 12
  | .fpFirstRc    => 12
  | .fpInitMatrix => 121
  | .fpRc         => c.partialRounds - 1
  | .fpVs         => 11 * c.partialRounds
  | .fpWhats      => 11 * c.partialRounds

/-- The k-th unconstrained value the machine hands out: the spec's `draw()` (00 R14, 20 R78; log 5). It has no body, so
nothing can be proved about it. -/
opaque Config.freeValue : Nat → Word

/-- What a table entry beyond the table's end would hold. No rule reads one (00 R10, 41 R184–R191), and a state that the
machine reaches reads none; it is left free rather than picked (log 11). -/
opaque Config.absentEntry : Table → Nat → Word

end Sys2Proof
end

