-- ==== Sys2Proof/Syntax.lean ====
section
/-! DEFINITION. The instructions: the fourteen commands and the two data-port writes of spec/opcode_table.json
(30_encoding.md R103, R101). A command has no operand field (30 R102). -/

namespace Sys2Proof

/-- One constructor per row of spec/opcode_table.json. -/
inductive Instr where
  /-- NOP, 60 R291. -/
  | nop
  /-- FMUL, 40 R139. -/
  | fmul
  /-- FSQR, 40 R140. -/
  | fsqr
  /-- FADD, 40 R141. -/
  | fadd
  /-- FSUB, 40 R142. -/
  | fsub
  /-- FNEG, 40 R143. -/
  | fneg
  /-- FCAN, 40 R144. -/
  | fcan
  /-- FADDC, 40 R145. -/
  | faddc
  /-- FSUBC, 40 R146. -/
  | fsubc
  /-- FEQ, 40 R147. -/
  | feq
  /-- PERM, 41 R194. -/
  | perm
  /-- PSTEP, 41 R195. -/
  | pstep
  /-- SINIT, 42 R231. -/
  | sinit
  /-- SFINAL, 42 R238. -/
  | sfinal
  /-- IN_WORD with the element word W, 42 R233. -/
  | inWord (w : Word)
  /-- IN_BYTE with the written value v: its data byte is v[7:0], and v[63:8] must be 0, 42 R235, 30 R101. -/
  | inByte (v : Word)
deriving DecidableEq, Repr

end Sys2Proof
end

