-- ==== Sys2Proof/WellFormed.lean ====
section
/-! DEFINITION. What an instruction and a build must satisfy. An ill-formed build is refused by construction: the
machine holds a `ValidConfig`, and no ill-formed one can be made (00_scope.md R7, R11, R12; 93 I12). -/

namespace Sys2Proof

/-- The reserved bits of an IN_BYTE write must be 0 (30 R101); no other instruction has a field to check (30 R102). -/
def Instr.wf : Instr → Bool
  | .inByte v => v >>> 8 == 0
  | _ => true

/-- HF ≥ 1, PR ≥ 1, NSTAGE ≤ 255 (00 R7). -/
def Config.countsOk (c : Config) : Bool :=
  decide (1 ≤ c.halfFullRounds) && decide (1 ≤ c.partialRounds) && decide (c.nstage ≤ 255)

/-- BASE_ADDR is aligned to 4 KiB (00 R12). -/
def Config.baseOk (c : Config) : Bool := c.baseAddr % 4096 == 0

/-- Every table has the number of entries 00 R10 gives it. -/
def Config.shapesOk (c : Config) : Bool :=
  [Table.rcFull, .mdsCirc, .mdsDiag, .fpFirstRc, .fpInitMatrix, .fpRc, .fpVs, .fpWhats].all
    fun t => (c.entries t).length == c.entryCount t

/-- The entries of five tables are below p (00 R11 (1)); those of FP_WHATS are below 2^64 by their type (00 R11 (2)). -/
def Config.reducedOk (c : Config) : Bool :=
  [Table.rcFull, .fpFirstRc, .fpInitMatrix, .fpRc, .fpVs].all
    fun t => (c.entries t).all fun w => decide (w.toNat < fieldOrder)

/-- The exact sum of a list of words. -/
def sumWords : List Word → Nat
  | [] => 0
  | w :: ws => w.toNat + sumWords ws

/-- For every row i, Σ_k MDS_CIRC[k] + MDS_DIAG[i] ≤ 2^32 (00 R11 (3)). -/
def Config.mdsRowsOk (c : Config) : Bool :=
  c.mdsDiag.all fun d => decide (sumWords c.mdsCirc + d.toNat ≤ 2 ^ 32)

/-- MDS_CIRC[0] + MDS_DIAG[0] < 2^64 (00 R11 (4)). -/
def Config.mdsCornerOk (c : Config) : Bool :=
  decide ((c.mdsCirc.headD 0).toNat + (c.mdsDiag.headD 0).toNat < 2 ^ 64)

/-- Configuration well-formedness (00 R7, R10, R11, R12). -/
def Config.wf (c : Config) : Bool :=
  c.countsOk && c.baseOk && c.shapesOk && c.reducedOk && c.mdsRowsOk && c.mdsCornerOk

/-- The identity build T0 of 95_test_vectors.md section 0: a test input, not the reference instance. -/
def Config.t0 : Config where
  halfFullRounds := 1
  partialRounds  := 1
  baseAddr       := 0
  rcFull         := List.replicate 36 0
  mdsCirc        := 1 :: List.replicate 11 0
  mdsDiag        := List.replicate 12 0
  fpFirstRc      := List.replicate 12 0
  fpInitMatrix   := (List.range 121).map fun j => if j % 12 = 0 then 1 else 0
  fpRc           := []
  fpVs           := List.replicate 11 0
  fpWhats        := List.replicate 11 0

/-- A build together with the proof that it is well formed. -/
structure ValidConfig where
  raw : Config := Config.t0
  wf  : raw.wf = true := by decide +kernel
deriving DecidableEq, Repr, Inhabited

/-- The build that is installed. The spec leaves it open (92 D3, D17, D18), so it has no body: all that is known of it is
that it is well formed (log 4). -/
opaque Config.installed : ValidConfig

end Sys2Proof
end

