-- ==== Sys2Proof/Machine/State.lean ====
section
/-! DEFINITION. The state of the block (10_state.md R30), the model's own fields beside it, and the state after reset
(10 R59, 70 R320). The block has no data memory (20 R71, log 13). -/

namespace Sys2Proof.Machine

/-- The state file STATE[0..11] (10 R54). -/
abbrev Elems := Vector Word 12

/-- The nine field commands (40 R138). -/
inductive FieldOp where
  | fmul | fsqr | fadd | fsub | fneg | fcan | faddc | fsubc | feq
deriving DecidableEq, Repr

/-- An accepted operation with the values it read at acceptance (10 R56, 60 R289). -/
inductive Pending where
  /-- 60 R291 -/
  | nop
  /-- a = FA and b = FB, 40 R138 -/
  | field (op : FieldOp) (a b : Word)
  /-- S = STATE, 41 R194 -/
  | perm (S : Elems)
  /-- S = STATE and s = STAGE, 41 R195 -/
  | pstep (S : Elems) (stage : BitVec 8)
  /-- 42 R231 -/
  | sinit
  /-- S = STATE and need_perm, 42 R238 -/
  | sfinal (S : Elems) (needPerm : Bool)
  /-- the permutation an absorbed eighth element starts, 42 R232 -/
  | chunkPerm (S : Elems)
deriving DecidableEq, Repr

/-- The error kinds of 60 R281. -/
inductive ErrorCode where
  | access | busy | illegal | seq | len | noncanon | precond | table
deriving DecidableEq, Repr

/-- The registers and ports of the window (10 R32). -/
inductive Reg where
  | id | param | cmd | status | event | irqEn | err | errcode | fa | fb | fr | absCnt | permCnt
  | inWord | inByte | tblIndex | tblData
  | elem (i : Fin 12)
deriving DecidableEq, Repr

/-- One access at the bus slave port (20 R70): a 12-bit offset, a size in bytes, and for a write 64 bits of data. -/
inductive BusAccess where
  | read (off : Offset) (size : Nat)
  | write (off : Offset) (size : Nat) (data : Word)
deriving DecidableEq, Repr

/-- What the bus slave port answers (20 R70): 64 bits of read data with the error response, or a write's error response. -/
inductive BusResponse where
  | readDone (data : Word) (error : Bool)
  | writeDone (error : Bool)
deriving DecidableEq, Repr

/-- Who moves next (00 R3, 20 R82, 70 R320; log 1, log 9). -/
inductive Turn where
  /-- the Host makes one access -/
  | host (a : BusAccess)
  /-- the Core takes its completion step, if an operation is in flight (60 R290) -/
  | core
  /-- the reset input is asserted -/
  | resetAssert
  /-- the reset input is released -/
  | resetRelease
deriving DecidableEq, Repr

/-- The machine. -/
structure State where
  /-- operand register FA (10 R31) -/
  fa : Word
  /-- operand register FB (10 R31) -/
  fb : Word
  /-- result register FR (10 R31) -/
  fr : Word
  /-- STATE[0..11] (10 R54) -/
  elems : Elems
  /-- EVENT: bit 0 DONE, bit 1 ERROR (10 R45) -/
  event : BitVec 2
  /-- IRQ_EN: bit 0 DONE_IE, bit 1 ERROR_IE (10 R46) -/
  irqEn : BitVec 2
  /-- ERR: one sticky bit per error kind (10 R47) -/
  err : BitVec 8
  /-- ERRCODE: the first error since ERR was 0 (10 R48) -/
  errcode : BitVec 4
  /-- STATUS.DIGEST_VALID (10 R38) -/
  digestValid : Bool
  /-- STATUS.SQUEEZED (10 R39) -/
  squeezed : Bool
  /-- STATUS.EQ (10 R40) -/
  eq : Bool
  /-- ABS_POS (10 R41) -/
  absPos : BitVec 3
  /-- BYTE_POS (10 R42) -/
  bytePos : BitVec 3
  /-- STAGE (10 R43) -/
  stage : BitVec 8
  /-- ABS_CNT (10 R49) -/
  absCnt : Word
  /-- PERM_CNT (10 R50) -/
  permCnt : Word
  /-- TBL_INDEX: INDEX in [15:0], TABLE in [19:16] (10 R52) -/
  tblIndex : BitVec 20
  /-- BYTE_ACC, hidden (10 R55) -/
  byteAcc : BitVec 56
  /-- PENDING, hidden (10 R56) -/
  pending : Option Pending
  /-- the build: round counts, base address and the read-only table memory (10 R52, R34; log 4) -/
  cfg : ValidConfig
  /-- the model's own: how many unconstrained values were handed out (00 R14; log 5) -/
  draws : Nat
  /-- the model's own: what the agents do next (log 1) -/
  schedule : List Turn
  /-- the model's own: the bus answer to the last access (log 7) -/
  resp : Option BusResponse
  /-- the model's own: the reset input is asserted (70 R320; log 9) -/
  inReset : Bool
deriving DecidableEq, Repr

/-- A step never stops with a fault: "The block takes no trap" (60 R280), and every error is recorded in registers while
the machine goes on (60 R282). There is no constructor, so nobody raises one. -/
inductive Fault where
deriving DecidableEq, Repr

/-- Why an instruction has no meaning. -/
inductive Refusal where
  /-- raised by an arm of `exec` whose instruction is not modelled; safe. No arm of this model raises it. -/
  | notModelled (mnemonic : String)
deriving DecidableEq, Repr

/-- The outcome of a step of this machine. -/
abbrev Outcome := Host.Outcome State Fault Refusal

/-- STATE all zero (10 R54, R59). -/
def zeroElems : Elems := Vector.replicate 12 0

/-- The machine right after reset (10 R59, 70 R320): every register 0, no operation in flight. The spec gives every
register its reset value; the model's own fields are as log 1, 5, 7 and 9 say. -/
def State.reset : State where
  fa          := 0
  fb          := 0
  fr          := 0
  elems       := zeroElems
  event       := 0
  irqEn       := 0
  err         := 0
  errcode     := 0
  digestValid := false
  squeezed    := false
  eq          := false
  absPos      := 0
  bytePos     := 0
  stage       := 0
  absCnt      := 0
  permCnt     := 0
  tblIndex    := 0
  byteAcc     := 0
  pending     := none
  cfg         := Config.installed
  draws       := 0
  schedule    := []
  resp        := none
  inReset     := false

end Sys2Proof.Machine
end

