-- ==== Sys2Proof/Machine/Arith.lean ====
section
/-! DEFINITION. Goldilocks field arithmetic on raw words (40_field_arith.md R130–R147), bit for bit: no function
canonicalises its result unless its rule says so (40 R130). -/

namespace Sys2Proof.Machine

/-- `carry64(a, b)` (00 R13). -/
def carry64 (a b : Word) : Bool := decide (2 ^ 64 ≤ a.toNat + b.toNat)

/-- `borrow64(a, b)` (00 R13). -/
def borrow64 (a b : Word) : Bool := decide (a.toNat < b.toNat)

/-- c·ε for a carry or borrow c. -/
def epsIf (c : Bool) : Word := if c then epsilon else 0

/-- Canonicalisation (40 R131). -/
def canon (x : Word) : Word := if pWord.toNat ≤ x.toNat then x - pWord else x

/-- Addition, two corrections (40 R132). -/
def fadd (a b : Word) : Word :=
  let s1 := a + b
  let e1 := epsIf (carry64 a b)
  let s2 := s1 + e1
  s2 + epsIf (carry64 s1 e1)

/-- Subtraction, two corrections (40 R133). -/
def fsub (a b : Word) : Word :=
  let d1 := a - b
  let e1 := epsIf (borrow64 a b)
  let d2 := d1 - e1
  d2 - epsIf (borrow64 d1 e1)

/-- Single-correction addition (40 R134). -/
def addNc (x y : Word) : Word := (x + y) + epsIf (carry64 x y)

/-- The 128-bit reduction (40 R135). -/
def reduce128 (x : BitVec 128) : Word :=
  let xLo   : Word := x.extractLsb' 0 64
  let xHiHi : Word := (x.extractLsb' 96 32).setWidth 64
  let xHiLo : Word := (x.extractLsb' 64 32).setWidth 64
  let t0 := (xLo - xHiHi) - epsIf (borrow64 xLo xHiHi)
  let t1 := epsilon * xHiLo
  addNc t0 t1

/-- The reduction of a sum below 2^96 (40 R136). -/
def reduce96 (xLo : Word) (xHi : BitVec 32) : Word := addNc xLo (epsilon * xHi.setWidth 64)

/-- The reduction of a sum below 2^160 (40 R137). -/
def reduce160 (n : BitVec 160) : Word :=
  let rHi := reduce96 (n.extractLsb' 64 64) (n.extractLsb' 128 32)
  reduce128 (rHi ++ n.extractLsb' 0 64)

/-- The exact product of two words (40 R139). -/
def product (a b : Word) : BitVec 128 := a.setWidth 128 * b.setWidth 128

/-- Multiplication (40 R139). -/
def fmul (a b : Word) : Word := reduce128 (product a b)

/-- Squaring (40 R140). -/
def fsqr (a : Word) : Word := reduce128 (product a a)

/-- Negation; "zero" is canonical zero (40 R143). -/
def fneg (a : Word) : Word := if canon a = 0 then 0 else pWord - canon a

/-- Unchecked addition of a canonical operand, one correction with 64-bit wrap (40 R145). -/
def faddc (a b : Word) : Word := (a + b) + epsIf (carry64 a b)

/-- Unchecked subtraction of a canonical operand (40 R146). -/
def fsubc (a b : Word) : Word := (a - b) - epsIf (borrow64 a b)

/-- Field equality, by canonical forms (40 R147). -/
def feq (a b : Word) : Bool := canon a == canon b

/-- The S-box x ↦ x^7, in the order of operations of 41 R185. -/
def sbox (x : Word) : Word :=
  let x2 := fsqr x
  let x4 := fsqr x2
  let x3 := fmul x x2
  fmul x3 x4

/-- A word outside the canonical range, p or more (40 R145, 42 R234). -/
def nonCanonical (w : Word) : Bool := decide (pWord.toNat ≤ w.toNat)

end Sys2Proof.Machine
end

