-- ==== Sys2Proof/Decode.lean ====
section
/-! DEFINITION. From a bus write to an instruction, and back (30_encoding.md). The offset of the write selects the
format (30 R100, R101); the word selects the command (30 R103). -/

namespace Sys2Proof

/-- Why a write is no instruction. -/
inductive DecodeError where
  /-- not eight byte lanes (20 R72) -/
  | accessSize
  /-- the offset is none of CMD, IN_WORD, IN_BYTE (30 R100, R101) -/
  | notAPort
  /-- a reserved bit is set: v[63:8] ≠ 0 (30 R104, R105) -/
  | reservedBits
  /-- v[7:0] is no opcode of 30 R103 (30 R104) -/
  | undefinedOpcode
deriving DecidableEq, Repr

/-- CMD (10 R32). -/
def cmdPort : Offset := 0x010

/-- IN_WORD (10 R32). -/
def inWordPort : Offset := 0x068

/-- IN_BYTE (10 R32). -/
def inBytePort : Offset := 0x070

/-- The opcode map of 30 R103. -/
def opcodeMap : List (Nat × Instr) :=
  [(0x00, .nop), (0x01, .fmul), (0x02, .fsqr), (0x03, .fadd), (0x04, .fsub), (0x05, .fneg), (0x06, .fcan),
   (0x07, .faddc), (0x08, .fsubc), (0x09, .feq), (0x10, .perm), (0x11, .pstep), (0x20, .sinit), (0x21, .sfinal)]

/-- A CMD word: v[63:8] = 0, then v[7:0] is looked up (30 R103, R104). -/
def decodeCmd (v : Word) : Except DecodeError Instr :=
  if v >>> 8 ≠ 0 then .error .reservedBits
  else match tableLookup (v.toNat % 256) opcodeMap with
    | some i => .ok i
    | none => .error .undefinedOpcode

/-- A DPW_BYTE word (30 R101, R105). -/
def decodeInByte (v : Word) : Except DecodeError Instr :=
  if v >>> 8 ≠ 0 then .error .reservedBits else .ok (.inByte v)

/-- The instruction a full-word write of `v` at `off` issues (30 R100, R101). -/
def decodeWrite (off : Offset) (v : Word) : Except DecodeError Instr :=
  if off = cmdPort then decodeCmd v
  else if off = inWordPort then .ok (.inWord v)
  else if off = inBytePort then decodeInByte v
  else .error .notAPort

/-- The eight byte lanes of a word: lane j carries bits [8j+7 : 8j] (20 R79). -/
def lanesOfWord (v : Word) : List Byte :=
  (List.range 8).map fun j => (v >>> (8 * j)).setWidth 8

/-- The word on the byte lanes, lane 0 first (20 R79). -/
def wordOfLanes : List Byte → Word
  | [] => 0
  | b :: rest => b.setWidth 64 ||| (wordOfLanes rest <<< 8)

/-- Decoding from the byte lanes of the bus: total on any list of bytes. -/
def decodeLanes (off : Offset) (lanes : List Byte) : Except DecodeError Instr :=
  if lanes.length = 8 then decodeWrite off (wordOfLanes lanes) else .error .accessSize

/-- The port of an instruction and the word written there (30 R101, R103, R108). -/
def encode : Instr → Offset × Word
  | .nop      => (cmdPort, 0x00)
  | .fmul     => (cmdPort, 0x01)
  | .fsqr     => (cmdPort, 0x02)
  | .fadd     => (cmdPort, 0x03)
  | .fsub     => (cmdPort, 0x04)
  | .fneg     => (cmdPort, 0x05)
  | .fcan     => (cmdPort, 0x06)
  | .faddc    => (cmdPort, 0x07)
  | .fsubc    => (cmdPort, 0x08)
  | .feq      => (cmdPort, 0x09)
  | .perm     => (cmdPort, 0x10)
  | .pstep    => (cmdPort, 0x11)
  | .sinit    => (cmdPort, 0x20)
  | .sfinal   => (cmdPort, 0x21)
  | .inWord w => (inWordPort, w)
  | .inByte v => (inBytePort, v)

/-- The port the opcode table's rows give a 64-bit word when the offset is not told: the row with the most fixed bits
that the word matches: a command's (64), else IN_BYTE's (56), else IN_WORD's (none). The rows overlap, since the offset
and not the word tells them apart (log 3). -/
def tablePort (v : Word) : Offset :=
  match decodeCmd v with
  | .ok _ => cmdPort
  | .error _ => if v >>> 8 = 0 then inBytePort else inWordPort

/-- The instruction of an opcode-table word of `nbits` bits; `none` for a word longer than a bus word. -/
def decodeTableWord (nbits w : Nat) : Option Instr :=
  if 64 < nbits then none
  else
    let v := BitVec.ofNat 64 (w % 2 ^ nbits)
    match decodeLanes (tablePort v) (lanesOfWord v) with
    | .ok i => some i
    | .error _ => none

end Sys2Proof
end

