-- ==== Sys2Proof/Machine/Flags.lean ====
section
/-! DEFINITION. Every status, event and error bit: how each is read and set (10_state.md R36–R48, 60_exceptions.md
R281, R294–R296). No command writes a carry or an overflow flag (10 R58). -/

namespace Sys2Proof.Machine

/-- The code of an error kind (60 R281). -/
def ErrorCode.code : ErrorCode → BitVec 4
  | .access   => 1
  | .busy     => 2
  | .illegal  => 3
  | .seq      => 4
  | .len      => 5
  | .noncanon => 6
  | .precond  => 7
  | .table    => 8

/-- The ERR bit of an error kind (60 R281, 10 R47). -/
def ErrorCode.bit : ErrorCode → BitVec 8
  | .access   => 0x01
  | .busy     => 0x02
  | .illegal  => 0x04
  | .seq      => 0x08
  | .len      => 0x10
  | .noncanon => 0x20
  | .precond  => 0x40
  | .table    => 0x80

/-- Whether the bus answers an access that records this error with the error response (60 R281). -/
def ErrorCode.busError : ErrorCode → Bool
  | .access | .busy => true
  | .illegal | .seq | .len | .noncanon | .precond | .table => false

/-- EVENT.DONE (10 R45). -/
def eventDone : BitVec 2 := 1

/-- EVENT.ERROR (10 R45). -/
def eventError : BitVec 2 := 2

/-- A Bool as the 64-bit word with that bit 0. -/
def bit0 (b : Bool) : Word := if b then 1 else 0

/-- STATUS.BUSY: an operation is in flight (10 R37, R56). -/
def State.busy (s : State) : Bool := s.pending.isSome

/-- STATUS.ERR_ANY (10 R44). -/
def State.errAny (s : State) : Bool := s.err != 0

/-- NSTAGE of the installed build (41 R181). -/
def State.nstage (s : State) : Nat := s.cfg.raw.nstage

/-- The STATUS fields other than BUSY and ERR_ANY, each at its place (10 R36). -/
def State.statusFields (s : State) : Word :=
  (bit0 s.digestValid <<< 1) ||| (bit0 s.squeezed <<< 2) ||| (bit0 s.eq <<< 3)
    ||| (s.absPos.setWidth 64 <<< 4) ||| (s.bytePos.setWidth 64 <<< 8) ||| (s.stage.setWidth 64 <<< 16)

/-- The places of those fields: bits 1, 2, 3, [6:4], [10:8] and [23:16] (10 R36). -/
def statusFieldMask : Word := 0x0000000000FF077E

/-- BUSY and ERR_ANY, the two STATUS fields that are exact at every time (10 R36). -/
def State.statusExact (s : State) : Word := bit0 s.busy ||| (bit0 s.errAny <<< 31)

/-- STATUS as it reads when the block is idle (10 R36). -/
def State.statusWord (s : State) : Word := s.statusExact ||| s.statusFields

/-- STATUS as it reads while BUSY, `d` being the free value: bits that belong to no field still read 0 (10 R36; log 6). -/
def State.statusBusyWord (s : State) (d : Word) : Word := s.statusExact ||| (d &&& statusFieldMask)

/-- PARAM, the most significant field first: reserved, VERSION, NSTAGE, PR, HF, DIGEST_LEN, RATE, WIDTH (10 R34). -/
def paramWord (c : Config) : Word :=
  (0 : Byte) ++ (1 : Byte) ++ BitVec.ofNat 8 c.nstage ++ BitVec.ofNat 8 c.partialRounds
    ++ BitVec.ofNat 8 c.halfFullRounds ++ (4 : Byte) ++ (8 : Byte) ++ (12 : Byte)

/-- ID (10 R33). -/
def idWord : Word := 0x4D474C504F533132

/-- The IRQ output: (EVENT.DONE & DONE_IE) | (EVENT.ERROR & ERROR_IE) (60 R296). -/
def State.irq (s : State) : Bool := s.event &&& s.irqEn != 0

/-- A W1C write: each bit whose bit of `w` is 1 is cleared; higher bits of `w` are ignored (10 R45, R47). -/
def clearOnes {n : Nat} (x : BitVec n) (w : Word) : BitVec n := x &&& ~~~ w.setWidth n

end Sys2Proof.Machine
end

