-- ==== Sys2Proof/Machine/Operands.lean ====
section
/-! DEFINITION. Where operands come from: the register window (10_state.md R32), the table memory (10 R52) and the bytes
of the byte-oriented input (42_sponge.md R235, R240, R241). Commands name no operand: theirs are fixed registers, or a
data-port word (30_encoding.md R102). -/

namespace Sys2Proof.Machine

/-- The offset of a register (10 R32). -/
def Reg.offset : Reg → Offset
  | .id       => 0x000
  | .param    => 0x008
  | .cmd      => 0x010
  | .status   => 0x018
  | .event    => 0x020
  | .irqEn    => 0x028
  | .err      => 0x030
  | .errcode  => 0x038
  | .fa       => 0x040
  | .fb       => 0x048
  | .fr       => 0x050
  | .absCnt   => 0x058
  | .permCnt  => 0x060
  | .inWord   => 0x068
  | .inByte   => 0x070
  | .tblIndex => 0x078
  | .tblData  => 0x080
  | .elem i   => BitVec.ofNat 12 (0x100 + 8 * i.val)

/-- The registers below 0x088, in the order of their offsets (10 R32). -/
def controlRegs : List Reg :=
  [.id, .param, .cmd, .status, .event, .irqEn, .err, .errcode, .fa, .fb, .fr, .absCnt, .permCnt, .inWord, .inByte,
   .tblIndex, .tblData]

/-- The register at an offset: none at an unmapped or unaligned one (20 R72, R74). -/
def regAt (off : Offset) : Option Reg :=
  let n := off.toNat
  if n % 8 ≠ 0 then none
  else if n < 0x100 then controlRegs[n / 8]?
  else if h : n < 0x160 then some (.elem ⟨(n - 0x100) / 8, by omega⟩)
  else none

/-- The offset of a platform address inside the window at BASE_ADDR (20 R71); none for an address outside it (log 12). -/
def offsetOf (c : Config) (addr : Nat) : Option Offset :=
  if c.baseAddr ≤ addr ∧ addr < c.baseAddr + 4096 then some (BitVec.ofNat 12 (addr - c.baseAddr)) else none

/-- Registers a write to which records ACCESS (20 R75). -/
def Reg.readOnly : Reg → Bool
  | .id | .param | .status | .errcode | .fr | .absCnt | .permCnt | .tblData => true
  | .cmd | .event | .irqEn | .err | .fa | .fb | .inWord | .inByte | .tblIndex | .elem _ => false

/-- Registers that may be written while BUSY (20 R78). -/
def Reg.writableBusy : Reg → Bool
  | .event | .irqEn | .err => true
  | .id | .param | .cmd | .status | .errcode | .fa | .fb | .fr | .absCnt | .permCnt | .inWord | .inByte | .tblIndex
  | .tblData | .elem _ => false

/-- Registers a read of which while BUSY is unspecified as a whole (20 R78). -/
def Reg.unspecifiedBusy : Reg → Bool
  | .fr | .absCnt | .permCnt | .elem _ => true
  | .id | .param | .cmd | .status | .event | .irqEn | .err | .errcode | .fa | .fb | .inWord | .inByte | .tblIndex
  | .tblData => false

/-- The tables by number (10 R52). -/
def tablesByNumber : List Table := [.rcFull, .mdsCirc, .mdsDiag, .fpFirstRc, .fpInitMatrix, .fpRc, .fpVs, .fpWhats]

/-- TBL(name, j) as the Core reads it (00 R14). -/
def tbl (c : Config) (t : Table) (j : Nat) : Word := ((c.entries t)[j]?).getD (Config.absentEntry t j)

/-- The entry TBL_INDEX names: none when TABLE > 7 or INDEX is not below the table's entry count (10 R53). -/
def State.tableEntry (s : State) : Option Word :=
  match tablesByNumber[(s.tblIndex >>> 16).toNat]? with
  | some t => (s.cfg.raw.entries t)[s.tblIndex.toNat % 2 ^ 16]?
  | none => none

/-- What a register reads when its value is specified (10 R33–R55, 20 R75). -/
def State.regValue (s : State) : Reg → Word
  | .id       => idWord
  | .param    => paramWord s.cfg.raw
  | .cmd      => 0
  | .status   => s.statusWord
  | .event    => s.event.setWidth 64
  | .irqEn    => s.irqEn.setWidth 64
  | .err      => s.err.setWidth 64
  | .errcode  => s.errcode.setWidth 64
  | .fa       => s.fa
  | .fb       => s.fb
  | .fr       => s.fr
  | .absCnt   => s.absCnt
  | .permCnt  => s.permCnt
  | .inWord   => 0
  | .inByte   => 0
  | .tblIndex => s.tblIndex.setWidth 64
  | .tblData  => s.tableEntry.getD 0
  | .elem i   => s.elems[i]

/-- B = v[7:0] (42 R235). -/
def dataByte (v : Word) : Byte := v.setWidth 8

/-- `{BYTE_ACC, B}_8` as a whole 8-byte group, the first byte in [63:56] (42 R235). -/
def groupWord (acc : BitVec 56) (b : Byte) : Word := acc ++ b

/-- `{BYTE_ACC, B}_8` while the group is incomplete (42 R235, 10 R55). -/
def pushByte (acc : BitVec 56) (b : Byte) : BitVec 56 := (acc <<< 8) ||| b.setWidth 56

/-- The words a byte sequence denotes, 8 bytes big-endian each (42 R240); bytes of an incomplete last group are left out. -/
def groupWords : List Byte → List Word
  | b0 :: b1 :: b2 :: b3 :: b4 :: b5 :: b6 :: b7 :: rest =>
      (b0 ++ b1 ++ b2 ++ b3 ++ b4 ++ b5 ++ b6 ++ b7) :: groupWords rest
  | _ => []

/-- The 8 bytes of a word, big-endian: byte t is w[63 − 8t : 56 − 8t] (42 R241). -/
def wordBytes (w : Word) : List Byte := (List.range 8).map fun t => (w >>> (56 - 8 * t)).setWidth 8

/-- The 32-byte digest: the raw words STATE[0..3], each big-endian, in order (42 R239, R241). -/
def digestBytes (S : Elems) : List Byte :=
  wordBytes S[0] ++ wordBytes S[1] ++ wordBytes S[2] ++ wordBytes S[3]

end Sys2Proof.Machine
end

