-- ==== Sys2Proof/Machine/Poseidon.lean ====
section
/-! DEFINITION. The Poseidon permutation of width 12, layer by layer and stage by stage (41_permutation.md R180–R193),
and the source's hash function built on it (42_sponge.md R242). The tables are those of the build (41 R197). -/

namespace Sys2Proof.Machine

/-- Full-round constant layer with round counter rc (41 R184). -/
def constantLayer (c : Config) (rc : Nat) (S : Elems) : Elems :=
  Vector.ofFn fun i : Fin 12 => fadd S[i] (tbl c .rcFull (12 * rc + i.val))

/-- The S-box on every lane (41 R185, R187). -/
def sboxLayer (S : Elems) : Elems := Vector.ofFn fun i : Fin 12 => sbox S[i]

/-- The exact row sum T of the full MDS layer for output i (41 R186); `k + i` is modulo 12. -/
def mdsSum (c : Config) (S : Elems) (i : Fin 12) : Nat :=
  (∑ k : Fin 12, S[k + i].toNat * (tbl c .mdsCirc k.val).toNat) + S[i].toNat * (tbl c .mdsDiag i.val).toNat

/-- Full MDS layer (41 R186). -/
def mds (c : Config) (S : Elems) : Elems :=
  Vector.ofFn fun i : Fin 12 =>
    let T := mdsSum c S i
    reduce96 (BitVec.ofNat 64 T) (BitVec.ofNat 32 (T / 2 ^ 64))

/-- Full round with round counter rc (41 R187). -/
def fullRound (c : Config) (rc : Nat) (S : Elems) : Elems := mds c (sboxLayer (constantLayer c rc S))

/-- First-partial constant layer (41 R188). -/
def partialFirstConstants (c : Config) (S : Elems) : Elems :=
  Vector.ofFn fun i : Fin 12 => fadd S[i] (tbl c .fpFirstRc i.val)

/-- One output of the initial transform: column `col` (1-based col + 1), accumulated from 0 in increasing row order
(41 R189). -/
def partialInitColumn (c : Config) (S : Elems) (col : Fin 11) : Word :=
  (List.finRange 11).foldl
    (fun acc row => fadd acc (fmul S[row.succ] (tbl c .fpInitMatrix (11 * row.val + col.val)))) 0

/-- Partial-round initial transform; lane 0 passes through (41 R189). -/
def partialInit (c : Config) (S : Elems) : Elems :=
  Vector.ofFn (Fin.cases S[0] fun col : Fin 11 => partialInitColumn c S col)

/-- The exact sum T of the fast layer for output 0 in partial round r (41 R190). -/
def fastSum (c : Config) (r : Nat) (S : Elems) : Nat :=
  (∑ i : Fin 11, S[i.succ].toNat * (tbl c .fpWhats (11 * r + i.val)).toNat)
    + S[0].toNat * ((tbl c .mdsCirc 0).toNat + (tbl c .mdsDiag 0).toNat)

/-- Fast partial linear layer for partial round r (41 R190). -/
def fastLayer (c : Config) (r : Nat) (S : Elems) : Elems :=
  Vector.ofFn (Fin.cases (reduce160 (BitVec.ofNat 160 (fastSum c r S)))
    fun i : Fin 11 => fadd S[i.succ] (fmul S[0] (tbl c .fpVs (11 * r + i.val))))

/-- The S-box and the constant of partial round r on lane 0 (41 R191). -/
def partialLane0 (c : Config) (r : Nat) (x : Word) : Word :=
  if r + 1 < c.partialRounds then fadd (sbox x) (tbl c .fpRc r) else sbox x

/-- Partial round r (41 R191). -/
def partialRound (c : Config) (r : Nat) (S : Elems) : Elems :=
  fastLayer c r (S.set 0 (partialLane0 c r S[0]))

/-- Stage s of the permutation (41 R182, with the round counter of R183). -/
def stage (c : Config) (s : Nat) (S : Elems) : Elems :=
  if s < c.halfFullRounds then fullRound c s S
  else if s = c.halfFullRounds then partialInit c (partialFirstConstants c S)
  else if s < c.halfFullRounds + 1 + c.partialRounds then partialRound c (s - c.halfFullRounds - 1) S
  else fullRound c (s - 1) S

/-- Stages 0 .. n−1, in increasing order (41 R181). -/
def runStages (c : Config) : Nat → Elems → Elems
  | 0, S => S
  | n + 1, S => stage c n (runStages c n S)

/-- The permutation (41 R193). -/
def poseidon (c : Config) (S : Elems) : Elems := runStages c c.nstage S

/-- A chunk overwrites positions 0 .. length−1 and leaves the others: no padding (42 R237). -/
def overwrite (S : Elems) (chunk : List Word) : Elems :=
  Vector.ofFn fun i : Fin 12 => (chunk[i.val]?).getD S[i]

/-- m chunks of up to 8 words, each followed by one permutation (42 R242). -/
def hashChunks (c : Config) : Nat → Elems → List Word → Elems
  | 0, S, _ => S
  | m + 1, S, ws => hashChunks c m (poseidon c (overwrite S (ws.take 8))) (ws.drop 8)

/-- The state the source's `absorb-and-permute` ends in; its digest is elements 0..3 (42 R242, 90 C2). -/
def hashState (c : Config) (ws : List Word) : Elems :=
  if ws.length = 0 then poseidon c zeroElems else hashChunks c ((ws.length + 7) / 8) zeroElems ws

end Sys2Proof.Machine
end

