-- ==== Sys2Proof/Machine/Ops.lean ====
section
/-! DEFINITION. The operations the instructions share: recording an error (the block's only kind of exception,
60_exceptions.md R280, R282) and clearing it again (60 R293), answering the bus, acceptance and completion (60 R289,
R290), absorbing one element (42_sponge.md R232). -/

namespace Sys2Proof.Machine

/-- Recording an error: ERRCODE keeps the first since ERR was 0, the ERR bit sticks, EVENT.ERROR is set (60 R282). -/
def recordError (k : ErrorCode) (s : State) : State :=
  { s with
    errcode := if s.err = 0 then k.code else s.errcode
    err     := s.err ||| k.bit
    event   := s.event ||| eventError }

/-- A W1C write to ERR; ERRCODE is 0 again once ERR is 0 (10 R47, R48, 60 R293). -/
def clearErr (w : Word) (s : State) : State :=
  { s with
    err     := clearOnes s.err w
    errcode := if clearOnes s.err w = 0 then 0 else s.errcode }

/-- A W1C write to EVENT (10 R45). -/
def clearEvent (w : Word) (s : State) : State := { s with event := clearOnes s.event w }

/-- The bus answer to the access at hand (20 R70). -/
def respond (r : BusResponse) (s : State) : State := { s with resp := some r }

/-- Acceptance of an operation: PENDING is set, and with it BUSY (60 R289, 10 R56). -/
def accept (op : Pending) (s : State) : State := { s with pending := some op }

/-- The end of every completion: PENDING is cleared, and with it BUSY, and EVENT.DONE is set (60 R290). -/
def finish (s : State) : State := { s with pending := none, event := s.event ||| eventDone }

/-- The first check of a list that fails (60 R288). -/
def firstFailing : List (Bool × ErrorCode) → Option ErrorCode
  | [] => none
  | (failed, k) :: rest => if failed then some k else firstFailing rest

/-- An aborted write: the error is recorded, the bus answers as 60 R281 says, nothing else changes (60 R292). -/
def abortWrite (k : ErrorCode) (s : State) : State := respond (.writeDone k.busError) (recordError k s)

/-- A write under its checks: the first that fails aborts it, else it has its effect and is answered without error
(60 R288). -/
def guardedWrite (checks : List (Bool × ErrorCode)) (effect : State → State) (s : State) : State :=
  match firstFailing checks with
  | some k => abortWrite k s
  | none => respond (.writeDone false) (effect s)

/-- Records a non-aborting error if its condition holds (60 R287). -/
def noteIf (cond : Bool) (k : ErrorCode) (s : State) : State := if cond then recordError k s else s

/-- ABS_POS is a place of the state file. -/
theorem absPos_lt (n : BitVec 3) : n.toNat < 12 := Nat.lt_of_lt_of_le n.isLt (by decide)

/-- STATE[ABS_POS] overwritten, raw, no reduction (42 R232). -/
def loadElem (w : Word) (s : State) : Elems := s.elems.set s.absPos.toNat w (absPos_lt s.absPos)

/-- Absorbing one element; the eighth of a chunk starts a permutation (42 R232). -/
def absorbElem (w : Word) (s : State) : State :=
  let loaded := { s with elems := loadElem w s, absCnt := s.absCnt + 1, digestValid := false }
  if s.absPos = 7 then accept (.chunkPerm loaded.elems) { loaded with absPos := 0 }
  else { loaded with absPos := s.absPos + 1 }

/-- A word arriving for absorption: NONCANON is noted and the word is absorbed all the same (42 R234). -/
def absorbWord (w : Word) (s : State) : State := absorbElem w (noteIf (nonCanonical w) .noncanon s)

/-- A byte that completes the 8-byte group yields its word; another one joins BYTE_ACC (42 R235). -/
def absorbByte (b : Byte) (s : State) : State :=
  if s.bytePos = 7 then absorbWord (groupWord s.byteAcc b) { s with byteAcc := 0, bytePos := 0 }
  else { s with byteAcc := pushByte s.byteAcc b, bytePos := s.bytePos + 1 }

/-- need_perm of SFINAL: a short last chunk, or no element at all (42 R238, 90 C2). -/
def State.needPerm (s : State) : Bool := s.absPos != 0 || s.absCnt == 0

/-- The registers of 10 R59 at their reset values; the build, the free values handed out and what the agents do next are
not the block's registers (70 R320). A command in flight is discarded (70 R321). -/
def clearRegs (s : State) : State :=
  { State.reset with cfg := s.cfg, draws := s.draws, schedule := s.schedule, inReset := s.inReset }

end Sys2Proof.Machine
end

