-- ==== Sys2Proof/Machine/Complete.lean ====
section
/-! DEFINITION. The Core's one step: completing the operation in flight, from the values it sampled at acceptance
(60_exceptions.md R290, 70_reset_and_hazards.md R332). One definition per operation. -/

namespace Sys2Proof.Machine

/-- FR takes a field command's result (40 R138). -/
def writeFr (r : Word) (s : State) : State := { s with fr := r }

/-- NOP (60 R291). -/
def completeNop (s : State) : State := finish s

/-- FMUL (40 R139). -/
def completeFmul (a b : Word) (s : State) : State := finish (writeFr (fmul a b) s)

/-- FSQR; b is not read (40 R140). -/
def completeFsqr (a _b : Word) (s : State) : State := finish (writeFr (fsqr a) s)

/-- FADD (40 R141). -/
def completeFadd (a b : Word) (s : State) : State := finish (writeFr (fadd a b) s)

/-- FSUB (40 R142). -/
def completeFsub (a b : Word) (s : State) : State := finish (writeFr (fsub a b) s)

/-- FNEG; b is not read (40 R143). -/
def completeFneg (a _b : Word) (s : State) : State := finish (writeFr (fneg a) s)

/-- FCAN; b is not read (40 R144). -/
def completeFcan (a _b : Word) (s : State) : State := finish (writeFr (canon a) s)

/-- FADDC (40 R145). -/
def completeFaddc (a b : Word) (s : State) : State := finish (writeFr (faddc a b) s)

/-- FSUBC (40 R146). -/
def completeFsubc (a b : Word) (s : State) : State := finish (writeFr (fsubc a b) s)

/-- FEQ: STATUS.EQ and FR (40 R147). -/
def completeFeq (a b : Word) (s : State) : State := finish (writeFr (bit0 (feq a b)) { s with eq := feq a b })

/-- The field commands (40 R138). -/
def completeField (op : FieldOp) (a b : Word) (s : State) : State :=
  match op with
  | .fmul  => completeFmul a b s
  | .fsqr  => completeFsqr a b s
  | .fadd  => completeFadd a b s
  | .fsub  => completeFsub a b s
  | .fneg  => completeFneg a b s
  | .fcan  => completeFcan a b s
  | .faddc => completeFaddc a b s
  | .fsubc => completeFsubc a b s
  | .feq   => completeFeq a b s

/-- PERM (41 R194). -/
def completePerm (S : Elems) (s : State) : State :=
  finish { s with elems := poseidon s.cfg.raw S, permCnt := s.permCnt + 1, digestValid := false }

/-- PSTEP: STAGE moves on, and the last stage counts a permutation (41 R195). -/
def completePstep (S : Elems) (st : BitVec 8) (s : State) : State :=
  let last := st.toNat + 1 = s.nstage
  finish { s with
    elems       := stage s.cfg.raw st.toNat S
    stage       := if last then 0 else st + 1
    permCnt     := if last then s.permCnt + 1 else s.permCnt
    digestValid := false }

/-- SINIT (42 R231). -/
def completeSinit (s : State) : State :=
  finish { s with
    elems       := zeroElems
    absPos      := 0
    bytePos     := 0
    byteAcc     := 0
    absCnt      := 0
    permCnt     := 0
    squeezed    := false
    digestValid := false
    stage       := 0 }

/-- SFINAL (42 R238). -/
def completeSfinal (S : Elems) (needPerm : Bool) (s : State) : State :=
  finish { s with
    elems       := if needPerm then poseidon s.cfg.raw S else s.elems
    permCnt     := if needPerm then s.permCnt + 1 else s.permCnt
    absPos      := 0
    squeezed    := true
    digestValid := true }

/-- The permutation of a complete chunk (42 R232); a permutation triggered by absorption clears DIGEST_VALID
(10 R38; log 10). -/
def completeChunkPerm (S : Elems) (s : State) : State :=
  finish { s with elems := poseidon s.cfg.raw S, permCnt := s.permCnt + 1, digestValid := false }

/-- `complete(op)` (60 R290). -/
def complete (op : Pending) (s : State) : State :=
  match op with
  | .nop             => completeNop s
  | .field op a b    => completeField op a b s
  | .perm S          => completePerm S s
  | .pstep S st      => completePstep S st s
  | .sinit           => completeSinit s
  | .sfinal S need   => completeSfinal S need s
  | .chunkPerm S     => completeChunkPerm S s

/-- The Core's turn: it completes the operation in flight; with none it has no step (60 R290; log 1). -/
def coreStep (s : State) : State :=
  match s.pending with
  | some op => complete op s
  | none => s

end Sys2Proof.Machine
end

