-- ==== Sys2Proof/Machine/Field.lean ====
section
/-! DEFINITION. The field commands (40_field_arith.md R138–R147). Each has no check but BUSY, and samples FA and FB at
acceptance; its result is written when the Core completes it (Machine/Complete.lean). -/

namespace Sys2Proof.Machine

/-- Acceptance of a field command: a = FA and b = FB are sampled (40 R138). -/
def acceptField (op : FieldOp) (s : State) : State := accept (.field op s.fa s.fb) s

/-- FMUL (40 R139). -/
def execFmul (s : State) : Outcome :=
  .next (guardedWrite [(s.busy, .busy)] (acceptField .fmul) s)

/-- FSQR (40 R140). -/
def execFsqr (s : State) : Outcome :=
  .next (guardedWrite [(s.busy, .busy)] (acceptField .fsqr) s)

/-- FADD (40 R141). -/
def execFadd (s : State) : Outcome :=
  .next (guardedWrite [(s.busy, .busy)] (acceptField .fadd) s)

/-- FSUB (40 R142). -/
def execFsub (s : State) : Outcome :=
  .next (guardedWrite [(s.busy, .busy)] (acceptField .fsub) s)

/-- FNEG (40 R143). -/
def execFneg (s : State) : Outcome :=
  .next (guardedWrite [(s.busy, .busy)] (acceptField .fneg) s)

/-- FCAN (40 R144). -/
def execFcan (s : State) : Outcome :=
  .next (guardedWrite [(s.busy, .busy)] (acceptField .fcan) s)

/-- FADDC: a non-canonical FB is noted as PRECOND at acceptance, and the command runs (40 R145, 60 R287). -/
def execFaddc (s : State) : Outcome :=
  .next (guardedWrite [(s.busy, .busy)] (fun s => acceptField .faddc (noteIf (nonCanonical s.fb) .precond s)) s)

/-- FSUBC: a non-canonical FB is noted as PRECOND at acceptance, and the command runs (40 R146, 60 R287). -/
def execFsubc (s : State) : Outcome :=
  .next (guardedWrite [(s.busy, .busy)] (fun s => acceptField .fsubc (noteIf (nonCanonical s.fb) .precond s)) s)

/-- FEQ (40 R147). -/
def execFeq (s : State) : Outcome :=
  .next (guardedWrite [(s.busy, .busy)] (acceptField .feq) s)

end Sys2Proof.Machine
end

