-- ==== Sys2Proof/Machine/Permutation.lean ====
section
/-! DEFINITION. The permutation commands (41_permutation.md R194, R195). -/

namespace Sys2Proof.Machine

/-- PERM: refused with SEQ unless STAGE = 0; STATE is sampled at acceptance (41 R194). -/
def execPerm (s : State) : Outcome :=
  .next (guardedWrite [(s.busy, .busy), (s.stage != 0, .seq)] (fun s => accept (.perm s.elems) s) s)

/-- PSTEP: no sequencing check; STATE and STAGE are sampled at acceptance (41 R195). -/
def execPstep (s : State) : Outcome :=
  .next (guardedWrite [(s.busy, .busy)] (fun s => accept (.pstep s.elems s.stage) s) s)

end Sys2Proof.Machine
end

