-- ==== Sys2Proof/Machine/Sponge.lean ====
section
/-! DEFINITION. The sponge commands and the two data-port writes (42_sponge.md R231, R233, R235, R238), each with its
checks in the order its rule lists them. -/

namespace Sys2Proof.Machine

/-- SINIT: no sequencing check (42 R231). -/
def execSinit (s : State) : Outcome :=
  .next (guardedWrite [(s.busy, .busy)] (accept .sinit) s)

/-- SFINAL (42 R238). -/
def execSfinal (s : State) : Outcome :=
  .next (guardedWrite [(s.busy, .busy), (s.stage != 0, .seq), (s.squeezed, .seq), (s.bytePos != 0, .len)]
    (fun s => accept (.sfinal s.elems s.needPerm) s) s)

/-- IN_WORD (42 R233). -/
def execInWord (w : Word) (s : State) : Outcome :=
  .next (guardedWrite [(s.busy, .busy), (s.stage != 0, .seq), (s.squeezed, .seq), (s.bytePos != 0, .seq)]
    (absorbWord w) s)

/-- IN_BYTE of the written value v (42 R235, 30 R105). -/
def execInByte (v : Word) (s : State) : Outcome :=
  .next (guardedWrite [(s.busy, .busy), (v >>> 8 != 0, .access), (s.stage != 0, .seq), (s.squeezed, .seq)]
    (absorbByte (dataByte v)) s)

end Sys2Proof.Machine
end

