-- ==== Sys2Proof/Machine/System.lean ====
section
/-! DEFINITION. The system family: NOP (60_exceptions.md R291). An `exec…` is the Host's write access that issues the
instruction, with its checks and its acceptance; the accepted operation completes in a later step of the Core. -/

namespace Sys2Proof.Machine

/-- NOP: accepted like any command, and completing with no effect but EVENT.DONE (60 R291). -/
def execNop (s : State) : Outcome :=
  .next (guardedWrite [(s.busy, .busy)] (accept .nop) s)

end Sys2Proof.Machine
end

