-- ==== Sys2Proof/Machine/Dispatch.lean ====
section
/-! DEFINITION. One arm per instruction. -/

namespace Sys2Proof.Machine

def exec (i : Instr) (s : State) : Host.Outcome State Fault Refusal :=
  match i with
  | .nop => Sys2Proof.Machine.execNop s
  | .fmul => Sys2Proof.Machine.execFmul s
  | .fsqr => Sys2Proof.Machine.execFsqr s
  | .fadd => Sys2Proof.Machine.execFadd s
  | .fsub => Sys2Proof.Machine.execFsub s
  | .fneg => Sys2Proof.Machine.execFneg s
  | .fcan => Sys2Proof.Machine.execFcan s
  | .faddc => Sys2Proof.Machine.execFaddc s
  | .fsubc => Sys2Proof.Machine.execFsubc s
  | .feq => Sys2Proof.Machine.execFeq s
  | .perm => Sys2Proof.Machine.execPerm s
  | .pstep => Sys2Proof.Machine.execPstep s
  | .sinit => Sys2Proof.Machine.execSinit s
  | .sfinal => Sys2Proof.Machine.execSfinal s
  | .inWord w => Sys2Proof.Machine.execInWord w s
  | .inByte v => Sys2Proof.Machine.execInByte v s

end Sys2Proof.Machine
end

