-- ==== Sys2Proof/Machine/Bus.lean ====
section
/-! DEFINITION. The bus slave port: every access of the Host (20_memory.md R72–R78), with the checks of one access in the
order of 60_exceptions.md R288 (size, alignment, mapping and read-only first, then BUSY, then the format; log 8). -/

namespace Sys2Proof.Machine

/-- An access the port can take at all: 8 bytes at a multiple of 8 (20 R72, R73). -/
def wellSized (off : Offset) (size : Nat) : Bool := size == 8 && off.toNat % 8 == 0

/-- An aborted read: read data 0 and the error response (20 R73, R74). -/
def abortRead (k : ErrorCode) (s : State) : State := respond (.readDone 0 k.busError) (recordError k s)

/-- A read whose value is unspecified takes the next free value (00 R14 `draw()`; log 5). -/
def drawRead (shape : Word → Word) (s : State) : State :=
  respond (.readDone (shape (Config.freeValue s.draws)) false) { s with draws := s.draws + 1 }

/-- A read of TBL_DATA: the entry, or 0 with TABLE recorded and no error response (10 R53, 60 R281). -/
def readTable (s : State) : State :=
  match s.tableEntry with
  | some v => respond (.readDone v false) s
  | none => respond (.readDone 0 ErrorCode.table.busError) (recordError .table s)

/-- A read of a mapped register (20 R75, R77, R78, 10 R36). -/
def readReg (r : Reg) (s : State) : State :=
  if s.busy && r.unspecifiedBusy then drawRead id s
  else if s.busy && r == .status then drawRead s.statusBusyWord s
  else if r = .tblData then readTable s
  else respond (.readDone (s.regValue r) false) s

/-- BusRead. -/
def busRead (off : Offset) (size : Nat) (s : State) : State :=
  if wellSized off size then
    match regAt off with
    | some r => readReg r s
    | none => abortRead .access s
  else abortRead .access s

/-- A write to TBL_INDEX: the reserved bits [63:20] must be 0 (10 R52). -/
def writeTblIndex (v : Word) (s : State) : State :=
  guardedWrite [(s.busy, .busy), (v >>> 20 != 0, .access)] (fun s => { s with tblIndex := v.setWidth 20 }) s

/-- The error of a write to a port that decodes to no instruction: ILLEGAL at CMD (30 R104), ACCESS at IN_BYTE (30 R105). -/
def rejectionCode (off : Offset) : ErrorCode := if off = cmdPort then .illegal else .access

/-- A write to CMD, IN_WORD or IN_BYTE: the instruction it decodes to runs; one that decodes to none is aborted (30 R106). -/
def writePort (off : Offset) (v : Word) (s : State) : Outcome :=
  match decodeWrite off v with
  | .ok i => exec i s
  | .error _ => .next (guardedWrite [(s.busy, .busy), (true, rejectionCode off)] id s)

/-- A write to a mapped register (20 R75, R77, R78). -/
def writeReg (r : Reg) (v : Word) (s : State) : Outcome :=
  match r with
  | .cmd | .inWord | .inByte => writePort r.offset v s
  | .event    => .next (guardedWrite [] (clearEvent v) s)
  | .irqEn    => .next (guardedWrite [] (fun s => { s with irqEn := v.setWidth 2 }) s)
  | .err      => .next (guardedWrite [] (clearErr v) s)
  | .fa       => .next (guardedWrite [(s.busy, .busy)] (fun s => { s with fa := v }) s)
  | .fb       => .next (guardedWrite [(s.busy, .busy)] (fun s => { s with fb := v }) s)
  | .tblIndex => .next (writeTblIndex v s)
  | .elem i   => .next (guardedWrite [(s.busy, .busy)]
      (fun s => { s with elems := s.elems.set i.val v, digestValid := false }) s)
  | .id | .param | .status | .errcode | .fr | .absCnt | .permCnt | .tblData => .next (abortWrite .access s)

/-- BusWrite. -/
def busWrite (off : Offset) (size : Nat) (v : Word) (s : State) : Outcome :=
  if wellSized off size then
    match regAt off with
    | some r => writeReg r v s
    | none => .next (abortWrite .access s)
  else .next (abortWrite .access s)

/-- One access of the Host. -/
def hostAccess (a : BusAccess) (s : State) : Outcome :=
  match a with
  | .read off size => .next (busRead off size s)
  | .write off size v => busWrite off size v s

/-- One turn of an agent (00 R3, 20 R81, R82). While the reset input is asserted the block ignores accesses and the Core
has no step (70 R320); asserting it discards the command in flight (70 R321); at its release every register holds its
reset value (70 R320; log 9). -/
def takeTurn (t : Turn) (s : State) : Outcome :=
  match t with
  | .host a       => if s.inReset then .next { s with resp := none } else hostAccess a s
  | .core         => if s.inReset then .next s else .next (coreStep s)
  | .resetAssert  => .next (clearRegs { s with inReset := true })
  | .resetRelease => if s.inReset then .next (clearRegs { s with inReset := false }) else .next s

/-- Nothing is scheduled: the Host makes no access, and an operation in flight completes (60 R290, weak fairness; log 1). -/
def idleTurn (s : State) : Outcome := takeTurn .core s

end Sys2Proof.Machine
end

