-- ==== Sys2Proof/Machine/Step.lean ====
section
/-! DEFINITION. One step of the machine: the next turn of the schedule (00_scope.md R3, 20_memory.md R81, R82; log 1). -/

namespace Sys2Proof.Machine

/-- One step: the first turn of the schedule is taken out and made; with none left the machine idles, and an operation in
flight completes. -/
def step (s : State) : Host.Outcome State Fault Refusal :=
  match s.schedule with
  | [] => idleTurn s
  | t :: rest => takeTurn t { s with schedule := rest }

/-- `s` with the instruction word scheduled as the Host's very next access, a write to the port its table row names
(log 2, log 3). A reset still asserted is released, since the block would ignore the access (70 R320). -/
def State.withFetchWord (s : State) (nbits w : Nat) : State :=
  let v : Word := BitVec.ofNat 64 (w % 2 ^ nbits)
  { s with schedule := .host (.write (tablePort v) 8 v) :: s.schedule, inReset := false }

end Sys2Proof.Machine
end

