-- ==== Sys2Proof/Machine/Asm.lean ====
section
/-! DEFINITION. The host assembly and its pseudo-instructions (30_encoding.md R108, R109), as lists of turns. The host's
own control flow is outside the block (10_state.md R57): `wait` is given by how many polls read BUSY = 1. -/

namespace Sys2Proof.Machine.Asm

/-- `wr NAME, v` -/
def wr (r : Reg) (v : Word) : List Turn := [.host (.write r.offset 8 v)]

/-- `rd NAME -> t` -/
def rd (r : Reg) : List Turn := [.host (.read r.offset 8)]

/-- `cmd MNEMONIC`, and the data-port writes: the access that issues an instruction. -/
def issue (i : Instr) : List Turn := [.host (.write (encode i).1 8 (encode i).2)]

/-- `wait`: `polls` reads of STATUS while busy, the Core's completion, and the read that shows BUSY = 0. -/
def wait (polls : Nat) : List Turn := (List.replicate polls (rd .status)).flatten ++ [.core] ++ rd .status

/-- `fop OP, a, b -> t` -/
def fop (polls : Nat) (i : Instr) (a b : Word) : List Turn :=
  wr .fa a ++ wr .fb b ++ issue i ++ wait polls ++ rd .fr

/-- `fop1 OP, a -> t` -/
def fop1 (polls : Nat) (i : Instr) (a : Word) : List Turn := wr .fa a ++ issue i ++ wait polls ++ rd .fr

/-- `absorb w` -/
def absorb (polls : Nat) (w : Word) : List Turn := issue (.inWord w) ++ wait polls

/-- `absorbb b` -/
def absorbb (polls : Nat) (b : Byte) : List Turn := issue (.inByte (b.setWidth 64)) ++ wait polls

/-- `clrerr` -/
def clrerr : List Turn := wr .err 0xFF ++ wr .event 0x3

/-- The absorbs of `hash`, in order. -/
def absorbAll (polls : Nat) : List Word → List Turn
  | [] => []
  | w :: ws => absorb polls w ++ absorbAll polls ws

/-- `absorbb` of every byte, in order (42 R240, R243). -/
def absorbBytes (polls : Nat) : List Byte → List Turn
  | [] => []
  | b :: bs => absorbb polls b ++ absorbBytes polls bs

/-- `hash w_0 .. w_{k−1}` up to the end of SFINAL; the digest is then read from STATE[0..3]. -/
def hash (polls : Nat) (ws : List Word) : List Turn :=
  issue .sinit ++ wait polls ++ absorbAll polls ws ++ issue .sfinal ++ wait polls

/-- The byte-oriented hash call (42 R243). -/
def hashBytes (polls : Nat) (bs : List Byte) : List Turn :=
  issue .sinit ++ wait polls ++ absorbBytes polls bs ++ issue .sfinal ++ wait polls

end Sys2Proof.Machine.Asm
end

