-- ==== Sys2Proof/Safety.lean ====
section
/-! DEFINITION. The states a run can be in (`State.Inv`), in the terms claims use, and what a claim calls an idle block
and a canonical state. -/

namespace Sys2Proof.Machine

/-- Neither an operation in flight nor reset asserted: the next write is examined and not dropped. -/
abbrev State.Idle (s : State) : Prop := s.pending = none ∧ s.inReset = false

/-- ERRCODE and ERR agree: both are 0, or neither is and ERRCODE is a code of 60 R281 (10 R48, 60 R282). The error it
names may have been cleared alone since, so its own ERR bit need not be set. -/
def errorsAgree (err : BitVec 8) (errcode : BitVec 4) : Bool :=
  decide (err = 0 ↔ errcode = 0) && decide (errcode.toNat ≤ 8)

/-- What an operation in flight sampled is still in the registers, and its sequencing checks held when it was accepted
(60 R289, 70 R332, R333). -/
def Pending.matchesState (s : State) : Pending → Prop
  | .nop => True
  | .sinit => True
  | .field _ a b => a = s.fa ∧ b = s.fb
  | .perm S => S = s.elems ∧ s.stage = 0
  | .pstep S st => S = s.elems ∧ st = s.stage
  | .sfinal S need =>
      S = s.elems ∧ need = s.needPerm ∧ s.stage = 0 ∧ s.squeezed = false ∧ s.bytePos = 0
  | .chunkPerm S =>
      S = s.elems ∧ s.stage = 0 ∧ s.squeezed = false ∧ s.bytePos = 0 ∧ s.absPos = 0 ∧ s.digestValid = false

/-- The invariant of the machine. -/
structure State.Inv (s : State) : Prop where
  /-- STAGE is 0..NSTAGE−1 (10 R43) -/
  stage_lt : s.stage.toNat < s.nstage
  /-- BYTE_ACC holds BYTE_POS bytes (10 R55) -/
  byteAcc_lt : s.byteAcc.toNat < 2 ^ (8 * s.bytePos.toNat)
  /-- ERRCODE and ERR agree (10 R48) -/
  errors : errorsAgree s.err s.errcode = true
  /-- DIGEST_VALID only after a finalised sponge (10 R38, R39) -/
  digest : s.digestValid = true → s.squeezed = true
  /-- a finalised sponge holds no partial chunk and no partial group (42 R238) -/
  squeezed : s.squeezed = true → s.absPos = 0 ∧ s.bytePos = 0
  /-- before the squeeze, ABS_POS is the number of absorbed elements modulo 8 (10 R41, R49, 42 R232) -/
  position : s.squeezed = false → s.absPos.toNat = s.absCnt.toNat % 8
  /-- the operation in flight (60 R289) -/
  inFlight : ∀ op, s.pending = some op → op.matchesState s
  /-- no operation is in flight during reset (70 R321) -/
  reset : s.inReset = true → s.pending = none

/-- Equal canonical forms, lane by lane (41 R198). -/
def canonEq (S T : Elems) : Prop := ∀ i : Fin 12, canon S[i] = canon T[i]

/-- Issuing an instruction and letting the Core complete it, with nothing in between. -/
def settle (i : Instr) (s : State) : Outcome :=
  match exec i s with
  | .next t => .next (coreStep t)
  | .fault r => .fault r
  | .refused r => .refused r

/-- The same instruction issued and completed n times. -/
def settleTimes (i : Instr) : Nat → State → Outcome
  | 0, s => .next s
  | n + 1, s =>
    match settle i s with
    | .next t => settleTimes i n t
    | .fault r => .fault r
    | .refused r => .refused r

/-- A list of instructions issued in order, with no step of the Core in between. -/
def issueAll : List Instr → State → Outcome
  | [], s => .next s
  | i :: rest, s =>
    match exec i s with
    | .next t => issueAll rest t
    | .fault r => .fault r
    | .refused r => .refused r

/-- The write that issues an instruction, which is its encoding and decodes to it (30 R101, R103), and what becomes of it
while an operation is in flight: it is dropped with BUSY (20 R78). For a command also: its opcode with any of bits 63:8 set
is illegal and nothing more (30 R104). -/
def issuedBy (i : Instr) (port : Offset) (v : Word) : Prop :=
  encode i = (port, v) ∧ decodeWrite port v = .ok i ∧
  (∀ s : State, s.pending ≠ none → exec i s = .next (respond (.writeDone true) (recordError .busy s))) ∧
  (port = 0x010 → ∀ (s : State) (w : Word), s.pending = none → w.setWidth 8 = v.setWidth 8 → w >>> 8 ≠ 0 →
    hostAccess (.write 0x010 8 w) s = .next (respond (.writeDone false) (recordError .illegal s)))

/-- The next step is the Core's: its turn is scheduled, or nothing is. -/
def State.coreMoves (s : State) : Prop := s.inReset = false ∧ (s.schedule = [] ∨ ∃ rest, s.schedule = .core :: rest)

/-- The next step is the reset input's. -/
def State.resetMoves (s : State) : Prop :=
  ∃ rest, s.schedule = .resetAssert :: rest ∨ s.schedule = .resetRelease :: rest

/-- The next step is a full-word write of `v` at `off`. -/
def State.hostWrites (s : State) (off : Offset) (v : Word) : Prop :=
  s.inReset = false ∧ ∃ rest, s.schedule = .host (.write off 8 v) :: rest

/-- The next step absorbs an element: an idle block whose checks pass is written a word, or the byte that completes a group
(42 R233, R235). -/
def State.absorbsElement (s : State) : Prop :=
  s.pending = none ∧ s.stage = 0 ∧ s.squeezed = false ∧
  ((s.bytePos = 0 ∧ ∃ w : Word, s.hostWrites 0x068 w) ∨
   (s.bytePos = 7 ∧ ∃ v : Word, v >>> 8 = 0 ∧ s.hostWrites 0x070 v))

end Sys2Proof.Machine
end

