-- ==== Sys2Proof/Certificates/Slice0/Obligations.lean ====
section
/-! DEFINITION. What is claimed of the machine, from the numbered rules of spec/. A rule is cited as <file> R<n>. Where a
clause says that a whole next state equals the old one with some fields replaced, every other field is unchanged: that is
its frame. -/

open Sys2Proof Sys2Proof.Machine

/-! ### Decoding -/

/-- 20 R81, 30 R106: a full-word write whose byte lanes decode to an instruction runs exactly that instruction, and the
step takes only that access out of the schedule. -/
def Obligations.StepRunsDecodedInstruction : Prop :=
  ∀ (s : State) (off : Offset) (v : Word) (i : Instr) (rest : List Turn),
    s.inReset = false → s.schedule = .host (.write off 8 v) :: rest → decodeLanes off (lanesOfWord v) = .ok i →
    i.wf = true ∧ step s = exec i { s with schedule := rest }

/-- Words written out from 30 R101 and R103, lane by lane (20 R79). -/
def Obligations.WrittenOutWordsDecode : Prop :=
  decodeLanes 0x010 [0x00, 0, 0, 0, 0, 0, 0, 0] = .ok .nop ∧
  decodeLanes 0x010 [0x01, 0, 0, 0, 0, 0, 0, 0] = .ok .fmul ∧
  decodeLanes 0x010 [0x09, 0, 0, 0, 0, 0, 0, 0] = .ok .feq ∧
  decodeLanes 0x010 [0x11, 0, 0, 0, 0, 0, 0, 0] = .ok .pstep ∧
  decodeLanes 0x010 [0x21, 0, 0, 0, 0, 0, 0, 0] = .ok .sfinal ∧
  decodeLanes 0x010 [0x01, 1, 0, 0, 0, 0, 0, 0] = .error .reservedBits ∧
  decodeLanes 0x010 [0x0A, 0, 0, 0, 0, 0, 0, 0] = .error .undefinedOpcode ∧
  decodeLanes 0x068 [0x08, 0x07, 0x06, 0x05, 0x04, 0x03, 0x02, 0x01] = .ok (.inWord 0x0102030405060708) ∧
  decodeLanes 0x070 [0xAA, 0, 0, 0, 0, 0, 0, 0] = .ok (.inByte 0xAA) ∧
  decodeLanes 0x070 [0xAA, 0, 0, 0, 0, 0, 0, 1] = .error .reservedBits

/-- 30 R100, R101, R103: encoding a well-formed instruction and decoding its lanes gives it back, and whatever decodes is
well formed and is its own encoding. -/
def Obligations.DecodeAndEncodeAgree : Prop :=
  (∀ i : Instr, i.wf = true → decodeLanes (encode i).1 (lanesOfWord (encode i).2) = .ok i) ∧
  (∀ (off : Offset) (lanes : List Byte) (i : Instr), decodeLanes off lanes = .ok i →
    i.wf = true ∧ off = (encode i).1 ∧ lanes = lanesOfWord (encode i).2)

/-- 30 R104: which CMD words are illegal, and that an illegal one has no effect but the recorded error. -/
def Obligations.IllegalCommandHasNoEffect : Prop :=
  (∀ v : Word,
    (v >>> 8 ≠ 0 ∨ (0x0A ≤ v.toNat % 256 ∧ v.toNat % 256 ≤ 0x0F) ∨ (0x12 ≤ v.toNat % 256 ∧ v.toNat % 256 ≤ 0x1F) ∨
      0x22 ≤ v.toNat % 256) ↔ ∀ i : Instr, decodeWrite 0x010 v ≠ .ok i) ∧
  (∀ (s : State) (v : Word), s.pending = none → (∀ i : Instr, decodeWrite 0x010 v ≠ .ok i) →
    hostAccess (.write 0x010 8 v) s = .next (respond (.writeDone false) (recordError .illegal s)))

/-- 30 R105: an IN_BYTE write with a reserved bit set is not absorbed. -/
def Obligations.InByteReservedBitsAreRefused : Prop :=
  ∀ (s : State) (v : Word), s.pending = none → v >>> 8 ≠ 0 →
    hostAccess (.write 0x070 8 v) s = .next (respond (.writeDone true) (recordError .access s)) ∧
    exec (.inByte v) s = .next (respond (.writeDone true) (recordError .access s))

/-! ### Reset -/

/-- 10 R59: the machine after reset, and the machine a released reset input leaves (70 R320; the release is a turn of its own,
log 9). -/
def Obligations.ResetValuesHold : Prop :=
  let cleared (t : State) : Prop :=
    t.fa = 0 ∧ t.fb = 0 ∧ t.fr = 0 ∧ (∀ i : Fin 12, t.elems[i] = 0) ∧ t.busy = false ∧ t.digestValid = false ∧
    t.squeezed = false ∧ t.eq = false ∧ t.absPos = 0 ∧ t.bytePos = 0 ∧ t.stage = 0 ∧ t.event = 0 ∧ t.irqEn = 0 ∧
    t.err = 0 ∧ t.errcode = 0 ∧ t.absCnt = 0 ∧ t.permCnt = 0 ∧ t.tblIndex = 0 ∧ t.byteAcc = 0 ∧ t.pending = none ∧
    t.irq = false
  cleared State.reset ∧
  ∀ (s : State) (rest : List Turn), s.inReset = true → s.schedule = .resetRelease :: rest →
    ∃ t, step s = .next t ∧ cleared t ∧ t.inReset = false ∧ t.schedule = rest ∧ t.cfg = s.cfg ∧
      t.regValue .id = s.regValue .id ∧ t.regValue .param = s.regValue .param

/-- 70 R320, R321: asserting reset discards the operation in flight without DONE; while it stays asserted an access has no
effect and records no error, and the Core has no step. The model's choices here are log 9's: that EVENT and ERR are 0 from
the assertion on (R320 gives their values for the time after the release), and that an access meanwhile gets no answer. -/
def Obligations.AssertedResetStopsTheBlock : Prop :=
  (∀ (s t : State) (rest : List Turn), s.schedule = .resetAssert :: rest → step s = .next t →
    t.pending = none ∧ t.event = 0 ∧ t.err = 0 ∧ t.inReset = true ∧ t.cfg = s.cfg ∧ t.schedule = rest) ∧
  (∀ (s : State) (a : BusAccess) (rest : List Turn), s.inReset = true → s.schedule = .host a :: rest →
    step s = .next { s with schedule := rest, resp := none }) ∧
  (∀ (s : State) (rest : List Turn), s.inReset = true → s.schedule = .core :: rest →
    step s = .next { s with schedule := rest })

/-! ### Errors, events and the interrupt line -/

/-- 60 R282: what recording error k (bit k − 1) does, and that an ERR bit, once set, is cleared only by a write of a one to
it in ERR or by reset. -/
def Obligations.RecordedErrorsStick : Prop :=
  (∀ (k : ErrorCode) (s : State), recordError k s = { s with
      errcode := if s.err = 0 then k.code else s.errcode
      err     := s.err ||| ((1 : BitVec 8) <<< (k.code.toNat - 1))
      event   := s.event ||| 2 }) ∧
  (∀ (k : ErrorCode) (s : State), s.err.getLsbD (k.code.toNat - 1) = true →
    (recordError k s).err = s.err ∧ (recordError k s).errcode = s.errcode ∧ (recordError k s).event.getLsbD 1 = true) ∧
  (∀ (s t : State) (j : Nat), step s = .next t → s.err.getLsbD j = true → t.err.getLsbD j = false →
    s.resetMoves ∨ ∃ v : Word, v.getLsbD j = true ∧ s.hostWrites 0x030 v)

/-- 60 R294: an EVENT bit is cleared only by a write of a one to it in EVENT or by reset; DONE is set at every completion
and ERROR at every recorded error. -/
def Obligations.EventsStayPending : Prop :=
  (∀ (s t : State) (j : Nat), step s = .next t → s.event.getLsbD j = true → t.event.getLsbD j = false →
    s.resetMoves ∨ ∃ v : Word, v.getLsbD j = true ∧ s.hostWrites 0x020 v) ∧
  (∀ (s : State) (op : Pending), s.pending = some op → s.coreMoves →
    ∃ t, step s = .next t ∧ t.event.getLsbD 0 = true ∧ t.event.getLsbD 1 = s.event.getLsbD 1) ∧
  (∀ (k : ErrorCode) (s : State),
    (recordError k s).event.getLsbD 1 = true ∧ (recordError k s).event.getLsbD 0 = s.event.getLsbD 0)

/-- 60 R296: IRQ = (EVENT.DONE & DONE_IE) | (EVENT.ERROR & ERROR_IE). -/
def Obligations.InterruptLineIsTheEnabledEvents : Prop :=
  ∀ s : State, s.irq = ((s.event.getLsbD 0 && s.irqEn.getLsbD 0) || (s.event.getLsbD 1 && s.irqEn.getLsbD 1))

/-- 10 R45, R46, R47, R48: the three registers that are written while BUSY as well as while idle, each write changing
nothing else. -/
def Obligations.ControlWritesWorkAtEveryTime : Prop :=
  ∀ (s : State) (v : Word),
    hostAccess (.write 0x020 8 v) s = .next { s with
      event := s.event &&& ~~~ v.setWidth 2, resp := some (.writeDone false) } ∧
    hostAccess (.write 0x028 8 v) s = .next { s with irqEn := v.setWidth 2, resp := some (.writeDone false) } ∧
    hostAccess (.write 0x030 8 v) s = .next { s with
      err     := s.err &&& ~~~ v.setWidth 8
      errcode := if s.err &&& ~~~ v.setWidth 8 = 0 then 0 else s.errcode
      resp    := some (.writeDone false) }

/-- 60 R288, R292: every access of the Host records at most one error; one that aborts leaves everything but ERR, ERRCODE
and EVENT.ERROR (and the bus answer) as it was; one that does not abort is answered without the error response. A W1C write
to ERR or EVENT, the only access that clears such bits, records none. -/
def Obligations.OneErrorPerAccess : Prop :=
  ∀ (a : BusAccess) (s : State), (∀ off v, a = .write off 8 v → off ≠ 0x020 ∧ off ≠ 0x030) →
    ∃ t, hostAccess a s = .next t ∧
      ((∃ k r, k ∈ [ErrorCode.access, .busy, .illegal, .seq, .len] ∧ t = respond r (recordError k s)) ∨
       (∃ k ∈ [ErrorCode.noncanon, .precond, .table],
          t.err = (recordError k s).err ∧ t.errcode = (recordError k s).errcode ∧ t.event = (recordError k s).event ∧
          (t.resp = some (.writeDone false) ∨ t.resp = some (.readDone 0 false))) ∨
       (t.err = s.err ∧ t.errcode = s.errcode ∧ t.event = s.event ∧
          (t.resp = some (.writeDone false) ∨ ∃ v, t.resp = some (.readDone v false))))

/-- 60 R280: the block takes no trap: every step answers a next state. -/
def Obligations.NoStepStops : Prop := ∀ s : State, ∃ t, step s = .next t

/-! ### The busy protocol -/

/-- 20 R78, 60 R284, and for the order of the checks 60 R288: while an operation is in flight, every instruction is dropped
with BUSY and the error response, whatever its operands, and so is every write to FA, FB, TBL_INDEX and STATE[i]. -/
def Obligations.WritesWhileBusyAreDropped : Prop :=
  ∀ s : State, s.pending ≠ none →
    (∀ i : Instr, exec i s = .next (respond (.writeDone true) (recordError .busy s))) ∧
    (∀ (off : Offset) (v : Word), off ∈ [(0x010 : Offset), 0x040, 0x048, 0x068, 0x070, 0x078] →
      hostAccess (.write off 8 v) s = .next (respond (.writeDone true) (recordError .busy s))) ∧
    (∀ (i : Fin 12) (v : Word), hostAccess (.write (BitVec.ofNat 12 (0x100 + 8 * i.val)) 8 v) s =
      .next (respond (.writeDone true) (recordError .busy s)))

/-- 70 R332, R333: between acceptance and completion an access changes nothing but EVENT, IRQ_EN, ERR, ERRCODE and the
model's own answer and free-value count: the operation in flight, its operands and everything it will write stay. -/
def Obligations.AccessesDoNotDisturbTheOperationInFlight : Prop :=
  ∀ (s : State) (a : BusAccess) (rest : List Turn), s.pending ≠ none → s.inReset = false →
    s.schedule = .host a :: rest →
    ∃ t, step s = .next t ∧ t = { s with
      event := t.event, irqEn := t.irqEn, err := t.err, errcode := t.errcode, draws := t.draws, resp := t.resp,
      schedule := rest }

/-- 60 R290: an operation in flight is completed after finitely many turns, however the accesses fall: if reset is not
asserted meanwhile, the machine comes, within the turns that are scheduled, to a step in which the Core completes exactly
that operation. (That the Core moves when nothing is scheduled is the model's choice, log 1.) -/
def Obligations.EveryAcceptedOperationCompletes : Prop :=
  ∀ (s : State) (op : Pending), s.inReset = false → s.pending = some op → (∀ t ∈ s.schedule, t ≠ .resetAssert) →
    ∃ (k : Nat) (u : State), k ≤ s.schedule.length ∧ Host.Core.run Sys2Proof.core k s = .next u ∧
      u.pending = some op ∧ step u = .next (complete op { u with schedule := u.schedule.tail })

/-- 10 R37: BUSY is set only by acceptance, an access of the Host to CMD, IN_WORD or IN_BYTE, and cleared only by
completion or reset. -/
def Obligations.BusySetByAcceptanceClearedByCompletion : Prop :=
  ∀ s t : State, step s = .next t →
    (s.busy = false → t.busy = true →
      ∃ off v, off ∈ [(0x010 : Offset), 0x068, 0x070] ∧ s.hostWrites off v) ∧
    (s.busy = true → t.busy = false → s.coreMoves ∨ s.resetMoves)

/-! ### Bus accesses -/

/-- 20 R73, R74, R75, and for a block with an operation in flight 60 R288 (log 8): a narrow, misaligned or unmapped access,
or a write to a read-only register, has no effect but the recorded ACCESS error and gets the error response, a read with
data 0; a read of a write-only register answers 0. -/
def Obligations.BadAccessesRecordAccess : Prop :=
  (∀ (s : State) (off : Offset) (size : Nat),
    (size ≠ 8 ∨ off.toNat % 8 ≠ 0 ∨ (0x088 ≤ off.toNat ∧ off.toNat < 0x100) ∨ 0x160 ≤ off.toNat) →
    hostAccess (.read off size) s = .next (respond (.readDone 0 true) (recordError .access s)) ∧
    ∀ v, hostAccess (.write off size v) s = .next (respond (.writeDone true) (recordError .access s))) ∧
  (∀ (s : State) (off : Offset) (v : Word),
    off ∈ [(0x000 : Offset), 0x008, 0x018, 0x038, 0x050, 0x058, 0x060, 0x080] →
    hostAccess (.write off 8 v) s = .next (respond (.writeDone true) (recordError .access s))) ∧
  (∀ (s : State) (off : Offset), off ∈ [(0x010 : Offset), 0x068, 0x070] →
    hostAccess (.read off 8) s = .next { s with resp := some (.readDone 0 false) })

/-- 10 R31, R33, R35, R45–R52, R54, 20 R77: what an idle block answers to a read of each register but STATUS, PARAM and
TBL_DATA, and that the read changes nothing. -/
def Obligations.IdleReadsAnswerTheRegister : Prop :=
  ∀ s : State, s.pending = none →
    let answers (off : Offset) (v : Word) : Prop :=
      hostAccess (.read off 8) s = .next { s with resp := some (.readDone v false) }
    answers 0x000 0x4D474C504F533132 ∧ answers 0x010 0 ∧ answers 0x020 (s.event.setWidth 64) ∧
    answers 0x028 (s.irqEn.setWidth 64) ∧ answers 0x030 (s.err.setWidth 64) ∧ answers 0x038 (s.errcode.setWidth 64) ∧
    answers 0x040 s.fa ∧ answers 0x048 s.fb ∧ answers 0x050 s.fr ∧ answers 0x058 s.absCnt ∧ answers 0x060 s.permCnt ∧
    answers 0x068 0 ∧ answers 0x070 0 ∧ answers 0x078 (s.tblIndex.setWidth 64) ∧
    ∀ i : Fin 12, answers (BitVec.ofNat 12 (0x100 + 8 * i.val)) s.elems[i]

/-- 10 R36, R37, R44: STATUS, field by field. While BUSY only BUSY and ERR_ANY are said, and that the bits of no field
read 0 (log 6). -/
def Obligations.StatusFieldsReadAtTheirPlaces : Prop :=
  ∀ s : State, ∃ (t : State) (v : Word), hostAccess (.read 0x018 8) s = .next t ∧ t.resp = some (.readDone v false) ∧
    { t with resp := s.resp, draws := s.draws } = s ∧
    v.getLsbD 0 = s.busy ∧ v.getLsbD 31 = decide (s.err ≠ 0) ∧ v &&& 0xFFFFFFFF7F00F880 = 0 ∧
    (s.pending = none →
      t.draws = s.draws ∧ v.getLsbD 1 = s.digestValid ∧ v.getLsbD 2 = s.squeezed ∧ v.getLsbD 3 = s.eq ∧
      v.extractLsb' 4 3 = s.absPos ∧ v.extractLsb' 8 3 = s.bytePos ∧ v.extractLsb' 16 8 = s.stage)

/-- 10 R34: PARAM, field by field, at any time; a write to it is an ACCESS error, in a busy block too (log 8). -/
def Obligations.ParamReportsTheBuild : Prop :=
  ∀ s : State, ∃ v : Word,
    hostAccess (.read 0x008 8) s = .next { s with resp := some (.readDone v false) } ∧
    (v.extractLsb' 0 8).toNat = 12 ∧ (v.extractLsb' 8 8).toNat = 8 ∧ (v.extractLsb' 16 8).toNat = 4 ∧
    (v.extractLsb' 24 8).toNat = s.cfg.raw.halfFullRounds ∧ (v.extractLsb' 32 8).toNat = s.cfg.raw.partialRounds ∧
    (v.extractLsb' 40 8).toNat = 2 * s.cfg.raw.halfFullRounds + s.cfg.raw.partialRounds + 1 ∧
    (v.extractLsb' 48 8).toNat = 1 ∧ (v.extractLsb' 56 8).toNat = 0 ∧
    ∀ w : Word, hostAccess (.write 0x008 8 w) s = .next (respond (.writeDone true) (recordError .access s))

/-- 20 R78: reads while BUSY. Of FR, ABS_CNT, PERM_CNT and STATE[i] only that the access is answered without error and
changes nothing is said: the value is free (log 5). Reads of the other registers but STATUS and TBL_DATA are exact. -/
def Obligations.BusyReadsChangeNothing : Prop :=
  ∀ s : State, s.pending ≠ none →
    (∀ off : Offset, (off ∈ [(0x050 : Offset), 0x058, 0x060] ∨ ∃ i : Fin 12, off = BitVec.ofNat 12 (0x100 + 8 * i.val)) →
      ∃ (t : State) (v : Word), hostAccess (.read off 8) s = .next t ∧ t.resp = some (.readDone v false) ∧
        { t with resp := s.resp, draws := s.draws } = s) ∧
    (let answers (off : Offset) (v : Word) : Prop :=
      hostAccess (.read off 8) s = .next { s with resp := some (.readDone v false) }
    answers 0x000 0x4D474C504F533132 ∧ answers 0x010 0 ∧ answers 0x020 (s.event.setWidth 64) ∧
    answers 0x028 (s.irqEn.setWidth 64) ∧ answers 0x030 (s.err.setWidth 64) ∧ answers 0x038 (s.errcode.setWidth 64) ∧
    answers 0x040 s.fa ∧ answers 0x048 s.fb ∧ answers 0x068 0 ∧ answers 0x070 0 ∧
    answers 0x078 (s.tblIndex.setWidth 64))

/-- 10 R52, R53: the table port, idle or busy: TBL_DATA answers the entry TBL_INDEX names, and past the tables' ends it
answers 0 and notes TABLE; a write to it is an ACCESS error, in a busy block too (log 8). -/
def Obligations.TableReadback : Prop :=
  ∀ s : State,
    let c := s.cfg.raw
    let tables := [c.rcFull, c.mdsCirc, c.mdsDiag, c.fpFirstRc, c.fpInitMatrix, c.fpRc, c.fpVs, c.fpWhats]
    let table := s.tblIndex.toNat / 2 ^ 16
    let index := s.tblIndex.toNat % 2 ^ 16
    (∀ (entries : List Word) (v : Word), tables[table]? = some entries → entries[index]? = some v →
      hostAccess (.read 0x080 8) s = .next { s with resp := some (.readDone v false) }) ∧
    ((8 ≤ table ∨ ∃ entries, tables[table]? = some entries ∧ entries.length ≤ index) →
      hostAccess (.read 0x080 8) s = .next (respond (.readDone 0 false) (recordError .table s))) ∧
    ∀ w : Word, hostAccess (.write 0x080 8 w) s = .next (respond (.writeDone true) (recordError .access s))

/-- 10 R52, 20 R77, 40 R151: what a write by the Host stores while the block is idle: FA, FB and STATE[i] take any word
unchanged, STATE[i] also clears DIGEST_VALID (10 R38), and TBL_INDEX refuses its reserved bits. -/
def Obligations.IdleWritesStoreTheWord : Prop :=
  ∀ (s : State) (v : Word), s.pending = none →
    hostAccess (.write 0x040 8 v) s = .next { s with fa := v, resp := some (.writeDone false) } ∧
    hostAccess (.write 0x048 8 v) s = .next { s with fb := v, resp := some (.writeDone false) } ∧
    (∀ i : Fin 12, hostAccess (.write (BitVec.ofNat 12 (0x100 + 8 * i.val)) 8 v) s =
      .next { s with elems := s.elems.set i.val v, digestValid := false, resp := some (.writeDone false) }) ∧
    (v.toNat < 2 ^ 20 → hostAccess (.write 0x078 8 v) s =
      .next { s with tblIndex := v.setWidth 20, resp := some (.writeDone false) }) ∧
    (2 ^ 20 ≤ v.toNat → hostAccess (.write 0x078 8 v) s =
      .next (respond (.writeDone true) (recordError .access s)))

/-- 10 R31, R46, R52: who writes FA, FB, FR, IRQ_EN and TBL_INDEX, and that no step writes the table memory and the rest
of the build. -/
def Obligations.RegistersHaveTheirWritersOnly : Prop :=
  ∀ s t : State, step s = .next t →
    (t.fa ≠ s.fa → s.hostWrites 0x040 t.fa ∨ s.resetMoves) ∧
    (t.fb ≠ s.fb → s.hostWrites 0x048 t.fb ∨ s.resetMoves) ∧
    (t.fr ≠ s.fr → (∃ op a b, s.pending = some (.field op a b) ∧ s.coreMoves) ∨ s.resetMoves) ∧
    (t.irqEn ≠ s.irqEn → (∃ v, s.hostWrites 0x028 v) ∨ s.resetMoves) ∧
    (t.tblIndex ≠ s.tblIndex → (∃ v, s.hostWrites 0x078 v) ∨ s.resetMoves) ∧
    t.cfg = s.cfg

/-- 10 R38–R43, R54, R55: who sets and clears DIGEST_VALID, SQUEEZED and EQ, and who writes STAGE, STATE, ABS_POS,
BYTE_POS and BYTE_ACC. (That the completion of a chunk's permutation clears DIGEST_VALID is 10 R38 and not in 42 R232:
log 10.) -/
def Obligations.StatusBitsHaveTheirWritersOnly : Prop :=
  ∀ s t : State, step s = .next t →
    let completes (op : Pending) : Prop := s.pending = some op ∧ s.coreMoves
    let permutes : Prop := ∃ S, completes (.perm S) ∨ completes (.chunkPerm S) ∨ ∃ n, completes (.pstep S n)
    let squeezes : Prop := ∃ S n, completes (.sfinal S n)
    let elemWritten : Prop :=
      s.pending = none ∧ ∃ (i : Fin 12) (v : Word), s.hostWrites (BitVec.ofNat 12 (0x100 + 8 * i.val)) v
    (s.digestValid = false → t.digestValid = true → squeezes) ∧
    (s.digestValid = true → t.digestValid = false →
      permutes ∨ completes .sinit ∨ elemWritten ∨ s.absorbsElement ∨ s.resetMoves) ∧
    (∀ op, completes op → t.digestValid = match op with
      | .sfinal _ _ => true
      | .perm _ | .pstep _ _ | .chunkPerm _ | .sinit => false
      | .nop | .field _ _ _ => s.digestValid) ∧
    (elemWritten ∨ s.absorbsElement → t.digestValid = false) ∧
    (s.squeezed = false → t.squeezed = true → squeezes) ∧
    (s.squeezed = true → t.squeezed = false → completes .sinit ∨ s.resetMoves) ∧
    (t.eq ≠ s.eq → (∃ a b, completes (.field .feq a b)) ∨ s.resetMoves) ∧
    (t.stage ≠ s.stage → (∃ S n, completes (.pstep S n)) ∨ completes .sinit ∨ s.resetMoves) ∧
    (t.elems ≠ s.elems →
      permutes ∨ (∃ S, completes (.sfinal S true)) ∨ completes .sinit ∨ elemWritten ∨ s.absorbsElement ∨ s.resetMoves) ∧
    (t.elems ≠ s.elems → t.digestValid = true → squeezes) ∧
    (t.absPos ≠ s.absPos → s.absorbsElement ∨ squeezes ∨ completes .sinit ∨ s.resetMoves) ∧
    (t.bytePos ≠ s.bytePos ∨ t.byteAcc ≠ s.byteAcc →
      (s.pending = none ∧ ∃ v, s.hostWrites 0x070 v) ∨ completes .sinit ∨ s.resetMoves)

/-- 10 R49, R50: PERM_CNT at every completion and at every other step; ABS_CNT is one more after every step that absorbs an
element, 0 after SINIT, and moves at no other step but reset. -/
def Obligations.CountersCountWhatTheyName : Prop :=
  ∀ s t : State, step s = .next t →
    (∀ op, s.pending = some op → s.coreMoves → t.permCnt = match op with
      | .perm _ | .chunkPerm _ | .sfinal _ true => s.permCnt + 1
      | .pstep _ n => if n.toNat + 1 = s.nstage then s.permCnt + 1 else s.permCnt
      | .sinit => 0
      | .nop | .field _ _ _ | .sfinal _ false => s.permCnt) ∧
    ((s.pending = none ∨ ¬ s.coreMoves) → ¬ s.resetMoves → t.permCnt = s.permCnt) ∧
    (s.absorbsElement → t.absCnt = s.absCnt + 1) ∧
    (s.pending = some .sinit → s.coreMoves → t.absCnt = 0) ∧
    (¬ s.absorbsElement → ¬ (s.pending = some .sinit ∧ s.coreMoves) → ¬ s.resetMoves → t.absCnt = s.absCnt) ∧
    (t.absCnt ≠ s.absCnt →
      (t.absCnt = s.absCnt + 1 ∧ ∃ v, s.hostWrites 0x068 v ∨ s.hostWrites 0x070 v) ∨
      (t.absCnt = 0 ∧ ((s.pending = some .sinit ∧ s.coreMoves) ∨ s.resetMoves)))

/-! ### The system and field commands -/

/-- 60 R291: NOP is accepted, and its completion sets EVENT.DONE and changes nothing else. -/
def Obligations.NopOnlySetsDone : Prop :=
  issuedBy .nop 0x010 0x00 ∧
  ∀ s : State, s.pending = none →
    exec .nop s = .next { s with pending := some .nop, resp := some (.writeDone false) } ∧
    settle .nop s = .next { s with event := s.event ||| 1, resp := some (.writeDone false) }

/-- 40 R138: the protocol of the nine field commands: FA and FB are sampled at acceptance (FADDC and FSUBC note PRECOND
there when FB ≥ p, R145, R146); at completion FR takes the result of the sampled words, for FEQ also STATUS.EQ, and nothing
else changes but EVENT.DONE. -/
def Obligations.FieldCommandsWriteTheirResult : Prop :=
  (issuedBy .fmul 0x010 0x01 ∧ issuedBy .fsqr 0x010 0x02 ∧ issuedBy .fadd 0x010 0x03 ∧ issuedBy .fsub 0x010 0x04 ∧
    issuedBy .fneg 0x010 0x05 ∧ issuedBy .fcan 0x010 0x06 ∧ issuedBy .faddc 0x010 0x07 ∧ issuedBy .fsubc 0x010 0x08 ∧
    issuedBy .feq 0x010 0x09) ∧
  (∀ s : State, s.pending = none →
    let accepted (op : FieldOp) (t : State) : Outcome :=
      .next { t with pending := some (.field op s.fa s.fb), resp := some (.writeDone false) }
    let noted : State := if fieldOrder ≤ s.fb.toNat then recordError .precond s else s
    exec .fmul s = accepted .fmul s ∧ exec .fsqr s = accepted .fsqr s ∧ exec .fadd s = accepted .fadd s ∧
    exec .fsub s = accepted .fsub s ∧ exec .fneg s = accepted .fneg s ∧ exec .fcan s = accepted .fcan s ∧
    exec .faddc s = accepted .faddc noted ∧ exec .fsubc s = accepted .fsubc noted ∧ exec .feq s = accepted .feq s) ∧
  (∀ (u : State) (a b : Word),
    let completed (op : FieldOp) (r : Word) : Prop :=
      u.pending = some (.field op a b) → coreStep u = { u with fr := r, pending := none, event := u.event ||| 1 }
    completed .fmul (fmul a b) ∧ completed .fsqr (fmul a a) ∧ completed .fadd (fadd a b) ∧
    completed .fsub (fsub a b) ∧ completed .fneg (fneg a) ∧ completed .fcan (canon a) ∧
    completed .faddc (faddc a b) ∧ completed .fsubc (fsubc a b) ∧
    (u.pending = some (.field .feq a b) → coreStep u = { u with
      fr := if canon a = canon b then 1 else 0, eq := decide (canon a = canon b), pending := none,
      event := u.event ||| 1 }))

/-- 40 R145, R146: FADDC and FSUBC run on every FB; PRECOND is noted at acceptance exactly when FB ≥ p, and the result is
the single-correction formula with 64-bit wrap, which for FB < p is what FADD and FSUB give. -/
def Obligations.UncheckedCommandsNotePrecond : Prop :=
  (issuedBy .faddc 0x010 0x07 ∧ issuedBy .fsubc 0x010 0x08) ∧
  (∀ s : State, s.pending = none →
    let noted : State := if fieldOrder ≤ s.fb.toNat then recordError .precond s else s
    exec .faddc s = .next { noted with pending := some (.field .faddc s.fa s.fb), resp := some (.writeDone false) } ∧
    exec .fsubc s = .next { noted with pending := some (.field .fsubc s.fa s.fb), resp := some (.writeDone false) }) ∧
  (∀ (u : State) (a b : Word),
    (u.pending = some (.field .faddc a b) → coreStep u = { u with
      fr := if 2 ^ 64 ≤ a.toNat + b.toNat then a + b + 0xFFFFFFFF else a + b, pending := none,
      event := u.event ||| 1 }) ∧
    (u.pending = some (.field .fsubc a b) → coreStep u = { u with
      fr := if a.toNat < b.toNat then a - b - 0xFFFFFFFF else a - b, pending := none, event := u.event ||| 1 })) ∧
  (∀ a b : Word, b.toNat < fieldOrder → faddc a b = addNc a b ∧ faddc a b = fadd a b ∧ fsubc a b = fsub a b)

/-! ### Field arithmetic -/

/-- 40 R131, R150: canon gives the residue, is idempotent and leaves canonical words alone. -/
def Obligations.CanonIsTheResidue : Prop :=
  ∀ x : Word, (canon x).toNat = x.toNat % fieldOrder ∧ canon (canon x) = canon x ∧
    (x.toNat < fieldOrder → canon x = x)

/-- 40 R132: the raw word fadd returns: a + b less one p for each of the at most two wraparounds; and it commutes. -/
def Obligations.FaddRawWord : Prop :=
  ∀ a b : Word,
    (fadd a b).toNat =
      (if a.toNat + b.toNat < 2 ^ 64 then a.toNat + b.toNat
       else if a.toNat + b.toNat - fieldOrder < 2 ^ 64 then a.toNat + b.toNat - fieldOrder
       else a.toNat + b.toNat - 2 * fieldOrder) ∧
    fadd a b = fadd b a

/-- 40 R133: the raw word fsub returns: a − b plus one p for each of the at most two borrows. -/
def Obligations.FsubRawWord : Prop :=
  ∀ a b : Word,
    ((fsub a b).toNat : Int) =
      (if b.toNat ≤ a.toNat then (a.toNat : Int) - b.toNat
       else if b.toNat ≤ a.toNat + fieldOrder then (a.toNat : Int) - b.toNat + fieldOrder
       else (a.toNat : Int) - b.toNat + 2 * fieldOrder)

/-- 40 R135: the raw word of the 128-bit reduction: x_lo − x_hi_hi + x_hi_lo·ε, plus one p on the borrow, less one p on the
final carry; and it is congruent to x. 40 R139, R140: the raw words of fmul and fsqr are the reductions of the exact
products. -/
def Obligations.ReductionRawWord : Prop :=
  (∀ x : BitVec 128,
    let xLo : Int := x.toNat % 2 ^ 64
    let xHiHi : Int := x.toNat / 2 ^ 96
    let xHiLo : Int := x.toNat / 2 ^ 64 % 2 ^ 32
    let t : Int := xLo - xHiHi + (if xLo < xHiHi then (fieldOrder : Int) else 0) + xHiLo * (2 ^ 32 - 1)
    ((reduce128 x).toNat : Int) = (if t < 2 ^ 64 then t else t - fieldOrder) ∧
    (reduce128 x).toNat % fieldOrder = x.toNat % fieldOrder) ∧
  (∀ a b : Word,
    fmul a b = reduce128 (BitVec.ofNat 128 (a.toNat * b.toNat)) ∧ fmul a b = fmul b a ∧
    fsqr a = reduce128 (BitVec.ofNat 128 (a.toNat * a.toNat)) ∧ fsqr a = fmul a a)

/-- 40 R136, R137: the reductions of the wide sums are congruent to their inputs. -/
def Obligations.WideReductionsAreCongruent : Prop :=
  (∀ (xLo : Word) (xHi : BitVec 32),
    (reduce96 xLo xHi).toNat % fieldOrder = (xHi.toNat * 2 ^ 64 + xLo.toNat) % fieldOrder) ∧
  (∀ n : BitVec 160, (reduce160 n).toNat % fieldOrder = n.toNat % fieldOrder)

/-- 40 R148: the congruence of every operation, on all raw words. -/
def Obligations.ArithmeticIsCongruent : Prop :=
  ∀ a b : Word,
    (canon (fadd a b)).toNat = (a.toNat + b.toNat) % fieldOrder ∧
    ((canon (fsub a b)).toNat : Int) = ((a.toNat : Int) - b.toNat) % fieldOrder ∧
    (canon (fmul a b)).toNat = a.toNat * b.toNat % fieldOrder ∧
    (canon (fsqr a)).toNat = a.toNat ^ 2 % fieldOrder ∧
    ((canon (fneg a)).toNat : Int) = (-(a.toNat : Int)) % fieldOrder ∧
    (b.toNat < fieldOrder →
      (canon (faddc a b)).toNat = (a.toNat + b.toNat) % fieldOrder ∧
      ((canon (fsubc a b)).toNat : Int) = ((a.toNat : Int) - b.toNat) % fieldOrder)

/-- 40 R149: the field ring axioms, under feq and on all raw words; as raw words a sum may differ, as p − 1 + 1 = p does. -/
def Obligations.RingLawsHoldUnderFeq : Prop :=
  (∀ a b c : Word,
    feq (fadd a (fadd b c)) (fadd (fadd a b) c) = true ∧ feq (fadd a 0) a = true ∧ feq (fadd a (fneg a)) 0 = true ∧
    feq (fmul a (fmul b c)) (fmul (fmul a b) c) = true ∧ feq (fmul a 1) a = true ∧
    feq (fmul a (fadd b c)) (fadd (fmul a b) (fmul a c)) = true ∧ fsqr a = fmul a a) ∧
  fadd 0xFFFFFFFF00000000 1 = 0xFFFFFFFF00000001

/-- 40 R143: negation: zero, canonically, maps to zero, and any other word to p − canon. -/
def Obligations.NegationIsCanonical : Prop :=
  ∀ a : Word,
    ((fneg a).toNat = if a.toNat % fieldOrder = 0 then 0 else fieldOrder - a.toNat % fieldOrder) ∧
    (fneg a).toNat < fieldOrder

/-! ### The permutation -/

/-- 41 R185: the S-box: x^7, canonically, and its raw word by the rule's order of operations. -/
def Obligations.SboxIsTheSeventhPower : Prop :=
  ∀ x : Word, (canon (sbox x)).toNat = x.toNat ^ 7 % fieldOrder ∧
    sbox x = fmul (fmul x (fsqr x)) (fsqr (fsqr x))

/-- 41 R186: each output of the full MDS layer is its exact row sum, below 2^96 for every build, reduced once; canonically
it is the sum modulo p. -/
def Obligations.MdsIsTheRowSum : Prop :=
  ∀ (c : ValidConfig) (S : Elems) (i : Fin 12),
    let T : Nat := (∑ k : Fin 12, S[(k.val + i.val) % 12].toNat * (tbl c.raw .mdsCirc k.val).toNat)
      + S[i].toNat * (tbl c.raw .mdsDiag i.val).toNat
    T < 2 ^ 96 ∧ (mds c.raw S)[i] = reduce96 (BitVec.ofNat 64 T) (BitVec.ofNat 32 (T / 2 ^ 64)) ∧
    (canon (mds c.raw S)[i]).toNat = T % fieldOrder

/-- 41 R189: the initial transform of the partial rounds, with the output index as the column: canonically the matrix
product, and raw accumulated from 0 with fadd and fmul in increasing row order. -/
def Obligations.PartialInitIsTheMatrixProduct : Prop :=
  ∀ (c : Config) (S : Elems),
    (partialInit c S)[0] = S[0] ∧
    ∀ col : Fin 11,
      (canon (partialInit c S)[col.succ]).toNat =
        (∑ row : Fin 11, S[row.succ].toNat * (tbl c .fpInitMatrix (11 * row.val + col.val)).toNat) % fieldOrder ∧
      (partialInit c S)[col.succ] = (List.finRange 11).foldl (fun (acc : Word) (row : Fin 11) =>
        fadd acc (fmul S[row.succ] (tbl c .fpInitMatrix (11 * row.val + col.val)))) 0

/-- 41 R190: the fast layer, raw and canonically; c[0] + d[0] is below 2^64 and the sum of output 0 below 2^132 for every
build. -/
def Obligations.FastLayerIsTheSums : Prop :=
  ∀ (c : ValidConfig) (r : Nat) (S : Elems),
    let T : Nat := (∑ i : Fin 11, S[i.succ].toNat * (tbl c.raw .fpWhats (11 * r + i.val)).toNat)
      + S[0].toNat * ((tbl c.raw .mdsCirc 0).toNat + (tbl c.raw .mdsDiag 0).toNat)
    (tbl c.raw .mdsCirc 0).toNat + (tbl c.raw .mdsDiag 0).toNat < 2 ^ 64 ∧
    T < 2 ^ 132 ∧ (fastLayer c.raw r S)[0] = reduce160 (BitVec.ofNat 160 T) ∧
    (canon (fastLayer c.raw r S)[0]).toNat = T % fieldOrder ∧
    ∀ i : Fin 11,
      (fastLayer c.raw r S)[i.succ] = fadd S[i.succ] (fmul S[0] (tbl c.raw .fpVs (11 * r + i.val))) ∧
      (canon (fastLayer c.raw r S)[i.succ]).toNat =
        (S[i.succ].toNat + S[0].toNat * (tbl c.raw .fpVs (11 * r + i.val)).toNat) % fieldOrder

/-- 41 R180, R183: the round sequence: HF full rounds with rc = 0 .. HF−1, the transition, PR partial rounds, HF full rounds
with rc = HF+PR .. 2·HF+PR−1. 41 R184, R187, R188, R191: what a full round, the first partial constants and a partial round
are, with the place of each constant in its table. 41 R182: the table of stages that PSTEP runs. -/
def Obligations.PermutationIsTheRoundSequence : Prop :=
  (∀ (c : Config) (S : Elems),
    let first := (List.range c.halfFullRounds).foldl (fun T rc => fullRound c rc T) S
    let middle := (List.range c.partialRounds).foldl (fun T r => partialRound c r T)
      (partialInit c (partialFirstConstants c first))
    poseidon c S =
      (List.range c.halfFullRounds).foldl (fun T k => fullRound c (c.halfFullRounds + c.partialRounds + k) T) middle) ∧
  (∀ (c : Config) (rc r : Nat) (S : Elems),
    (∀ i : Fin 12, (constantLayer c rc S)[i] = fadd S[i] (tbl c .rcFull (12 * rc + i.val))) ∧
    fullRound c rc S = mds c (Vector.ofFn fun i : Fin 12 => sbox (constantLayer c rc S)[i]) ∧
    (∀ i : Fin 12, (partialFirstConstants c S)[i] = fadd S[i] (tbl c .fpFirstRc i.val)) ∧
    partialRound c r S = fastLayer c r
      (S.set 0 (if r < c.partialRounds - 1 then fadd (sbox S[0]) (tbl c .fpRc r) else sbox S[0]))) ∧
  (∀ (c : Config) (s : Nat) (S : Elems),
    (s < c.halfFullRounds → stage c s S = fullRound c s S) ∧
    (s = c.halfFullRounds → stage c s S = partialInit c (partialFirstConstants c S)) ∧
    (c.halfFullRounds + 1 ≤ s → s < c.halfFullRounds + 1 + c.partialRounds →
      stage c s S = partialRound c (s - c.halfFullRounds - 1) S) ∧
    (c.halfFullRounds + 1 + c.partialRounds ≤ s → s < c.nstage → stage c s S = fullRound c (s - 1) S)) ∧
  (∀ (c : Config) (t : Table) (k : Nat) (v : Word), (c.entries t)[k]? = some v → tbl c t k = v)

/-- 41 R198: inputs with equal canonical forms give outputs with equal canonical forms, through the whole permutation, for
every build. -/
def Obligations.PermutationIsCanonicallyDetermined : Prop :=
  ∀ (c : ValidConfig) (S T : Elems), canonEq S T → canonEq (poseidon c.raw S) (poseidon c.raw T)

/-- 41 R194: PERM. -/
def Obligations.PermRunsTheWholePermutation : Prop :=
  issuedBy .perm 0x010 0x10 ∧
  (∀ s : State, s.pending = none → s.stage = 0 →
    exec .perm s = .next { s with pending := some (.perm s.elems), resp := some (.writeDone false) }) ∧
  (∀ s : State, s.pending = none → s.stage ≠ 0 →
    exec .perm s = .next (respond (.writeDone false) (recordError .seq s))) ∧
  (∀ (u : State) (S : Elems), u.pending = some (.perm S) →
    coreStep u = { u with
      elems := poseidon u.cfg.raw S, permCnt := u.permCnt + 1, digestValid := false, pending := none,
      event := u.event ||| 1 })

/-- 41 R195: PSTEP runs one stage, and NSTAGE of them from STAGE = 0 leave exactly what one PERM leaves. -/
def Obligations.PstepRunsOneStage : Prop :=
  issuedBy .pstep 0x010 0x11 ∧
  (∀ s : State, s.pending = none →
    exec .pstep s = .next { s with pending := some (.pstep s.elems s.stage), resp := some (.writeDone false) }) ∧
  (∀ (u : State) (S : Elems) (n : BitVec 8), u.pending = some (.pstep S n) →
    coreStep u = { u with
      elems       := stage u.cfg.raw n.toNat S
      stage       := if n.toNat + 1 = u.nstage then 0 else n + 1
      permCnt     := if n.toNat + 1 = u.nstage then u.permCnt + 1 else u.permCnt
      digestValid := false
      pending     := none
      event       := u.event ||| 1 }) ∧
  (∀ s : State, s.pending = none → s.stage = 0 → settleTimes .pstep s.nstage s = settle .perm s)

/-! ### The sponge -/

/-- 42 R231, 70 R322: SINIT is accepted in every idle state; it leaves the sponge as reset does, and FA, FB, FR, EQ,
IRQ_EN, ERR, ERRCODE, TBL_INDEX and EVENT.ERROR as they were. -/
def Obligations.SinitStartsAFreshSponge : Prop :=
  issuedBy .sinit 0x010 0x20 ∧
  (∀ s : State, s.pending = none →
    exec .sinit s = .next { s with pending := some .sinit, resp := some (.writeDone false) }) ∧
  (∀ u : State, u.pending = some .sinit →
    coreStep u = { State.reset with
      fa := u.fa, fb := u.fb, fr := u.fr, eq := u.eq, irqEn := u.irqEn, err := u.err, errcode := u.errcode,
      tblIndex := u.tblIndex, event := u.event ||| 1, cfg := u.cfg, draws := u.draws, schedule := u.schedule,
      resp := u.resp, inReset := u.inReset })

/-- 42 R232, R233, R234: IN_WORD: the word overwrites STATE[ABS_POS] raw; one of p or more is noted as NONCANON; the
eighth of a chunk starts the permutation of the state it completes. (While
that permutation is in flight DIGEST_VALID is 0, in every state that meets the invariant below.) -/
def Obligations.InWordAbsorbsOneElement : Prop :=
  (∀ w : Word, issuedBy (.inWord w) 0x068 w) ∧
  (∀ (s : State) (w : Word), s.pending = none → (s.stage ≠ 0 ∨ s.squeezed = true ∨ s.bytePos ≠ 0) →
    exec (.inWord w) s = .next (respond (.writeDone false) (recordError .seq s))) ∧
  (∀ (s : State) (w : Word), s.pending = none → s.stage = 0 → s.squeezed = false → s.bytePos = 0 →
    let noted : State := if fieldOrder ≤ w.toNat then recordError .noncanon s else s
    let loaded : Elems := Vector.ofFn fun i : Fin 12 => if i.val = s.absPos.toNat then w else s.elems[i]
    exec (.inWord w) s = .next { noted with
      elems       := loaded
      absCnt      := s.absCnt + 1
      digestValid := false
      absPos      := s.absPos + 1
      pending     := if s.absPos = 7 then some (.chunkPerm loaded) else none
      resp        := some (.writeDone false) }) ∧
  (∀ (u : State) (S : Elems), u.pending = some (.chunkPerm S) → u.digestValid = false →
    coreStep u = { u with
      elems := poseidon u.cfg.raw S, permCnt := u.permCnt + 1, pending := none, event := u.event ||| 1 })

/-- 42 R235: IN_BYTE before the eighth byte of a group: the byte joins BYTE_ACC and nothing else changes; on the eighth the
group is absorbed exactly as IN_WORD absorbs its word; and what is refused. -/
def Obligations.InByteCollectsAGroup : Prop :=
  (∀ b : Byte, issuedBy (.inByte (b.setWidth 64)) 0x070 (b.setWidth 64)) ∧
  (∀ (s : State) (v : Word), s.pending = none → v >>> 8 ≠ 0 →
    hostAccess (.write 0x070 8 v) s = .next (respond (.writeDone true) (recordError .access s))) ∧
  (∀ (s : State) (b : Byte), s.pending = none → (s.stage ≠ 0 ∨ s.squeezed = true) →
    exec (.inByte (b.setWidth 64)) s = .next (respond (.writeDone false) (recordError .seq s))) ∧
  ∀ (s : State) (b : Byte), s.pending = none → s.stage = 0 → s.squeezed = false →
    (s.bytePos ≠ 7 → exec (.inByte (b.setWidth 64)) s = .next { s with
      byteAcc := (s.byteAcc <<< 8) ||| b.setWidth 56, bytePos := s.bytePos + 1, resp := some (.writeDone false) }) ∧
    (s.bytePos = 7 → exec (.inByte (b.setWidth 64)) s =
      exec (.inWord ((s.byteAcc.setWidth 64 <<< 8) ||| b.setWidth 64)) { s with byteAcc := 0, bytePos := 0 })

/-- 42 R240: eight bytes written in order from a group boundary absorb their big-endian word, exactly as one IN_WORD. -/
def Obligations.EightBytesAreOneWord : Prop :=
  ∀ (s : State) (bs : Vector Byte 8), s.pending = none → s.stage = 0 → s.squeezed = false → s.bytePos = 0 →
    s.byteAcc = 0 →
    issueAll (bs.toList.map fun b => .inByte (b.setWidth 64)) s =
      exec (.inWord (BitVec.ofNat 64 (∑ j : Fin 8, bs[j].toNat * 2 ^ (8 * (7 - j.val))))) s

/-- 42 R236, R286, 41 R194, 70 R334: which operations the sequencer and the sponge refuse, with which error, and that they
have no other effect. -/
def Obligations.SequencingIsRefused : Prop :=
  ∀ s : State, s.pending = none →
    (s.stage ≠ 0 → ∀ i : Instr, (i = .perm ∨ i = .sfinal ∨ (∃ w, i = .inWord w) ∨ ∃ v, i = .inByte v ∧ v.toNat < 256) →
      exec i s = .next (respond (.writeDone false) (recordError .seq s))) ∧
    (s.squeezed = true → ∀ i : Instr, (i = .sfinal ∨ (∃ w, i = .inWord w) ∨ ∃ v, i = .inByte v ∧ v.toNat < 256) →
      exec i s = .next (respond (.writeDone false) (recordError .seq s))) ∧
    (s.bytePos ≠ 0 → ∀ w, exec (.inWord w) s = .next (respond (.writeDone false) (recordError .seq s))) ∧
    (s.stage = 0 → s.squeezed = false → s.bytePos ≠ 0 →
      exec .sfinal s = .next (respond (.writeDone false) (recordError .len s)))

/-- 42 R238: SFINAL: what it refuses, when it permutes, and what it leaves. -/
def Obligations.SfinalSqueezesTheDigest : Prop :=
  issuedBy .sfinal 0x010 0x21 ∧
  (∀ s : State, s.pending = none → (s.stage ≠ 0 ∨ s.squeezed = true) →
    exec .sfinal s = .next (respond (.writeDone false) (recordError .seq s))) ∧
  (∀ s : State, s.pending = none → s.stage = 0 → s.squeezed = false → s.bytePos ≠ 0 →
    exec .sfinal s = .next (respond (.writeDone false) (recordError .len s))) ∧
  (∀ s : State, s.pending = none → s.stage = 0 → s.squeezed = false → s.bytePos = 0 →
    exec .sfinal s = .next { s with
      pending := some (.sfinal s.elems (decide (s.absPos ≠ 0 ∨ s.absCnt = 0))), resp := some (.writeDone false) }) ∧
  (∀ (u : State) (S : Elems), u.pending = some (.sfinal S true) →
    coreStep u = { u with
      elems := poseidon u.cfg.raw S, permCnt := u.permCnt + 1, absPos := 0, squeezed := true, digestValid := true,
      pending := none, event := u.event ||| 1 }) ∧
  (∀ (u : State) (S : Elems), u.pending = some (.sfinal S false) →
    coreStep u = { u with
      absPos := 0, squeezed := true, digestValid := true, pending := none, event := u.event ||| 1 })

/-- 42 R241: the digest bytes, word by word big-endian; grouping them again gives the four digest words. -/
def Obligations.DigestBytesAreBigEndian : Prop :=
  ∀ S : Elems,
    (∀ (j : Fin 4) (t : Fin 8),
      (digestBytes S)[8 * j.val + t.val]? = some (S[j.val].extractLsb' (56 - 8 * t.val) 8)) ∧
    (digestBytes S).length = 32 ∧ groupWords (digestBytes S) = [S[0], S[1], S[2], S[3]]

/-- 42 R242: the host sequence SINIT, absorb every word, SFINAL, each followed by `wait` with any number of polls, from any
idle state and whatever is scheduled after it, computes the source's hash of any words fewer than 2^64 (93 I14), with the
counts of R242. (`wait` as a list of turns is the model's, log 1.) -/
def Obligations.HostSequenceComputesTheHash : Prop :=
  ∀ (s : State) (ws : List Word) (polls : Nat) (rest : List Turn), s.Idle → ws.length < 2 ^ 64 →
    s.schedule = Asm.hash polls ws ++ rest →
    ∃ t : State, Host.Core.run Sys2Proof.core (Asm.hash polls ws).length s = .next t ∧
      t.pending = none ∧ t.schedule = rest ∧ t.elems = hashState s.cfg.raw ws ∧
      t.permCnt.toNat = max 1 ((ws.length + 7) / 8) ∧ t.absCnt.toNat = ws.length ∧
      t.digestValid = true ∧ t.squeezed = true ∧ ((∀ w ∈ ws, w.toNat < fieldOrder) → t.err = s.err)

/-- 42 R244, with R242 for the digest of absorbed words: words equal modulo p, position by position, give digests equal under
feq, for every build. -/
def Obligations.DigestIsCanonicallyDetermined : Prop :=
  ∀ (c : ValidConfig) (ws vs : List Word),
    List.Forall₂ (fun w v => w.toNat % fieldOrder = v.toNat % fieldOrder) ws vs →
    ∀ j : Fin 4, feq (hashState c.raw ws)[j.val] (hashState c.raw vs)[j.val] = true

/-! ### The invariant -/

/-- The invariant holds after reset. -/
def Obligations.InvariantHoldsAtReset : Prop := State.reset.Inv

/-- Every step keeps the invariant: 10 R43, R48, R55, R56, R41 with R49, 42 R238. -/
def Obligations.EveryStepKeepsTheInvariant : Prop :=
  ∀ s t : State, s.Inv → step s = .next t → t.Inv
end

