-- ==== Sys2Proof/Laws/Arith.lean ====
section
/-! SUPPORT. What the arithmetic functions are as natural numbers. Each correction by ε takes or gives one p. -/

namespace Sys2Proof.Machine

theorem fieldOrder_val : fieldOrder = 18446744069414584321 := rfl

theorem pWord_toNat : pWord.toNat = 18446744069414584321 := rfl

@[simp] theorem epsilon_toNat : epsilon.toNat = 4294967295 := rfl

theorem epsIf_toNat (c : Bool) : (epsIf c).toNat = if c then 4294967295 else 0 := by cases c <;> rfl

theorem carry64_iff (a b : Word) : carry64 a b = true ↔ 2 ^ 64 ≤ a.toNat + b.toNat := by simp [carry64]

theorem borrow64_iff (a b : Word) : borrow64 a b = true ↔ a.toNat < b.toNat := by simp [borrow64]

/-- A carry takes one 2^64 out of the sum and puts ε back, which is one p less (40 R134). -/
theorem addNc_toNat (x y : Word) (h : x.toNat + y.toNat < 2 ^ 64 + fieldOrder) :
    (addNc x y).toNat = if 2 ^ 64 ≤ x.toNat + y.toNat then x.toNat + y.toNat - fieldOrder else x.toNat + y.toNat := by
  have hp := fieldOrder_val
  simp only [addNc, BitVec.toNat_add, epsIf_toNat, carry64_iff]
  split <;> omega

/-- One correction keeps the residue (40 R134). -/
theorem addNc_mod (x y : Word) (h : x.toNat + y.toNat < 2 ^ 64 + fieldOrder) :
    (addNc x y).toNat % fieldOrder = (x.toNat + y.toNat) % fieldOrder := by
  have hp := fieldOrder_val
  rw [addNc_toNat x y h]
  split
  · exact (Nat.mod_eq_sub_mod (by omega)).symm
  · rfl

/-- The product of two words is exact (40 R139). -/
theorem product_toNat (a b : Word) : (product a b).toNat = a.toNat * b.toNat := by
  have ha := a.isLt
  have hb := b.isLt
  have h : a.toNat * b.toNat < 2 ^ 128 := by nlinarith
  rw [product, BitVec.toNat_mul, BitVec.toNat_setWidth, BitVec.toNat_setWidth, Nat.mod_eq_of_lt (a := a.toNat) (by omega),
    Nat.mod_eq_of_lt (a := b.toNat) (by omega), Nat.mod_eq_of_lt h]

/-- A 32-bit value times ε fits in a word (40 R135, R136). -/
theorem epsilon_mul_toNat (x : BitVec 32) : (epsilon * x.setWidth 64 : Word).toNat = x.toNat * 4294967295 := by
  have h := x.isLt
  rw [BitVec.toNat_mul, epsilon_toNat, BitVec.toNat_setWidth]
  omega

end Sys2Proof.Machine
end

