-- ==== Sys2Proof/Laws/Decode.lean ====
section
/-! SUPPORT. The byte lanes carry a word without loss (20_memory.md R79), and the lookups of the decoder. -/

namespace Sys2Proof

@[simp] theorem lanesOfWord_length (v : Word) : (lanesOfWord v).length = 8 := by simp [lanesOfWord]

/-- The eight lanes, written out. -/
theorem lanesOfWord_eq (v : Word) : lanesOfWord v =
    [v.setWidth 8, (v >>> 8).setWidth 8, (v >>> 16).setWidth 8, (v >>> 24).setWidth 8,
     (v >>> 32).setWidth 8, (v >>> 40).setWidth 8, (v >>> 48).setWidth 8, (v >>> 56).setWidth 8] := rfl

@[simp] theorem wordOfLanes_lanesOfWord (v : Word) : wordOfLanes (lanesOfWord v) = v := by
  rw [lanesOfWord_eq]
  ext i hi
  simp [wordOfLanes]
  interval_cases i <;> simp

theorem lane_zero (b : Byte) (w : Word) : (b.setWidth 64 ||| w <<< 8).setWidth 8 = b := by
  ext i hi
  simp

theorem lane_succ (b : Byte) (w : Word) (k : Nat) (hk : k ≤ 48) :
    ((b.setWidth 64 ||| w <<< 8) >>> (k + 8)).setWidth 8 = (w >>> k).setWidth 8 := by
  ext i hi
  have h1 : k + 8 + i < 64 := by omega
  have h2 : ¬ k + 8 + i < 8 := by omega
  have h3 : k + 8 + i - 8 = k + i := by omega
  have h4 : BitVec.getLsbD b (k + 8 + i) = false := BitVec.getLsbD_of_ge _ _ (by omega)
  have h5 : k + i < 64 := by omega
  simp [h1, h2, h3, h4, h5]

theorem lanesOfWord_wordOfLanes (l : List Byte) (h : l.length = 8) : lanesOfWord (wordOfLanes l) = l := by
  match l, h with
  | [b0, b1, b2, b3, b4, b5, b6, b7], _ =>
    simp only [lanesOfWord_eq, wordOfLanes, lane_zero, lane_succ _ _ 0 (by omega), lane_succ _ _ 8 (by omega),
      lane_succ _ _ 16 (by omega), lane_succ _ _ 24 (by omega), lane_succ _ _ 32 (by omega),
      lane_succ _ _ 40 (by omega), lane_succ _ _ 48 (by omega), BitVec.ushiftRight_zero]

/-- The lanes of a word decode as the word does. -/
@[simp] theorem decodeLanes_lanesOfWord (off : Offset) (v : Word) : decodeLanes off (lanesOfWord v) = decodeWrite off v := by
  simp [decodeLanes]

theorem tableLookup_mem {α : Type} {k : Nat} {l : List (Nat × α)} {a : α} (h : tableLookup k l = some a) :
    (k, a) ∈ l := by
  induction l with
  | nil => simp [tableLookup] at h
  | cons p rest ih =>
    obtain ⟨k', a'⟩ := p
    by_cases hk : k = k'
    · simp_all [tableLookup]
    · simp_all [tableLookup]

/-- A write that decodes is a write to one of the three ports (30 R100, R101). -/
theorem decodeWrite_port {off : Offset} {v : Word} {i : Instr} (h : decodeWrite off v = .ok i) :
    off = cmdPort ∨ off = inWordPort ∨ off = inBytePort := by
  unfold decodeWrite at h
  split at h
  · exact .inl ‹_›
  · split at h
    · exact .inr (.inl ‹_›)
    · split at h
      · exact .inr (.inr ‹_›)
      · cases h

/-- The two data ports decode to their own instruction, and CMD to neither (30 R101, R103). -/
theorem decodeWrite_data {off : Offset} {v : Word} {i : Instr} (h : decodeWrite off v = .ok i) :
    (∀ w, i = .inWord w → off = 0x068 ∧ w = v) ∧ (∀ w, i = .inByte w → off = 0x070 ∧ w = v) := by
  rcases decodeWrite_port h with rfl | rfl | rfl
  · have hc : decodeCmd v = .ok i := h
    unfold decodeCmd at hc
    split at hc
    · cases hc
    · split at hc
      · rename_i i' hl
        have hm := tableLookup_mem hl
        simp only [Except.ok.injEq] at hc
        subst hc
        constructor <;> (rintro w rfl; simp [opcodeMap] at hm)
      · cases hc
  · have hc : (Except.ok (Instr.inWord v) : Except DecodeError Instr) = .ok i := h
    cases hc
    exact ⟨fun w e => ⟨rfl, by cases e; rfl⟩, fun w e => (nomatch e)⟩
  · have hc : decodeInByte v = .ok i := h
    unfold decodeInByte at hc
    split at hc
    · cases hc
    · cases hc
      exact ⟨fun w e => (nomatch e), fun w e => ⟨rfl, by cases e; rfl⟩⟩

end Sys2Proof
end

