-- ==== Sys2Proof/Laws/State.lean ====
section
/-! SUPPORT. One lemma per field per update of the state, so that no later proof unfolds a record update. -/

namespace Sys2Proof.Machine

@[simp] theorem recordError_fa (k : ErrorCode) (s : State) : (recordError k s).fa = s.fa := rfl
@[simp] theorem recordError_fb (k : ErrorCode) (s : State) : (recordError k s).fb = s.fb := rfl
@[simp] theorem recordError_fr (k : ErrorCode) (s : State) : (recordError k s).fr = s.fr := rfl
@[simp] theorem recordError_elems (k : ErrorCode) (s : State) : (recordError k s).elems = s.elems := rfl
@[simp] theorem recordError_event (k : ErrorCode) (s : State) : (recordError k s).event = s.event ||| eventError := rfl
@[simp] theorem recordError_irqEn (k : ErrorCode) (s : State) : (recordError k s).irqEn = s.irqEn := rfl
@[simp] theorem recordError_err (k : ErrorCode) (s : State) : (recordError k s).err = s.err ||| k.bit := rfl
@[simp] theorem recordError_errcode (k : ErrorCode) (s : State) : (recordError k s).errcode = if s.err = 0 then k.code else s.errcode := rfl
@[simp] theorem recordError_digestValid (k : ErrorCode) (s : State) : (recordError k s).digestValid = s.digestValid := rfl
@[simp] theorem recordError_squeezed (k : ErrorCode) (s : State) : (recordError k s).squeezed = s.squeezed := rfl
@[simp] theorem recordError_eq (k : ErrorCode) (s : State) : (recordError k s).eq = s.eq := rfl
@[simp] theorem recordError_absPos (k : ErrorCode) (s : State) : (recordError k s).absPos = s.absPos := rfl
@[simp] theorem recordError_bytePos (k : ErrorCode) (s : State) : (recordError k s).bytePos = s.bytePos := rfl
@[simp] theorem recordError_stage (k : ErrorCode) (s : State) : (recordError k s).stage = s.stage := rfl
@[simp] theorem recordError_absCnt (k : ErrorCode) (s : State) : (recordError k s).absCnt = s.absCnt := rfl
@[simp] theorem recordError_permCnt (k : ErrorCode) (s : State) : (recordError k s).permCnt = s.permCnt := rfl
@[simp] theorem recordError_tblIndex (k : ErrorCode) (s : State) : (recordError k s).tblIndex = s.tblIndex := rfl
@[simp] theorem recordError_byteAcc (k : ErrorCode) (s : State) : (recordError k s).byteAcc = s.byteAcc := rfl
@[simp] theorem recordError_pending (k : ErrorCode) (s : State) : (recordError k s).pending = s.pending := rfl
@[simp] theorem recordError_cfg (k : ErrorCode) (s : State) : (recordError k s).cfg = s.cfg := rfl
@[simp] theorem recordError_draws (k : ErrorCode) (s : State) : (recordError k s).draws = s.draws := rfl
@[simp] theorem recordError_schedule (k : ErrorCode) (s : State) : (recordError k s).schedule = s.schedule := rfl
@[simp] theorem recordError_resp (k : ErrorCode) (s : State) : (recordError k s).resp = s.resp := rfl
@[simp] theorem recordError_inReset (k : ErrorCode) (s : State) : (recordError k s).inReset = s.inReset := rfl

@[simp] theorem clearErr_fa (w : Word) (s : State) : (clearErr w s).fa = s.fa := rfl
@[simp] theorem clearErr_fb (w : Word) (s : State) : (clearErr w s).fb = s.fb := rfl
@[simp] theorem clearErr_fr (w : Word) (s : State) : (clearErr w s).fr = s.fr := rfl
@[simp] theorem clearErr_elems (w : Word) (s : State) : (clearErr w s).elems = s.elems := rfl
@[simp] theorem clearErr_event (w : Word) (s : State) : (clearErr w s).event = s.event := rfl
@[simp] theorem clearErr_irqEn (w : Word) (s : State) : (clearErr w s).irqEn = s.irqEn := rfl
@[simp] theorem clearErr_err (w : Word) (s : State) : (clearErr w s).err = clearOnes s.err w := rfl
@[simp] theorem clearErr_errcode (w : Word) (s : State) : (clearErr w s).errcode = if clearOnes s.err w = 0 then 0 else s.errcode := rfl
@[simp] theorem clearErr_digestValid (w : Word) (s : State) : (clearErr w s).digestValid = s.digestValid := rfl
@[simp] theorem clearErr_squeezed (w : Word) (s : State) : (clearErr w s).squeezed = s.squeezed := rfl
@[simp] theorem clearErr_eq (w : Word) (s : State) : (clearErr w s).eq = s.eq := rfl
@[simp] theorem clearErr_absPos (w : Word) (s : State) : (clearErr w s).absPos = s.absPos := rfl
@[simp] theorem clearErr_bytePos (w : Word) (s : State) : (clearErr w s).bytePos = s.bytePos := rfl
@[simp] theorem clearErr_stage (w : Word) (s : State) : (clearErr w s).stage = s.stage := rfl
@[simp] theorem clearErr_absCnt (w : Word) (s : State) : (clearErr w s).absCnt = s.absCnt := rfl
@[simp] theorem clearErr_permCnt (w : Word) (s : State) : (clearErr w s).permCnt = s.permCnt := rfl
@[simp] theorem clearErr_tblIndex (w : Word) (s : State) : (clearErr w s).tblIndex = s.tblIndex := rfl
@[simp] theorem clearErr_byteAcc (w : Word) (s : State) : (clearErr w s).byteAcc = s.byteAcc := rfl
@[simp] theorem clearErr_pending (w : Word) (s : State) : (clearErr w s).pending = s.pending := rfl
@[simp] theorem clearErr_cfg (w : Word) (s : State) : (clearErr w s).cfg = s.cfg := rfl
@[simp] theorem clearErr_draws (w : Word) (s : State) : (clearErr w s).draws = s.draws := rfl
@[simp] theorem clearErr_schedule (w : Word) (s : State) : (clearErr w s).schedule = s.schedule := rfl
@[simp] theorem clearErr_resp (w : Word) (s : State) : (clearErr w s).resp = s.resp := rfl
@[simp] theorem clearErr_inReset (w : Word) (s : State) : (clearErr w s).inReset = s.inReset := rfl

@[simp] theorem clearEvent_fa (w : Word) (s : State) : (clearEvent w s).fa = s.fa := rfl
@[simp] theorem clearEvent_fb (w : Word) (s : State) : (clearEvent w s).fb = s.fb := rfl
@[simp] theorem clearEvent_fr (w : Word) (s : State) : (clearEvent w s).fr = s.fr := rfl
@[simp] theorem clearEvent_elems (w : Word) (s : State) : (clearEvent w s).elems = s.elems := rfl
@[simp] theorem clearEvent_event (w : Word) (s : State) : (clearEvent w s).event = clearOnes s.event w := rfl
@[simp] theorem clearEvent_irqEn (w : Word) (s : State) : (clearEvent w s).irqEn = s.irqEn := rfl
@[simp] theorem clearEvent_err (w : Word) (s : State) : (clearEvent w s).err = s.err := rfl
@[simp] theorem clearEvent_errcode (w : Word) (s : State) : (clearEvent w s).errcode = s.errcode := rfl
@[simp] theorem clearEvent_digestValid (w : Word) (s : State) : (clearEvent w s).digestValid = s.digestValid := rfl
@[simp] theorem clearEvent_squeezed (w : Word) (s : State) : (clearEvent w s).squeezed = s.squeezed := rfl
@[simp] theorem clearEvent_eq (w : Word) (s : State) : (clearEvent w s).eq = s.eq := rfl
@[simp] theorem clearEvent_absPos (w : Word) (s : State) : (clearEvent w s).absPos = s.absPos := rfl
@[simp] theorem clearEvent_bytePos (w : Word) (s : State) : (clearEvent w s).bytePos = s.bytePos := rfl
@[simp] theorem clearEvent_stage (w : Word) (s : State) : (clearEvent w s).stage = s.stage := rfl
@[simp] theorem clearEvent_absCnt (w : Word) (s : State) : (clearEvent w s).absCnt = s.absCnt := rfl
@[simp] theorem clearEvent_permCnt (w : Word) (s : State) : (clearEvent w s).permCnt = s.permCnt := rfl
@[simp] theorem clearEvent_tblIndex (w : Word) (s : State) : (clearEvent w s).tblIndex = s.tblIndex := rfl
@[simp] theorem clearEvent_byteAcc (w : Word) (s : State) : (clearEvent w s).byteAcc = s.byteAcc := rfl
@[simp] theorem clearEvent_pending (w : Word) (s : State) : (clearEvent w s).pending = s.pending := rfl
@[simp] theorem clearEvent_cfg (w : Word) (s : State) : (clearEvent w s).cfg = s.cfg := rfl
@[simp] theorem clearEvent_draws (w : Word) (s : State) : (clearEvent w s).draws = s.draws := rfl
@[simp] theorem clearEvent_schedule (w : Word) (s : State) : (clearEvent w s).schedule = s.schedule := rfl
@[simp] theorem clearEvent_resp (w : Word) (s : State) : (clearEvent w s).resp = s.resp := rfl
@[simp] theorem clearEvent_inReset (w : Word) (s : State) : (clearEvent w s).inReset = s.inReset := rfl

@[simp] theorem respond_fa (r : BusResponse) (s : State) : (respond r s).fa = s.fa := rfl
@[simp] theorem respond_fb (r : BusResponse) (s : State) : (respond r s).fb = s.fb := rfl
@[simp] theorem respond_fr (r : BusResponse) (s : State) : (respond r s).fr = s.fr := rfl
@[simp] theorem respond_elems (r : BusResponse) (s : State) : (respond r s).elems = s.elems := rfl
@[simp] theorem respond_event (r : BusResponse) (s : State) : (respond r s).event = s.event := rfl
@[simp] theorem respond_irqEn (r : BusResponse) (s : State) : (respond r s).irqEn = s.irqEn := rfl
@[simp] theorem respond_err (r : BusResponse) (s : State) : (respond r s).err = s.err := rfl
@[simp] theorem respond_errcode (r : BusResponse) (s : State) : (respond r s).errcode = s.errcode := rfl
@[simp] theorem respond_digestValid (r : BusResponse) (s : State) : (respond r s).digestValid = s.digestValid := rfl
@[simp] theorem respond_squeezed (r : BusResponse) (s : State) : (respond r s).squeezed = s.squeezed := rfl
@[simp] theorem respond_eq (r : BusResponse) (s : State) : (respond r s).eq = s.eq := rfl
@[simp] theorem respond_absPos (r : BusResponse) (s : State) : (respond r s).absPos = s.absPos := rfl
@[simp] theorem respond_bytePos (r : BusResponse) (s : State) : (respond r s).bytePos = s.bytePos := rfl
@[simp] theorem respond_stage (r : BusResponse) (s : State) : (respond r s).stage = s.stage := rfl
@[simp] theorem respond_absCnt (r : BusResponse) (s : State) : (respond r s).absCnt = s.absCnt := rfl
@[simp] theorem respond_permCnt (r : BusResponse) (s : State) : (respond r s).permCnt = s.permCnt := rfl
@[simp] theorem respond_tblIndex (r : BusResponse) (s : State) : (respond r s).tblIndex = s.tblIndex := rfl
@[simp] theorem respond_byteAcc (r : BusResponse) (s : State) : (respond r s).byteAcc = s.byteAcc := rfl
@[simp] theorem respond_pending (r : BusResponse) (s : State) : (respond r s).pending = s.pending := rfl
@[simp] theorem respond_cfg (r : BusResponse) (s : State) : (respond r s).cfg = s.cfg := rfl
@[simp] theorem respond_draws (r : BusResponse) (s : State) : (respond r s).draws = s.draws := rfl
@[simp] theorem respond_schedule (r : BusResponse) (s : State) : (respond r s).schedule = s.schedule := rfl
@[simp] theorem respond_resp (r : BusResponse) (s : State) : (respond r s).resp = some r := rfl
@[simp] theorem respond_inReset (r : BusResponse) (s : State) : (respond r s).inReset = s.inReset := rfl

@[simp] theorem accept_fa (op : Pending) (s : State) : (accept op s).fa = s.fa := rfl
@[simp] theorem accept_fb (op : Pending) (s : State) : (accept op s).fb = s.fb := rfl
@[simp] theorem accept_fr (op : Pending) (s : State) : (accept op s).fr = s.fr := rfl
@[simp] theorem accept_elems (op : Pending) (s : State) : (accept op s).elems = s.elems := rfl
@[simp] theorem accept_event (op : Pending) (s : State) : (accept op s).event = s.event := rfl
@[simp] theorem accept_irqEn (op : Pending) (s : State) : (accept op s).irqEn = s.irqEn := rfl
@[simp] theorem accept_err (op : Pending) (s : State) : (accept op s).err = s.err := rfl
@[simp] theorem accept_errcode (op : Pending) (s : State) : (accept op s).errcode = s.errcode := rfl
@[simp] theorem accept_digestValid (op : Pending) (s : State) : (accept op s).digestValid = s.digestValid := rfl
@[simp] theorem accept_squeezed (op : Pending) (s : State) : (accept op s).squeezed = s.squeezed := rfl
@[simp] theorem accept_eq (op : Pending) (s : State) : (accept op s).eq = s.eq := rfl
@[simp] theorem accept_absPos (op : Pending) (s : State) : (accept op s).absPos = s.absPos := rfl
@[simp] theorem accept_bytePos (op : Pending) (s : State) : (accept op s).bytePos = s.bytePos := rfl
@[simp] theorem accept_stage (op : Pending) (s : State) : (accept op s).stage = s.stage := rfl
@[simp] theorem accept_absCnt (op : Pending) (s : State) : (accept op s).absCnt = s.absCnt := rfl
@[simp] theorem accept_permCnt (op : Pending) (s : State) : (accept op s).permCnt = s.permCnt := rfl
@[simp] theorem accept_tblIndex (op : Pending) (s : State) : (accept op s).tblIndex = s.tblIndex := rfl
@[simp] theorem accept_byteAcc (op : Pending) (s : State) : (accept op s).byteAcc = s.byteAcc := rfl
@[simp] theorem accept_pending (op : Pending) (s : State) : (accept op s).pending = some op := rfl
@[simp] theorem accept_cfg (op : Pending) (s : State) : (accept op s).cfg = s.cfg := rfl
@[simp] theorem accept_draws (op : Pending) (s : State) : (accept op s).draws = s.draws := rfl
@[simp] theorem accept_schedule (op : Pending) (s : State) : (accept op s).schedule = s.schedule := rfl
@[simp] theorem accept_resp (op : Pending) (s : State) : (accept op s).resp = s.resp := rfl
@[simp] theorem accept_inReset (op : Pending) (s : State) : (accept op s).inReset = s.inReset := rfl

@[simp] theorem finish_fa (s : State) : (finish s).fa = s.fa := rfl
@[simp] theorem finish_fb (s : State) : (finish s).fb = s.fb := rfl
@[simp] theorem finish_fr (s : State) : (finish s).fr = s.fr := rfl
@[simp] theorem finish_elems (s : State) : (finish s).elems = s.elems := rfl
@[simp] theorem finish_event (s : State) : (finish s).event = s.event ||| eventDone := rfl
@[simp] theorem finish_irqEn (s : State) : (finish s).irqEn = s.irqEn := rfl
@[simp] theorem finish_err (s : State) : (finish s).err = s.err := rfl
@[simp] theorem finish_errcode (s : State) : (finish s).errcode = s.errcode := rfl
@[simp] theorem finish_digestValid (s : State) : (finish s).digestValid = s.digestValid := rfl
@[simp] theorem finish_squeezed (s : State) : (finish s).squeezed = s.squeezed := rfl
@[simp] theorem finish_eq (s : State) : (finish s).eq = s.eq := rfl
@[simp] theorem finish_absPos (s : State) : (finish s).absPos = s.absPos := rfl
@[simp] theorem finish_bytePos (s : State) : (finish s).bytePos = s.bytePos := rfl
@[simp] theorem finish_stage (s : State) : (finish s).stage = s.stage := rfl
@[simp] theorem finish_absCnt (s : State) : (finish s).absCnt = s.absCnt := rfl
@[simp] theorem finish_permCnt (s : State) : (finish s).permCnt = s.permCnt := rfl
@[simp] theorem finish_tblIndex (s : State) : (finish s).tblIndex = s.tblIndex := rfl
@[simp] theorem finish_byteAcc (s : State) : (finish s).byteAcc = s.byteAcc := rfl
@[simp] theorem finish_pending (s : State) : (finish s).pending = none := rfl
@[simp] theorem finish_cfg (s : State) : (finish s).cfg = s.cfg := rfl
@[simp] theorem finish_draws (s : State) : (finish s).draws = s.draws := rfl
@[simp] theorem finish_schedule (s : State) : (finish s).schedule = s.schedule := rfl
@[simp] theorem finish_resp (s : State) : (finish s).resp = s.resp := rfl
@[simp] theorem finish_inReset (s : State) : (finish s).inReset = s.inReset := rfl

@[simp] theorem writeFr_fa (r : Word) (s : State) : (writeFr r s).fa = s.fa := rfl
@[simp] theorem writeFr_fb (r : Word) (s : State) : (writeFr r s).fb = s.fb := rfl
@[simp] theorem writeFr_fr (r : Word) (s : State) : (writeFr r s).fr = r := rfl
@[simp] theorem writeFr_elems (r : Word) (s : State) : (writeFr r s).elems = s.elems := rfl
@[simp] theorem writeFr_event (r : Word) (s : State) : (writeFr r s).event = s.event := rfl
@[simp] theorem writeFr_irqEn (r : Word) (s : State) : (writeFr r s).irqEn = s.irqEn := rfl
@[simp] theorem writeFr_err (r : Word) (s : State) : (writeFr r s).err = s.err := rfl
@[simp] theorem writeFr_errcode (r : Word) (s : State) : (writeFr r s).errcode = s.errcode := rfl
@[simp] theorem writeFr_digestValid (r : Word) (s : State) : (writeFr r s).digestValid = s.digestValid := rfl
@[simp] theorem writeFr_squeezed (r : Word) (s : State) : (writeFr r s).squeezed = s.squeezed := rfl
@[simp] theorem writeFr_eq (r : Word) (s : State) : (writeFr r s).eq = s.eq := rfl
@[simp] theorem writeFr_absPos (r : Word) (s : State) : (writeFr r s).absPos = s.absPos := rfl
@[simp] theorem writeFr_bytePos (r : Word) (s : State) : (writeFr r s).bytePos = s.bytePos := rfl
@[simp] theorem writeFr_stage (r : Word) (s : State) : (writeFr r s).stage = s.stage := rfl
@[simp] theorem writeFr_absCnt (r : Word) (s : State) : (writeFr r s).absCnt = s.absCnt := rfl
@[simp] theorem writeFr_permCnt (r : Word) (s : State) : (writeFr r s).permCnt = s.permCnt := rfl
@[simp] theorem writeFr_tblIndex (r : Word) (s : State) : (writeFr r s).tblIndex = s.tblIndex := rfl
@[simp] theorem writeFr_byteAcc (r : Word) (s : State) : (writeFr r s).byteAcc = s.byteAcc := rfl
@[simp] theorem writeFr_pending (r : Word) (s : State) : (writeFr r s).pending = s.pending := rfl
@[simp] theorem writeFr_cfg (r : Word) (s : State) : (writeFr r s).cfg = s.cfg := rfl
@[simp] theorem writeFr_draws (r : Word) (s : State) : (writeFr r s).draws = s.draws := rfl
@[simp] theorem writeFr_schedule (r : Word) (s : State) : (writeFr r s).schedule = s.schedule := rfl
@[simp] theorem writeFr_resp (r : Word) (s : State) : (writeFr r s).resp = s.resp := rfl
@[simp] theorem writeFr_inReset (r : Word) (s : State) : (writeFr r s).inReset = s.inReset := rfl

@[simp] theorem clearRegs_fa (s : State) : (clearRegs s).fa = State.reset.fa := rfl
@[simp] theorem clearRegs_fb (s : State) : (clearRegs s).fb = State.reset.fb := rfl
@[simp] theorem clearRegs_fr (s : State) : (clearRegs s).fr = State.reset.fr := rfl
@[simp] theorem clearRegs_elems (s : State) : (clearRegs s).elems = State.reset.elems := rfl
@[simp] theorem clearRegs_event (s : State) : (clearRegs s).event = State.reset.event := rfl
@[simp] theorem clearRegs_irqEn (s : State) : (clearRegs s).irqEn = State.reset.irqEn := rfl
@[simp] theorem clearRegs_err (s : State) : (clearRegs s).err = State.reset.err := rfl
@[simp] theorem clearRegs_errcode (s : State) : (clearRegs s).errcode = State.reset.errcode := rfl
@[simp] theorem clearRegs_digestValid (s : State) : (clearRegs s).digestValid = State.reset.digestValid := rfl
@[simp] theorem clearRegs_squeezed (s : State) : (clearRegs s).squeezed = State.reset.squeezed := rfl
@[simp] theorem clearRegs_eq (s : State) : (clearRegs s).eq = State.reset.eq := rfl
@[simp] theorem clearRegs_absPos (s : State) : (clearRegs s).absPos = State.reset.absPos := rfl
@[simp] theorem clearRegs_bytePos (s : State) : (clearRegs s).bytePos = State.reset.bytePos := rfl
@[simp] theorem clearRegs_stage (s : State) : (clearRegs s).stage = State.reset.stage := rfl
@[simp] theorem clearRegs_absCnt (s : State) : (clearRegs s).absCnt = State.reset.absCnt := rfl
@[simp] theorem clearRegs_permCnt (s : State) : (clearRegs s).permCnt = State.reset.permCnt := rfl
@[simp] theorem clearRegs_tblIndex (s : State) : (clearRegs s).tblIndex = State.reset.tblIndex := rfl
@[simp] theorem clearRegs_byteAcc (s : State) : (clearRegs s).byteAcc = State.reset.byteAcc := rfl
@[simp] theorem clearRegs_pending (s : State) : (clearRegs s).pending = State.reset.pending := rfl
@[simp] theorem clearRegs_cfg (s : State) : (clearRegs s).cfg = s.cfg := rfl
@[simp] theorem clearRegs_draws (s : State) : (clearRegs s).draws = s.draws := rfl
@[simp] theorem clearRegs_schedule (s : State) : (clearRegs s).schedule = s.schedule := rfl
@[simp] theorem clearRegs_resp (s : State) : (clearRegs s).resp = State.reset.resp := rfl
@[simp] theorem clearRegs_inReset (s : State) : (clearRegs s).inReset = s.inReset := rfl

/-! Noting an error that does not abort writes ERR, ERRCODE and EVENT only. -/

@[simp] theorem noteIf_fa (b : Bool) (k : ErrorCode) (s : State) : (noteIf b k s).fa = s.fa := by cases b <;> rfl
@[simp] theorem noteIf_fb (b : Bool) (k : ErrorCode) (s : State) : (noteIf b k s).fb = s.fb := by cases b <;> rfl
@[simp] theorem noteIf_fr (b : Bool) (k : ErrorCode) (s : State) : (noteIf b k s).fr = s.fr := by cases b <;> rfl
@[simp] theorem noteIf_elems (b : Bool) (k : ErrorCode) (s : State) : (noteIf b k s).elems = s.elems := by cases b <;> rfl
@[simp] theorem noteIf_irqEn (b : Bool) (k : ErrorCode) (s : State) : (noteIf b k s).irqEn = s.irqEn := by cases b <;> rfl
@[simp] theorem noteIf_digestValid (b : Bool) (k : ErrorCode) (s : State) : (noteIf b k s).digestValid = s.digestValid := by cases b <;> rfl
@[simp] theorem noteIf_squeezed (b : Bool) (k : ErrorCode) (s : State) : (noteIf b k s).squeezed = s.squeezed := by cases b <;> rfl
@[simp] theorem noteIf_eq (b : Bool) (k : ErrorCode) (s : State) : (noteIf b k s).eq = s.eq := by cases b <;> rfl
@[simp] theorem noteIf_absPos (b : Bool) (k : ErrorCode) (s : State) : (noteIf b k s).absPos = s.absPos := by cases b <;> rfl
@[simp] theorem noteIf_bytePos (b : Bool) (k : ErrorCode) (s : State) : (noteIf b k s).bytePos = s.bytePos := by cases b <;> rfl
@[simp] theorem noteIf_stage (b : Bool) (k : ErrorCode) (s : State) : (noteIf b k s).stage = s.stage := by cases b <;> rfl
@[simp] theorem noteIf_absCnt (b : Bool) (k : ErrorCode) (s : State) : (noteIf b k s).absCnt = s.absCnt := by cases b <;> rfl
@[simp] theorem noteIf_permCnt (b : Bool) (k : ErrorCode) (s : State) : (noteIf b k s).permCnt = s.permCnt := by cases b <;> rfl
@[simp] theorem noteIf_tblIndex (b : Bool) (k : ErrorCode) (s : State) : (noteIf b k s).tblIndex = s.tblIndex := by cases b <;> rfl
@[simp] theorem noteIf_byteAcc (b : Bool) (k : ErrorCode) (s : State) : (noteIf b k s).byteAcc = s.byteAcc := by cases b <;> rfl
@[simp] theorem noteIf_pending (b : Bool) (k : ErrorCode) (s : State) : (noteIf b k s).pending = s.pending := by cases b <;> rfl
@[simp] theorem noteIf_cfg (b : Bool) (k : ErrorCode) (s : State) : (noteIf b k s).cfg = s.cfg := by cases b <;> rfl
@[simp] theorem noteIf_draws (b : Bool) (k : ErrorCode) (s : State) : (noteIf b k s).draws = s.draws := by cases b <;> rfl
@[simp] theorem noteIf_schedule (b : Bool) (k : ErrorCode) (s : State) : (noteIf b k s).schedule = s.schedule := by cases b <;> rfl
@[simp] theorem noteIf_resp (b : Bool) (k : ErrorCode) (s : State) : (noteIf b k s).resp = s.resp := by cases b <;> rfl
@[simp] theorem noteIf_inReset (b : Bool) (k : ErrorCode) (s : State) : (noteIf b k s).inReset = s.inReset := by cases b <;> rfl

/-! The state after reset, register by register (10 R59). -/

@[simp] theorem reset_fa : State.reset.fa = 0 := rfl
@[simp] theorem reset_fb : State.reset.fb = 0 := rfl
@[simp] theorem reset_fr : State.reset.fr = 0 := rfl
@[simp] theorem reset_elems : State.reset.elems = zeroElems := rfl
@[simp] theorem reset_event : State.reset.event = 0 := rfl
@[simp] theorem reset_irqEn : State.reset.irqEn = 0 := rfl
@[simp] theorem reset_err : State.reset.err = 0 := rfl
@[simp] theorem reset_errcode : State.reset.errcode = 0 := rfl
@[simp] theorem reset_digestValid : State.reset.digestValid = false := rfl
@[simp] theorem reset_squeezed : State.reset.squeezed = false := rfl
@[simp] theorem reset_eq : State.reset.eq = false := rfl
@[simp] theorem reset_absPos : State.reset.absPos = 0 := rfl
@[simp] theorem reset_bytePos : State.reset.bytePos = 0 := rfl
@[simp] theorem reset_stage : State.reset.stage = 0 := rfl
@[simp] theorem reset_absCnt : State.reset.absCnt = 0 := rfl
@[simp] theorem reset_permCnt : State.reset.permCnt = 0 := rfl
@[simp] theorem reset_tblIndex : State.reset.tblIndex = 0 := rfl
@[simp] theorem reset_byteAcc : State.reset.byteAcc = 0 := rfl
@[simp] theorem reset_pending : State.reset.pending = none := rfl
@[simp] theorem reset_inReset : State.reset.inReset = false := rfl

end Sys2Proof.Machine
end

