-- ==== Sys2Proof/Laws/Ops.lean ====
section
/-! SUPPORT. One lemma per shared operation that says once what it can do; provers cite these instead of unfolding. -/

namespace Sys2Proof.Machine

@[simp] theorem firstFailing_nil : firstFailing [] = none := rfl

@[simp] theorem firstFailing_cons (b : Bool) (k : ErrorCode) (rest : List (Bool × ErrorCode)) :
    firstFailing ((b, k) :: rest) = if b then some k else firstFailing rest := rfl

/-- No check fails exactly when every condition is false. -/
theorem firstFailing_eq_none (checks : List (Bool × ErrorCode)) :
    firstFailing checks = none ↔ ∀ c ∈ checks, c.1 = false := by
  induction checks with
  | nil => simp
  | cons c rest ih =>
    obtain ⟨b, k⟩ := c
    cases b <;> simp [ih]

/-- The error a list of checks records is one of the list's. -/
theorem firstFailing_mem {checks : List (Bool × ErrorCode)} {k : ErrorCode} (h : firstFailing checks = some k) :
    (true, k) ∈ checks := by
  induction checks with
  | nil => simp at h
  | cons c rest ih =>
    obtain ⟨b, k'⟩ := c
    cases b <;> simp_all

/-- A guarded write either aborts with the first failing check, or has its effect. -/
theorem guardedWrite_cases (checks : List (Bool × ErrorCode)) (effect : State → State) (s : State) :
    (∃ k, firstFailing checks = some k ∧ guardedWrite checks effect s = abortWrite k s) ∨
    ((∀ c ∈ checks, c.1 = false) ∧ guardedWrite checks effect s = respond (.writeDone false) (effect s)) := by
  unfold guardedWrite
  cases h : firstFailing checks with
  | some k => exact .inl ⟨k, rfl, rfl⟩
  | none => exact .inr ⟨(firstFailing_eq_none checks).1 h, rfl⟩

/-- A guarded write all of whose checks pass. -/
theorem guardedWrite_pass {checks : List (Bool × ErrorCode)} (h : ∀ c ∈ checks, c.1 = false) (effect : State → State)
    (s : State) : guardedWrite checks effect s = respond (.writeDone false) (effect s) := by
  simp [guardedWrite, (firstFailing_eq_none checks).2 h]

/-- A guarded write whose first failing check is known. -/
theorem guardedWrite_fail {checks : List (Bool × ErrorCode)} {k : ErrorCode} (h : firstFailing checks = some k)
    (effect : State → State) (s : State) : guardedWrite checks effect s = abortWrite k s := by
  simp [guardedWrite, h]

@[simp] theorem busy_iff (s : State) : s.busy = true ↔ s.pending ≠ none := by
  simp [State.busy, Option.isSome_iff_ne_none]

@[simp] theorem busy_eq_false (s : State) : s.busy = false ↔ s.pending = none := by
  simp [State.busy]

/-- The code of an error kind is the place of its ERR bit, counted from 1 (60 R281, R282). -/
theorem bit_eq_shift (k : ErrorCode) : k.bit = (1 : BitVec 8) <<< (k.code.toNat - 1) := by
  cases k <;> decide

/-- Recording an error leaves ERR other than 0 (60 R282). -/
theorem recordError_err_ne_zero (k : ErrorCode) (s : State) : (recordError k s).err ≠ 0 := by
  have h : ∀ e : BitVec 8, e ||| k.bit ≠ 0 := by cases k <;> decide +kernel
  exact h s.err

/-- The ERR bits that were set stay set when an error is recorded (60 R282). -/
theorem recordError_sticky (k : ErrorCode) (s : State) : s.err &&& (recordError k s).err = s.err := by
  simp only [recordError_err]
  ext i hi
  simp
  tauto

/-- Absorbing one element either starts the permutation of a complete chunk or moves ABS_POS on (42 R232). -/
theorem absorbElem_cases (w : Word) (s : State) :
    (s.absPos = 7 ∧ absorbElem w s = { s with
      elems := loadElem w s, absCnt := s.absCnt + 1, digestValid := false, absPos := 0,
      pending := some (.chunkPerm (loadElem w s)) }) ∨
    (s.absPos ≠ 7 ∧ absorbElem w s = { s with
      elems := loadElem w s, absCnt := s.absCnt + 1, digestValid := false, absPos := s.absPos + 1 }) := by
  unfold absorbElem
  by_cases h : s.absPos = 7
  · exact .inl ⟨h, by rw [if_pos h]; rfl⟩
  · exact .inr ⟨h, by rw [if_neg h]⟩

@[simp] theorem noteIf_false (k : ErrorCode) (s : State) : noteIf false k s = s := rfl

@[simp] theorem noteIf_true (k : ErrorCode) (s : State) : noteIf true k s = recordError k s := rfl

@[simp] theorem coreStep_none {s : State} (h : s.pending = none) : coreStep s = s := by simp [coreStep, h]

theorem coreStep_some {s : State} {op : Pending} (h : s.pending = some op) : coreStep s = complete op s := by
  simp [coreStep, h]

/-- Every completion clears PENDING (60 R290). -/
@[simp] theorem complete_pending (op : Pending) (s : State) : (complete op s).pending = none := by
  cases op with
  | field op a b => cases op <;> rfl
  | _ => rfl

/-- Every completion sets EVENT.DONE and leaves EVENT.ERROR (60 R290). -/
@[simp] theorem complete_event (op : Pending) (s : State) : (complete op s).event = s.event ||| eventDone := by
  cases op with
  | field op a b => cases op <;> rfl
  | _ => rfl

/-- No completion touches the operand registers, the error registers, IRQ_EN, TBL_INDEX, the build, or the model's own
fields (60 R290). -/
theorem complete_frame (op : Pending) (s : State) :
    (complete op s).fa = s.fa ∧ (complete op s).fb = s.fb ∧ (complete op s).err = s.err ∧
    (complete op s).errcode = s.errcode ∧ (complete op s).irqEn = s.irqEn ∧ (complete op s).tblIndex = s.tblIndex ∧
    (complete op s).cfg = s.cfg ∧ (complete op s).draws = s.draws ∧ (complete op s).schedule = s.schedule ∧
    (complete op s).resp = s.resp ∧ (complete op s).inReset = s.inReset := by
  cases op with
  | field op a b => cases op <;> simp [complete, completeField, completeFmul, completeFsqr, completeFadd, completeFsub,
      completeFneg, completeFcan, completeFaddc, completeFsubc, completeFeq]
  | _ => simp [complete, completeNop, completePerm, completePstep, completeSinit, completeSfinal, completeChunkPerm]

end Sys2Proof.Machine
end

