-- ==== Sys2Proof/Laws/Bus.lean ====
section
/-! SUPPORT. The register map and the accesses of the bus port, each said once. -/

namespace Sys2Proof.Machine

/-- Every register is found at its offset (10 R32). -/
@[simp] theorem regAt_offset (r : Reg) : regAt r.offset = some r := by
  cases r with
  | elem i => revert i; decide
  | _ => rfl

/-- A register is found only at its own offset (10 R32). -/
theorem regAt_eq_some {off : Offset} {r : Reg} (h : regAt off = some r) : off = r.offset := by
  have key : ∀ off : Offset, ∀ r ∈ regAt off, off = r.offset := by decide +kernel
  exact key off r h

/-- Offsets of the registers are multiples of 8 (20 R72). -/
theorem offset_aligned (r : Reg) : r.offset.toNat % 8 = 0 := by
  cases r with
  | elem i => revert i; decide
  | _ => rfl

@[simp] theorem wellSized_offset (r : Reg) : wellSized r.offset 8 = true := by
  simp [wellSized, offset_aligned]

/-- A full-word read of a mapped register. -/
@[simp] theorem busRead_offset (r : Reg) (s : State) : busRead r.offset 8 s = readReg r s := by
  simp [busRead]

/-- A full-word write to a mapped register. -/
@[simp] theorem busWrite_offset (r : Reg) (v : Word) (s : State) : busWrite r.offset 8 v s = writeReg r v s := by
  simp [busWrite]

/-- What an access can do to the state when it is a read: the answer, the free-value count, or one recorded error with
its answer (20 R77). -/
theorem busRead_cases (off : Offset) (size : Nat) (s : State) :
    (∃ v n, busRead off size s = { s with resp := some (.readDone v false), draws := n }) ∨
    busRead off size s = respond (.readDone 0 true) (recordError .access s) ∨
    busRead off size s = respond (.readDone 0 false) (recordError .table s) := by
  unfold busRead
  split
  · split
    · rename_i r _
      unfold readReg
      split
      · exact .inl ⟨_, _, rfl⟩
      · split
        · exact .inl ⟨_, _, rfl⟩
        · split
          · unfold readTable
            split
            · exact .inl ⟨_, _, rfl⟩
            · exact .inr (.inr rfl)
          · exact .inl ⟨_, _, rfl⟩
    · exact .inr (.inl rfl)
  · exact .inr (.inl rfl)

/-- What an instruction can do when the Host issues it: it is dropped or refused with one error, or its checks pass
(60 R288, R289). -/
theorem exec_eq_guardedWrite (i : Instr) (s : State) :
    ∃ checks effect, exec i s = .next (guardedWrite ((s.busy, .busy) :: checks) effect s) := by
  cases i <;> exact ⟨_, _, rfl⟩

/-- Every instruction answers a next state (60 R280). -/
theorem exec_isNext (i : Instr) (s : State) : ∃ t, exec i s = .next t := by
  obtain ⟨_, _, h⟩ := exec_eq_guardedWrite i s
  exact ⟨_, h⟩

/-- While an operation is in flight an instruction is dropped with BUSY (20 R78). -/
theorem exec_busy {s : State} (h : s.pending ≠ none) (i : Instr) : exec i s = .next (abortWrite .busy s) := by
  obtain ⟨_, _, hi⟩ := exec_eq_guardedWrite i s
  rw [hi, guardedWrite_fail (k := .busy)]
  simp [(busy_iff s).2 h]

/-- A full-word write that decodes is the instruction (20 R81, 30 R106). -/
theorem hostAccess_issues {off : Offset} {v : Word} {i : Instr} (h : decodeWrite off v = .ok i) (s : State) :
    hostAccess (.write off 8 v) s = exec i s := by
  rcases decodeWrite_port h with rfl | rfl | rfl
  · show busWrite (Reg.cmd).offset 8 v s = _
    rw [busWrite_offset]
    simp only [writeReg, writePort, show decodeWrite Reg.cmd.offset v = .ok i from h]
  · show busWrite (Reg.inWord).offset 8 v s = _
    rw [busWrite_offset]
    simp only [writeReg, writePort, show decodeWrite Reg.inWord.offset v = .ok i from h]
  · show busWrite (Reg.inByte).offset 8 v s = _
    rw [busWrite_offset]
    simp only [writeReg, writePort, show decodeWrite Reg.inByte.offset v = .ok i from h]

/-- A CMD word that decodes to nothing, written to an idle block, is recorded as ILLEGAL (30 R104). -/
theorem cmd_write_illegal (s : State) (w : Word) (h : s.pending = none) (hw : ∀ i : Instr, decodeWrite 0x010 w ≠ .ok i) :
    hostAccess (.write 0x010 8 w) s = .next (respond (.writeDone false) (recordError .illegal s)) := by
  show busWrite (Reg.cmd).offset 8 w s = _
  rw [busWrite_offset]
  simp only [writeReg, writePort]
  split
  · exact absurd ‹_› (hw _)
  · simp [guardedWrite, h, rejectionCode, Reg.offset, cmdPort, abortWrite, ErrorCode.busError]

/-- A CMD word with any of bits 63:8 set decodes to nothing. -/
theorem decodeWrite_cmd_reserved (w : Word) (h : w >>> 8 ≠ 0) (i : Instr) : decodeWrite 0x010 w ≠ .ok i := by
  intro e
  have : decodeWrite 0x010 w = .error .reservedBits := by
    show decodeCmd w = _
    exact if_pos h
  rw [this] at e
  exact absurd e (by simp)

/-- Every access answers a next state. -/
theorem hostAccess_isNext (a : BusAccess) (s : State) : ∃ t, hostAccess a s = .next t := by
  cases a with
  | read off size => exact ⟨_, rfl⟩
  | write off size v =>
    simp only [hostAccess, busWrite]
    split
    · split
      · rename_i r _
        cases r <;> first | exact ⟨_, rfl⟩ | skip
        all_goals
          simp only [writeReg, writePort]
          split
          · exact exec_isNext _ _
          · exact ⟨_, rfl⟩
      · exact ⟨_, rfl⟩
    · exact ⟨_, rfl⟩

end Sys2Proof.Machine
end

