-- ==== Sys2Proof/Laws/Step.lean ====
section
/-! SUPPORT. Said once: everything an access of the Host, an issued instruction and a step can do. The invariants and the
frames are case analyses over these. -/

namespace Sys2Proof.Machine

/-- What an instruction does when it is accepted or absorbed, its checks having passed. -/
inductive Accepted (s : State) : Instr → State → Prop
  | nop : Accepted s .nop (accept .nop s)
  | fmul : Accepted s .fmul (accept (.field .fmul s.fa s.fb) s)
  | fsqr : Accepted s .fsqr (accept (.field .fsqr s.fa s.fb) s)
  | fadd : Accepted s .fadd (accept (.field .fadd s.fa s.fb) s)
  | fsub : Accepted s .fsub (accept (.field .fsub s.fa s.fb) s)
  | fneg : Accepted s .fneg (accept (.field .fneg s.fa s.fb) s)
  | fcan : Accepted s .fcan (accept (.field .fcan s.fa s.fb) s)
  | faddc : Accepted s .faddc (accept (.field .faddc s.fa s.fb) (noteIf (nonCanonical s.fb) .precond s))
  | fsubc : Accepted s .fsubc (accept (.field .fsubc s.fa s.fb) (noteIf (nonCanonical s.fb) .precond s))
  | feq : Accepted s .feq (accept (.field .feq s.fa s.fb) s)
  | perm (hstage : s.stage = 0) : Accepted s .perm (accept (.perm s.elems) s)
  | pstep : Accepted s .pstep (accept (.pstep s.elems s.stage) s)
  | sinit : Accepted s .sinit (accept .sinit s)
  | sfinal (hstage : s.stage = 0) (hsq : s.squeezed = false) (hbyte : s.bytePos = 0) :
      Accepted s .sfinal (accept (.sfinal s.elems s.needPerm) s)
  | inWord (w : Word) (hstage : s.stage = 0) (hsq : s.squeezed = false) (hbyte : s.bytePos = 0) :
      Accepted s (.inWord w) (absorbWord w s)
  | inByte (v : Word) (hwf : v >>> 8 = 0) (hstage : s.stage = 0) (hsq : s.squeezed = false) :
      Accepted s (.inByte v) (absorbByte (dataByte v) s)

/-- Absorbing a word writes STATE, the counts of the sponge, PENDING and the error registers only (42 R232, R234). -/
theorem absorbWord_frame (w : Word) (s : State) :
    (absorbWord w s).fa = s.fa ∧ (absorbWord w s).fb = s.fb ∧ (absorbWord w s).fr = s.fr ∧
    (absorbWord w s).irqEn = s.irqEn ∧ (absorbWord w s).squeezed = s.squeezed ∧ (absorbWord w s).eq = s.eq ∧
    (absorbWord w s).stage = s.stage ∧ (absorbWord w s).permCnt = s.permCnt ∧
    (absorbWord w s).tblIndex = s.tblIndex ∧ (absorbWord w s).cfg = s.cfg ∧ (absorbWord w s).draws = s.draws ∧
    (absorbWord w s).schedule = s.schedule ∧ (absorbWord w s).resp = s.resp ∧
    (absorbWord w s).inReset = s.inReset := by
  unfold absorbWord
  rcases absorbElem_cases w (noteIf (nonCanonical w) .noncanon s) with ⟨_, e⟩ | ⟨_, e⟩ <;> simp [e]

@[simp] theorem absorbWord_absCnt (w : Word) (s : State) : (absorbWord w s).absCnt = s.absCnt + 1 := by
  unfold absorbWord
  rcases absorbElem_cases w (noteIf (nonCanonical w) .noncanon s) with ⟨_, e⟩ | ⟨_, e⟩ <;> simp [e]

@[simp] theorem absorbWord_digestValid (w : Word) (s : State) : (absorbWord w s).digestValid = false := by
  unfold absorbWord
  rcases absorbElem_cases w (noteIf (nonCanonical w) .noncanon s) with ⟨_, e⟩ | ⟨_, e⟩ <;> simp [e]

@[simp] theorem absorbWord_bytePos (w : Word) (s : State) : (absorbWord w s).bytePos = s.bytePos := by
  unfold absorbWord
  rcases absorbElem_cases w (noteIf (nonCanonical w) .noncanon s) with ⟨_, e⟩ | ⟨_, e⟩ <;> simp [e]

@[simp] theorem absorbWord_byteAcc (w : Word) (s : State) : (absorbWord w s).byteAcc = s.byteAcc := by
  unfold absorbWord
  rcases absorbElem_cases w (noteIf (nonCanonical w) .noncanon s) with ⟨_, e⟩ | ⟨_, e⟩ <;> simp [e]

/-- The registers no acceptance and no absorption writes (60 R289, 42 R232). -/
theorem Accepted.frame {s u : State} {i : Instr} (h : Accepted s i u) :
    u.fa = s.fa ∧ u.fb = s.fb ∧ u.fr = s.fr ∧ u.irqEn = s.irqEn ∧ u.squeezed = s.squeezed ∧ u.eq = s.eq ∧
    u.stage = s.stage ∧ u.permCnt = s.permCnt ∧ u.tblIndex = s.tblIndex ∧ u.cfg = s.cfg ∧ u.draws = s.draws ∧
    u.schedule = s.schedule ∧ u.resp = s.resp ∧ u.inReset = s.inReset := by
  cases h
  case inWord w _ _ _ => exact absorbWord_frame w s
  case inByte v _ _ _ =>
    unfold absorbByte
    split
    · exact absorbWord_frame (groupWord s.byteAcc (dataByte v)) { s with byteAcc := 0, bytePos := 0 }
    · simp
  all_goals simp

/-- An accepted instruction absorbs an element, or leaves the sponge but for a byte that joins a group (42 R233, R235). -/
theorem Accepted.absorbs {s u : State} {i : Instr} (h : Accepted s i u) :
    (u.elems = s.elems ∧ u.digestValid = s.digestValid ∧ u.absCnt = s.absCnt ∧ u.absPos = s.absPos ∧
      ((u.bytePos = s.bytePos ∧ u.byteAcc = s.byteAcc) ∨ ∃ v, i = .inByte v)) ∨
    (u.absCnt = s.absCnt + 1 ∧ u.digestValid = false ∧ s.stage = 0 ∧ s.squeezed = false ∧
      ((s.bytePos = 0 ∧ u.bytePos = s.bytePos ∧ u.byteAcc = s.byteAcc ∧ ∃ w, i = .inWord w) ∨
       (s.bytePos = 7 ∧ ∃ v, i = .inByte v ∧ v >>> 8 = 0))) := by
  cases h
  case inWord w hs hq hb => exact .inr ⟨by simp, by simp, hs, hq, .inl ⟨hb, by simp, by simp, w, rfl⟩⟩
  case inByte v hv hs hq =>
    unfold absorbByte
    split
    · exact .inr ⟨by simp, by simp, hs, hq, .inr ⟨‹_›, v, rfl, hv⟩⟩
    · exact .inl ⟨rfl, rfl, rfl, rfl, .inr ⟨v, rfl⟩⟩
  all_goals exact .inl (by simp)

/-- An acceptance or absorption records no error, or notes NONCANON or PRECOND (60 R287). -/
theorem Accepted.errors {s u : State} {i : Instr} (h : Accepted s i u) :
    (u.err = s.err ∧ u.errcode = s.errcode ∧ u.event = s.event) ∨
    ∃ k ∈ [ErrorCode.noncanon, .precond], u.err = (recordError k s).err ∧
      u.errcode = (recordError k s).errcode ∧ u.event = (recordError k s).event := by
  have absorbed : ∀ (w : Word) (t : State),
      ((absorbWord w t).err = t.err ∧ (absorbWord w t).errcode = t.errcode ∧ (absorbWord w t).event = t.event) ∨
      ((absorbWord w t).err = (recordError .noncanon t).err ∧
        (absorbWord w t).errcode = (recordError .noncanon t).errcode ∧
        (absorbWord w t).event = (recordError .noncanon t).event) := by
    intro w t
    unfold absorbWord
    cases nonCanonical w
    · rcases absorbElem_cases w t with ⟨_, e⟩ | ⟨_, e⟩ <;> simp [e]
    · rcases absorbElem_cases w (recordError .noncanon t) with ⟨_, e⟩ | ⟨_, e⟩ <;> simp [e]
  cases h
  case faddc => cases nonCanonical s.fb <;> simp
  case fsubc => cases nonCanonical s.fb <;> simp
  case inWord w _ _ _ =>
    rcases absorbed w s with h | h
    · exact .inl h
    · exact .inr ⟨.noncanon, by simp, h⟩
  case inByte v _ _ _ =>
    unfold absorbByte
    split
    · rcases absorbed (groupWord s.byteAcc (dataByte v)) { s with byteAcc := 0, bytePos := 0 } with h | h
      · exact .inl h
      · exact .inr ⟨.noncanon, by simp, h⟩
    · exact .inl ⟨rfl, rfl, rfl⟩
  all_goals exact .inl ⟨rfl, rfl, rfl⟩

/-- FADDC and FSUBC sample FB whether or not PRECOND is noted. -/
@[simp] theorem acceptField_noteIf (op : FieldOp) (b : Bool) (k : ErrorCode) (s : State) :
    acceptField op (noteIf b k s) = accept (.field op s.fa s.fb) (noteIf b k s) := by
  cases b <;> rfl

/-- An issued instruction aborts with one error, or the block was idle and it is accepted (60 R288, R289). -/
theorem exec_cases {i : Instr} {s t : State} (h : exec i s = .next t) :
    (∃ k, k ∈ [ErrorCode.access, .busy, .illegal, .seq, .len] ∧ t = abortWrite k s) ∨
    (s.pending = none ∧ ∃ u, Accepted s i u ∧ t = respond (.writeDone false) u) := by
  cases i
  case faddc =>
    simp only [exec, execFaddc, Host.Outcome.next.injEq] at h
    subst h
    rcases guardedWrite_cases [(s.busy, .busy)]
      (fun s => acceptField .faddc (noteIf (nonCanonical s.fb) .precond s)) s with ⟨k, hk, he⟩ | ⟨hp, he⟩
    · exact .inl ⟨k, by have := firstFailing_mem hk; simp_all, he⟩
    · exact .inr ⟨by simpa using hp, _, .faddc, by rw [he, acceptField_noteIf]⟩
  case fsubc =>
    simp only [exec, execFsubc, Host.Outcome.next.injEq] at h
    subst h
    rcases guardedWrite_cases [(s.busy, .busy)]
      (fun s => acceptField .fsubc (noteIf (nonCanonical s.fb) .precond s)) s with ⟨k, hk, he⟩ | ⟨hp, he⟩
    · exact .inl ⟨k, by have := firstFailing_mem hk; simp_all, he⟩
    · exact .inr ⟨by simpa using hp, _, .fsubc, by rw [he, acceptField_noteIf]⟩
  case perm =>
    simp only [exec, execPerm, Host.Outcome.next.injEq] at h
    subst h
    rcases guardedWrite_cases [(s.busy, .busy), (s.stage != 0, .seq)] (fun s => accept (.perm s.elems) s) s
      with ⟨k, hk, he⟩ | ⟨hp, he⟩
    · exact .inl ⟨k, by have := firstFailing_mem hk; simp_all; tauto, he⟩
    · simp at hp
      exact .inr ⟨hp.1, _, .perm hp.2, he⟩
  case sfinal =>
    simp only [exec, execSfinal, Host.Outcome.next.injEq] at h
    subst h
    rcases guardedWrite_cases [(s.busy, .busy), (s.stage != 0, .seq), (s.squeezed, .seq), (s.bytePos != 0, .len)]
      (fun s => accept (.sfinal s.elems s.needPerm) s) s with ⟨k, hk, he⟩ | ⟨hp, he⟩
    · exact .inl ⟨k, by have := firstFailing_mem hk; simp_all; tauto, he⟩
    · simp at hp
      exact .inr ⟨hp.1, _, .sfinal hp.2.1 hp.2.2.1 hp.2.2.2, he⟩
  case inWord w =>
    simp only [exec, execInWord, Host.Outcome.next.injEq] at h
    subst h
    rcases guardedWrite_cases [(s.busy, .busy), (s.stage != 0, .seq), (s.squeezed, .seq), (s.bytePos != 0, .seq)]
      (absorbWord w) s with ⟨k, hk, he⟩ | ⟨hp, he⟩
    · exact .inl ⟨k, by have := firstFailing_mem hk; simp_all; tauto, he⟩
    · simp at hp
      exact .inr ⟨hp.1, _, .inWord w hp.2.1 hp.2.2.1 hp.2.2.2, he⟩
  case inByte v =>
    simp only [exec, execInByte, Host.Outcome.next.injEq] at h
    subst h
    rcases guardedWrite_cases [(s.busy, .busy), (v >>> 8 != 0, .access), (s.stage != 0, .seq), (s.squeezed, .seq)]
      (absorbByte (dataByte v)) s with ⟨k, hk, he⟩ | ⟨hp, he⟩
    · exact .inl ⟨k, by have := firstFailing_mem hk; simp_all; tauto, he⟩
    · simp at hp
      exact .inr ⟨hp.1, _, .inByte v hp.2.1 hp.2.2.1 hp.2.2.2, he⟩
  all_goals
    simp only [exec, execNop, execFmul, execFsqr, execFadd, execFsub, execFneg, execFcan, execFeq, execPstep, execSinit,
      Host.Outcome.next.injEq] at h
    subst h
    rcases guardedWrite_cases [(s.busy, .busy)] _ s with ⟨k, hk, he⟩ | ⟨hp, he⟩
    · exact .inl ⟨k, by have := firstFailing_mem hk; simp_all, he⟩
    · exact .inr ⟨by simpa using hp, _, by constructor, he⟩

/-- Everything one access of the Host can do. -/
inductive AccessEffect (s : State) : BusAccess → State → Prop
  /-- an aborting error is recorded and answered, nothing else -/
  | aborted (a : BusAccess) (k : ErrorCode) (hk : k ∈ [ErrorCode.access, .busy, .illegal, .seq, .len])
      (r : BusResponse) : AccessEffect s a (respond r (recordError k s))
  /-- a read of TBL_DATA past the tables -/
  | noTable (off : Offset) (size : Nat) : AccessEffect s (.read off size) (respond (.readDone 0 false) (recordError .table s))
  /-- a read is answered -/
  | answered (off : Offset) (size : Nat) (v : Word) (n : Nat) :
      AccessEffect s (.read off size) { s with resp := some (.readDone v false), draws := n }
  | eventWrite (v : Word) : AccessEffect s (.write 0x020 8 v) (respond (.writeDone false) (clearEvent v s))
  | irqEnWrite (v : Word) :
      AccessEffect s (.write 0x028 8 v) { s with irqEn := v.setWidth 2, resp := some (.writeDone false) }
  | errWrite (v : Word) : AccessEffect s (.write 0x030 8 v) (respond (.writeDone false) (clearErr v s))
  | faWrite (v : Word) (idle : s.pending = none) :
      AccessEffect s (.write 0x040 8 v) { s with fa := v, resp := some (.writeDone false) }
  | fbWrite (v : Word) (idle : s.pending = none) :
      AccessEffect s (.write 0x048 8 v) { s with fb := v, resp := some (.writeDone false) }
  | tblIndexWrite (v : Word) (idle : s.pending = none) :
      AccessEffect s (.write 0x078 8 v) { s with tblIndex := v.setWidth 20, resp := some (.writeDone false) }
  | elemWrite (i : Fin 12) (v : Word) (idle : s.pending = none) :
      AccessEffect s (.write (Reg.elem i).offset 8 v)
        { s with elems := s.elems.set i.val v, digestValid := false, resp := some (.writeDone false) }
  /-- an instruction is accepted or absorbed -/
  | issued (off : Offset) (v : Word) (i : Instr) (hd : decodeWrite off v = .ok i) (idle : s.pending = none) (u : State)
      (hu : Accepted s i u) : AccessEffect s (.write off 8 v) (respond (.writeDone false) u)

theorem writePort_effect {off : Offset} {v : Word} {s t : State} (h : writePort off v s = .next t) :
    AccessEffect s (.write off 8 v) t := by
  unfold writePort at h
  split at h
  · rename_i i hd
    rcases exec_cases h with ⟨k, hk, rfl⟩ | ⟨idle, u, hu, rfl⟩
    · exact .aborted _ k hk _
    · exact .issued off v i hd idle u hu
  · simp only [Host.Outcome.next.injEq] at h
    subst h
    rcases guardedWrite_cases [(s.busy, .busy), (true, rejectionCode off)] id s with ⟨k, hk, he⟩ | ⟨hp, _⟩
    · rw [he]
      refine .aborted _ k ?_ _
      have := firstFailing_mem hk
      simp [rejectionCode] at this
      split at this <;> (simp; tauto)
    · simp at hp

/-- Everything one access of the Host can do (20 R72–R78). -/
theorem hostAccess_effect {a : BusAccess} {s t : State} (h : hostAccess a s = .next t) : AccessEffect s a t := by
  cases a with
  | read off size =>
    simp only [hostAccess, Host.Outcome.next.injEq] at h
    subst h
    rcases busRead_cases off size s with ⟨v, n, he⟩ | he | he <;> rw [he]
    · exact .answered off size v n
    · exact .aborted _ .access (by simp) _
    · exact .noTable off size
  | write off size v =>
    simp only [hostAccess, busWrite] at h
    split at h
    · rename_i hs
      obtain rfl : size = 8 := by simp [wellSized] at hs; exact hs.1
      split at h
      · rename_i r hr
        obtain rfl := regAt_eq_some hr
        cases r
        case cmd => exact writePort_effect h
        case inWord => exact writePort_effect h
        case inByte => exact writePort_effect h
        case event =>
          simp only [writeReg, Host.Outcome.next.injEq] at h
          subst h
          exact .eventWrite v
        case irqEn =>
          simp only [writeReg, Host.Outcome.next.injEq] at h
          subst h
          exact .irqEnWrite v
        case err =>
          simp only [writeReg, Host.Outcome.next.injEq] at h
          subst h
          exact .errWrite v
        case fa =>
          simp only [writeReg, Host.Outcome.next.injEq] at h
          subst h
          rcases guardedWrite_cases [(s.busy, .busy)] (fun s => { s with fa := v }) s with ⟨k, hk, he⟩ | ⟨hp, he⟩
          · rw [he]; exact .aborted _ k (by have := firstFailing_mem hk; simp_all) _
          · rw [he]; exact .faWrite v (by simpa using hp)
        case fb =>
          simp only [writeReg, Host.Outcome.next.injEq] at h
          subst h
          rcases guardedWrite_cases [(s.busy, .busy)] (fun s => { s with fb := v }) s with ⟨k, hk, he⟩ | ⟨hp, he⟩
          · rw [he]; exact .aborted _ k (by have := firstFailing_mem hk; simp_all) _
          · rw [he]; exact .fbWrite v (by simpa using hp)
        case tblIndex =>
          simp only [writeReg, writeTblIndex, Host.Outcome.next.injEq] at h
          subst h
          rcases guardedWrite_cases [(s.busy, .busy), (v >>> 20 != 0, .access)]
            (fun s => { s with tblIndex := v.setWidth 20 }) s with ⟨k, hk, he⟩ | ⟨hp, he⟩
          · rw [he]; exact .aborted _ k (by have := firstFailing_mem hk; simp_all; tauto) _
          · simp at hp
            rw [he]; exact .tblIndexWrite v hp.1
        case elem i =>
          simp only [writeReg, Host.Outcome.next.injEq] at h
          subst h
          rcases guardedWrite_cases [(s.busy, .busy)]
            (fun s => { s with elems := s.elems.set i.val v, digestValid := false }) s with ⟨k, hk, he⟩ | ⟨hp, he⟩
          · rw [he]; exact .aborted _ k (by have := firstFailing_mem hk; simp_all) _
          · rw [he]; exact .elemWrite i v (by simpa using hp)
        all_goals
          simp only [writeReg, Host.Outcome.next.injEq] at h
          subst h
          exact .aborted _ .access (by simp) _
      · simp only [Host.Outcome.next.injEq] at h
        subst h
        exact .aborted _ .access (by simp) _
    · simp only [Host.Outcome.next.injEq] at h
      subst h
      exact .aborted _ .access (by simp) _

/-- Everything one step can do. `s₀` is the state with the turn taken out of the schedule. -/
inductive StepEffect (s : State) : State → Prop
  | access (a : BusAccess) (rest : List Turn) (hs : s.schedule = .host a :: rest) (hr : s.inReset = false) (t : State)
      (ht : AccessEffect { s with schedule := rest } a t) : StepEffect s t
  | ignored (a : BusAccess) (rest : List Turn) (hs : s.schedule = .host a :: rest) (hr : s.inReset = true) :
      StepEffect s { s with schedule := rest, resp := none }
  | completed (hm : s.coreMoves) (op : Pending) (ho : s.pending = some op) :
      StepEffect s (complete op { s with schedule := s.schedule.tail })
  | rested (hm : (s.pending = none ∧ s.coreMoves) ∨ s.inReset = true) :
      StepEffect s { s with schedule := s.schedule.tail }
  | asserted (rest : List Turn) (hs : s.schedule = .resetAssert :: rest) :
      StepEffect s (clearRegs { s with schedule := rest, inReset := true })
  | released (rest : List Turn) (hs : s.schedule = .resetRelease :: rest) (hr : s.inReset = true) :
      StepEffect s (clearRegs { s with schedule := rest, inReset := false })
  | notAsserted (rest : List Turn) (hs : s.schedule = .resetRelease :: rest) (hr : s.inReset = false) :
      StepEffect s { s with schedule := rest }

theorem coreTurn_effect {s t : State} (hs : s.schedule = [] ∨ ∃ rest, s.schedule = .core :: rest)
    (h : takeTurn .core { s with schedule := s.schedule.tail } = .next t) : StepEffect s t := by
  simp only [takeTurn] at h
  split at h
  · rename_i hr
    simp only [Host.Outcome.next.injEq] at h
    subst h
    exact .rested (.inr hr)
  · rename_i hr
    have hr : s.inReset = false := by simpa using hr
    simp only [Host.Outcome.next.injEq] at h
    subst h
    rcases Option.eq_none_or_eq_some s.pending with hp | ⟨op, hp⟩
    · rw [coreStep_none (s := { s with schedule := s.schedule.tail }) hp]
      exact .rested (.inl ⟨hp, hr, hs⟩)
    · rw [coreStep_some (s := { s with schedule := s.schedule.tail }) hp]
      exact .completed ⟨hr, hs⟩ op hp

theorem popped_nil {s : State} (hs : s.schedule = []) : ({ s with schedule := s.schedule.tail } : State) = s := by
  cases s
  subst hs
  rfl

/-- Everything one step can do (00 R3, 20 R82, 60 R290, 70 R320). -/
theorem step_effect {s t : State} (h : step s = .next t) : StepEffect s t := by
  unfold step at h
  split at h
  · rename_i hs
    refine coreTurn_effect (.inl hs) ?_
    rw [popped_nil hs]
    exact h
  · rename_i turn rest hs
    cases turn with
    | host a =>
      simp only [takeTurn] at h
      split at h
      · rename_i hr
        simp only [Host.Outcome.next.injEq] at h
        subst h
        exact .ignored a rest hs hr
      · rename_i hr
        exact .access a rest hs (by simpa using hr) t (hostAccess_effect h)
    | core =>
      refine coreTurn_effect (.inr ⟨rest, hs⟩) ?_
      rw [hs]
      exact h
    | resetAssert =>
      simp only [takeTurn, Host.Outcome.next.injEq] at h
      subst h
      exact .asserted rest hs
    | resetRelease =>
      simp only [takeTurn] at h
      split at h
      · rename_i hr
        simp only [Host.Outcome.next.injEq] at h
        subst h
        exact .released rest hs hr
      · rename_i hr
        simp only [Host.Outcome.next.injEq] at h
        subst h
        exact .notAsserted rest hs (by simpa using hr)

end Sys2Proof.Machine
end

