-- ==== Sys2Proof/Laws/Run.lean ====
section
/-! SUPPORT. Steps put together into runs, and the step each kind of turn makes. -/

namespace Sys2Proof.Machine

/-- A run of k + 1 steps is a step and a run of k steps. -/
theorem run_succ {s t : State} (h : step s = .next t) (k : Nat) :
    Host.Core.run Sys2Proof.core (k + 1) s = Host.Core.run Sys2Proof.core k t := by
  have h' : Sys2Proof.core.step s = .next t := h
  simp only [Host.Core.run, h']

/-- A run of no step. -/
theorem run_zero (s : State) : Host.Core.run Sys2Proof.core 0 s = .next s := rfl

/-- Runs compose. -/
theorem run_add {s t : State} {j : Nat} (h : Host.Core.run Sys2Proof.core j s = .next t) (k : Nat) :
    Host.Core.run Sys2Proof.core (j + k) s = Host.Core.run Sys2Proof.core k t := by
  induction j generalizing s with
  | zero =>
    rw [run_zero] at h
    injection h with h
    rw [Nat.zero_add, h]
  | succ j ih =>
    rw [Nat.succ_add]
    cases hs : step s with
    | next u =>
      rw [run_succ hs] at h ⊢
      exact ih h
    | fault r => nomatch r
    | refused r =>
      have h' : Sys2Proof.core.step s = .refused r := hs
      simp only [Host.Core.run, h'] at h
      cases h

/-- The step of the Host's turn is its access (20 R81). -/
theorem step_host {s : State} {a : BusAccess} {rest : List Turn} (hs : s.schedule = .host a :: rest)
    (hr : s.inReset = false) : step s = hostAccess a { s with schedule := rest } := by
  unfold step
  rw [hs]
  simp [takeTurn, hr]

/-- A step that absorbs an element absorbs the word written, or the group its byte completes (42 R233, R235). -/
theorem step_absorbs {s : State} (h : s.absorbsElement) :
    (∃ w rest, step s = .next (respond (.writeDone false) (absorbWord w { s with schedule := rest }))) ∨
    (∃ w rest, step s = .next (respond (.writeDone false)
      (absorbWord w { s with schedule := rest, byteAcc := 0, bytePos := 0 }))) := by
  obtain ⟨hp, hs, hq, ⟨hb, w, hr, rest, he⟩ | ⟨hb, v, hv, hr, rest, he⟩⟩ := h
  · refine .inl ⟨w, rest, ?_⟩
    rw [step_host he hr, hostAccess_issues (show decodeWrite 0x068 w = .ok (.inWord w) from rfl)]
    simp only [exec, execInWord]
    rw [guardedWrite_pass]
    simp [hp, hs, hq, hb]
  · refine .inr ⟨groupWord s.byteAcc (dataByte v), rest, ?_⟩
    have hd : decodeWrite 0x070 v = .ok (.inByte v) := by
      show decodeInByte v = _
      simp [decodeInByte, hv]
    rw [step_host he hr, hostAccess_issues hd]
    simp only [exec, execInByte]
    rw [guardedWrite_pass]
    · simp [absorbByte, hb]
    · simp [hp, hs, hq, hv]
/-- The Core's step completes the operation in flight (60 R290). -/
theorem step_completes {s : State} {op : Pending} (ho : s.pending = some op) (hm : s.coreMoves) :
    step s = .next (complete op { s with schedule := s.schedule.tail }) := by
  obtain ⟨hr, hs⟩ := hm
  unfold step
  rcases hs with hs | ⟨rest, hs⟩
  · rw [popped_nil hs, hs]
    simp [idleTurn, takeTurn, hr, coreStep_some ho]
  · rw [hs]
    simp only [takeTurn, hr]
    rw [coreStep_some (s := { s with schedule := rest, inReset := false }) ho]
    simp

/-- Without an operation in flight the Core's turn does nothing (60 R290). -/
theorem step_rests {s : State} (ho : s.pending = none) (hm : s.coreMoves) :
    step s = .next { s with schedule := s.schedule.tail } := by
  obtain ⟨hr, hs⟩ := hm
  unfold step
  rcases hs with hs | ⟨rest, hs⟩
  · rw [popped_nil hs, hs]
    simp [idleTurn, takeTurn, hr, coreStep_none ho]
  · rw [hs]
    simp only [takeTurn, hr]
    rw [coreStep_none (s := { s with schedule := rest, inReset := false }) ho]
    simp

/-- Instructions issued one after another: a list is issued, then the next. -/
theorem issueAll_append {l : List Instr} {s t : State} (h : issueAll l s = .next t) (l' : List Instr) :
    issueAll (l ++ l') s = issueAll l' t := by
  induction l generalizing s with
  | nil =>
    simp only [issueAll, Host.Outcome.next.injEq] at h
    rw [h, List.nil_append]
  | cons i l ih =>
    rw [List.cons_append, issueAll]
    rw [issueAll] at h
    split at h
    · exact ih h
    · cases h
    · cases h

/-- One more issue and completion at the end. -/
theorem settleTimes_succ {i : Instr} {n : Nat} {s t : State} (h : settleTimes i n s = .next t) :
    settleTimes i (n + 1) s = settle i t := by
  induction n generalizing s with
  | zero =>
    simp only [settleTimes, Host.Outcome.next.injEq] at h
    subst h
    simp only [settleTimes]
    cases settle i s <;> rfl
  | succ n ih =>
    rw [settleTimes]
    rw [settleTimes] at h
    split at h
    · exact ih h
    · cases h
    · cases h

end Sys2Proof.Machine
end

