-- ==== Sys2Proof/Laws/Asm.lean ====
section
/-! SUPPORT. What the pieces of a host sequence do: a STATUS read, `wait`, and an issued instruction (30_encoding.md R109). -/

namespace Sys2Proof.Machine

/-- A read of STATUS changes the answer and the free-value count only (10 R36, 20 R77). -/
theorem readStatus_frame (s : State) :
    ∃ t, hostAccess (.read Reg.status.offset 8) s = .next t ∧ t = { s with draws := t.draws, resp := t.resp } := by
  refine ⟨_, rfl, ?_⟩
  rw [busRead_offset]
  cases h : s.busy <;> simp [readReg, h, Reg.unspecifiedBusy, drawRead, respond]

/-- `rd STATUS` as a step. -/
theorem readStatus_step {s : State} {rest : List Turn} (hs : s.schedule = Asm.rd .status ++ rest)
    (hr : s.inReset = false) :
    ∃ t, step s = .next t ∧ t = { s with draws := t.draws, resp := t.resp, schedule := rest } := by
  rw [step_host hs hr]
  obtain ⟨t, ht, e⟩ := readStatus_frame { s with schedule := rest }
  exact ⟨t, ht, e⟩

/-- Any number of polls of STATUS. -/
theorem polls_run (polls : Nat) {s : State} {rest : List Turn}
    (hs : s.schedule = (List.replicate polls (Asm.rd .status)).flatten ++ rest) (hr : s.inReset = false) :
    ∃ t : State, Host.Core.run Sys2Proof.core polls s = .next t ∧
      t = { s with draws := t.draws, resp := t.resp, schedule := rest } := by
  induction polls generalizing s with
  | zero =>
    refine ⟨s, rfl, ?_⟩
    simp only [List.replicate_zero, List.flatten_nil, List.nil_append] at hs
    rw [← hs]
  | succ n ih =>
    rw [List.replicate_succ, List.flatten_cons, List.append_assoc] at hs
    obtain ⟨u, hu, eu⟩ := readStatus_step hs hr
    obtain ⟨t, ht, et⟩ := ih (s := u) (by rw [eu]) (by rw [eu]; exact hr)
    refine ⟨t, by rw [run_succ hu, ht], ?_⟩
    rw [et, eu]

/-- `wait`: the operation in flight, if there is one, is completed once (30 R109, 60 R290). -/
theorem wait_run (polls : Nat) {s : State} {rest : List Turn} (hs : s.schedule = Asm.wait polls ++ rest)
    (hr : s.inReset = false) :
    ∃ t : State, Host.Core.run Sys2Proof.core (Asm.wait polls).length s = .next t ∧
      t = { coreStep s with draws := t.draws, resp := t.resp, schedule := rest } := by
  simp only [Asm.wait, List.append_assoc] at hs
  obtain ⟨t, ht, et⟩ := polls_run polls hs hr
  have hlen : (Asm.wait polls).length = polls + 2 := by simp [Asm.wait, Asm.rd]
  have hcore : step t = .next { coreStep s with draws := t.draws, resp := t.resp, schedule := Asm.rd .status ++ rest } := by
    rcases Option.eq_none_or_eq_some s.pending with hp | ⟨op, hp⟩
    · rw [step_rests (by rw [et]; exact hp) ⟨by rw [et]; exact hr, .inr ⟨_, by rw [et]; rfl⟩⟩, coreStep_none hp, et]
      rfl
    · rw [step_completes (op := op) (by rw [et]; exact hp) ⟨by rw [et]; exact hr, .inr ⟨_, by rw [et]; rfl⟩⟩,
        coreStep_some hp, et]
      cases op with
      | field op a b => cases op <;> rfl
      | _ => rfl
  have hreset : (coreStep s).inReset = false := by
    rcases Option.eq_none_or_eq_some s.pending with hp | ⟨op, hp⟩
    · rw [coreStep_none hp, hr]
    · rw [coreStep_some hp, (complete_frame op s).2.2.2.2.2.2.2.2.2.2, hr]
  obtain ⟨u, hu, eu⟩ := readStatus_step (s := { coreStep s with
    draws := t.draws, resp := t.resp, schedule := Asm.rd .status ++ rest }) rfl hreset
  refine ⟨u, by rw [hlen, run_add ht, run_succ hcore, run_succ hu, run_zero], ?_⟩
  rw [eu]

/-- An issued instruction as a step (30 R106, R108). -/
theorem issue_step {s : State} {rest : List Turn} {i : Instr} (hi : i.wf = true)
    (hs : s.schedule = Asm.issue i ++ rest) (hr : s.inReset = false) :
    step s = exec i { s with schedule := rest } := by
  have hd : decodeWrite (encode i).1 (encode i).2 = .ok i := by
    cases i
    case inByte v =>
      show decodeInByte v = _
      have hv : v >>> 8 = 0 := by simpa [Instr.wf] using hi
      simp [decodeInByte, hv]
    all_goals rfl
  rw [step_host (a := .write (encode i).1 8 (encode i).2) (rest := rest) hs hr, hostAccess_issues hd]

end Sys2Proof.Machine
end

