-- ==== Sys2Proof/Laws/Bytes.lean ====
section
/-! SUPPORT. The byte grouping of IN_BYTE as numbers (42_sponge.md R235, R240; 10_state.md R55). -/

namespace Sys2Proof.Machine

/-- A completed group is BYTE_ACC followed by the byte (42 R235). -/
theorem groupWord_toNat (acc : BitVec 56) (b : Byte) : (groupWord acc b).toNat = 256 * acc.toNat + b.toNat := by
  have h : (groupWord acc b).toNat = acc.toNat <<< 8 ||| b.toNat := BitVec.toNat_append acc b
  rw [h, ← Nat.shiftLeft_add_eq_or_of_lt b.isLt, Nat.shiftLeft_eq]
  omega

/-- The same word as a shift and an or. -/
theorem groupWord_eq (acc : BitVec 56) (b : Byte) :
    groupWord acc b = (acc.setWidth 64 <<< 8) ||| b.setWidth 64 := by
  apply BitVec.eq_of_toNat_eq
  have ha := acc.isLt
  have hb := b.isLt
  rw [groupWord_toNat, BitVec.toNat_or, BitVec.toNat_shiftLeft, BitVec.toNat_setWidth, BitVec.toNat_setWidth,
    Nat.mod_eq_of_lt (a := acc.toNat) (by omega), Nat.mod_eq_of_lt (a := b.toNat) (by omega),
    Nat.mod_eq_of_lt (by rw [Nat.shiftLeft_eq]; omega), ← Nat.shiftLeft_add_eq_or_of_lt hb, Nat.shiftLeft_eq]
  omega

/-- A byte pushed into BYTE_ACC while there is room (10 R55). -/
theorem pushByte_toNat (acc : BitVec 56) (b : Byte) (h : acc.toNat < 2 ^ 48) :
    (pushByte acc b).toNat = 256 * acc.toNat + b.toNat := by
  have hb := b.isLt
  rw [pushByte, BitVec.toNat_or, BitVec.toNat_shiftLeft, BitVec.toNat_setWidth, Nat.mod_eq_of_lt (a := b.toNat) (by omega),
    Nat.mod_eq_of_lt (by rw [Nat.shiftLeft_eq]; omega), ← Nat.shiftLeft_add_eq_or_of_lt hb, Nat.shiftLeft_eq]
  omega

end Sys2Proof.Machine
end

