-- ==== Sys2Proof/Laws/PerInstr.lean ====
section
/-! SUPPORT. Laws that hold of every instruction, one lemma per constructor: the opcode table against the encoder and the
decoder. -/

namespace Sys2Proof.Laws.EncodingRow

/-- A row of spec/opcode_table.json: the port of the write, the mask and the match of the word. -/
structure Row where
  port : Offset
  mask : Word
  value : Word
deriving DecidableEq, Repr

/-- A command row: every bit is fixed (30 R100). -/
def commandRow (opcode : Word) : Row := { port := 0x010, mask := 0xFFFFFFFFFFFFFFFF, value := opcode }

/-- The row of an instruction, from the table. -/
def rowOf : Instr → Row
  | .nop      => commandRow 0x00
  | .fmul     => commandRow 0x01
  | .fsqr     => commandRow 0x02
  | .fadd     => commandRow 0x03
  | .fsub     => commandRow 0x04
  | .fneg     => commandRow 0x05
  | .fcan     => commandRow 0x06
  | .faddc    => commandRow 0x07
  | .fsubc    => commandRow 0x08
  | .feq      => commandRow 0x09
  | .perm     => commandRow 0x10
  | .pstep    => commandRow 0x11
  | .sinit    => commandRow 0x20
  | .sfinal   => commandRow 0x21
  | .inWord _ => { port := 0x068, mask := 0, value := 0 }
  | .inByte _ => { port := 0x070, mask := 0xFFFFFFFFFFFFFF00, value := 0 }

/-- An instruction is well formed exactly when its word is one of its row, and then it is decoded from that word at the
port of its row (30 R100, R101, R103). -/
def Statement (i : Instr) : Prop :=
  (encode i).1 = (rowOf i).port ∧
  (i.wf = true ↔ (encode i).2 &&& (rowOf i).mask = (rowOf i).value) ∧
  (i.wf = true → decodeWrite (rowOf i).port (encode i).2 = .ok i)

theorem nop : Statement .nop := by unfold Statement; decide
theorem fmul : Statement .fmul := by unfold Statement; decide
theorem fsqr : Statement .fsqr := by unfold Statement; decide
theorem fadd : Statement .fadd := by unfold Statement; decide
theorem fsub : Statement .fsub := by unfold Statement; decide
theorem fneg : Statement .fneg := by unfold Statement; decide
theorem fcan : Statement .fcan := by unfold Statement; decide
theorem faddc : Statement .faddc := by unfold Statement; decide
theorem fsubc : Statement .fsubc := by unfold Statement; decide
theorem feq : Statement .feq := by unfold Statement; decide
theorem perm : Statement .perm := by unfold Statement; decide
theorem pstep : Statement .pstep := by unfold Statement; decide
theorem sinit : Statement .sinit := by unfold Statement; decide
theorem sfinal : Statement .sfinal := by unfold Statement; decide

theorem inWord (w : Word) : Statement (.inWord w) := by
  refine ⟨rfl, ?_, fun _ => rfl⟩
  simp [Instr.wf, rowOf]

/-- The reserved bits of an IN_BYTE word, as a shift and as a mask. -/
theorem reserved_iff (v : Word) : v >>> 8 = 0 ↔ v &&& 0xFFFFFFFFFFFFFF00 = 0 := by
  constructor
  · intro h
    have hv : v.toNat < 256 := by
      have h' := congrArg BitVec.toNat h
      rw [BitVec.toNat_ushiftRight, Nat.shiftRight_eq_div_pow] at h'
      simp at h'
      omega
    have e : v = (BitVec.ofNat 8 v.toNat).setWidth 64 := by
      apply BitVec.eq_of_toNat_eq
      simp
      omega
    have key : ∀ b : Byte, b.setWidth 64 &&& (0xFFFFFFFFFFFFFF00 : Word) = 0 := by decide
    rw [e]
    exact key _
  · intro h
    have h' := congrArg (fun x : Word => x >>> 8) h
    simp only [BitVec.ushiftRight_and_distrib] at h'
    have e : (0xFFFFFFFFFFFFFF00 : Word) >>> 8 = 0x00FFFFFFFFFFFFFF := by decide
    rw [e] at h'
    apply BitVec.eq_of_getLsbD_eq
    intro j hj
    have hb := congrArg (fun x : Word => x.getLsbD j) h'
    simp only [BitVec.getLsbD_and] at hb
    by_cases hj' : j < 56
    · have hm : (0x00FFFFFFFFFFFFFF#64).getLsbD j = true := by
        have all : ∀ j : Fin 56, (0x00FFFFFFFFFFFFFF#64).getLsbD j.val = true := by decide
        exact all ⟨j, hj'⟩
      simp only [BitVec.ofNat_eq_ofNat, hm, Bool.and_true] at hb
      simpa using hb
    · simp only [BitVec.getLsbD_ushiftRight]
      rw [BitVec.getLsbD_of_ge _ _ (by omega)]
      simp

theorem inByte (v : Word) : Statement (.inByte v) := by
  refine ⟨rfl, ?_, fun h => ?_⟩
  · simp only [Instr.wf, beq_iff_eq, encode, rowOf]
    exact reserved_iff v
  · have hv : v >>> 8 = 0 := by simpa [Instr.wf] using h
    simp [rowOf, encode, decodeWrite, decodeInByte, hv, cmdPort, inWordPort, inBytePort]

end Sys2Proof.Laws.EncodingRow
end

