-- ==== Sys2Proof/Laws/Tables.lean ====
section
/-! SUPPORT. What a well-formed build gives: the shapes of the tables, the row sums of the MDS matrix, the stage count
(00_scope.md R7, R10, R11). -/

namespace Sys2Proof.Machine

/-- Every table of a build has its entry count (00 R10). -/
theorem entries_length (c : ValidConfig) (t : Table) : (c.raw.entries t).length = c.raw.entryCount t := by
  have h := c.wf
  simp only [Config.wf, Config.shapesOk, Bool.and_eq_true, List.all_cons, beq_iff_eq] at h
  cases t <;> tauto

/-- 3 ≤ NSTAGE ≤ 255 (00 R7). -/
theorem nstage_bounds (c : ValidConfig) : 3 ≤ c.raw.nstage ∧ c.raw.nstage ≤ 255 := by
  have h := c.wf
  simp only [Config.wf, Config.countsOk, Bool.and_eq_true, decide_eq_true_eq] at h
  unfold Config.nstage at *
  omega

/-- The circulant coefficients read one by one sum to the sum of the table. -/
theorem circ_sum (c : ValidConfig) : (∑ k : Fin 12, (tbl c.raw .mdsCirc k.val).toNat) = sumWords c.raw.mdsCirc := by
  have h := entries_length c .mdsCirc
  simp only [Config.entries, Config.entryCount] at h
  simp only [tbl, Config.entries]
  match hl : c.raw.mdsCirc, h with
  | [a0, a1, a2, a3, a4, a5, a6, a7, a8, a9, a10, a11], _ => simp [Fin.sum_univ_succ, sumWords]

/-- Σ_k c[k] + d[i] ≤ 2^32 in every row (00 R11 (3)). -/
theorem row_sum_le (c : ValidConfig) (i : Fin 12) :
    (∑ k : Fin 12, (tbl c.raw .mdsCirc k.val).toNat) + (tbl c.raw .mdsDiag i.val).toNat ≤ 2 ^ 32 := by
  rw [circ_sum]
  have h := entries_length c .mdsDiag
  simp only [Config.entries, Config.entryCount] at h
  have hw := c.wf
  simp only [Config.wf, Config.mdsRowsOk, Bool.and_eq_true, List.all_eq_true, decide_eq_true_eq] at hw
  have hi : i.val < c.raw.mdsDiag.length := by omega
  have e : tbl c.raw .mdsDiag i.val = c.raw.mdsDiag[i.val] := by
    simp [tbl, Config.entries, List.getElem?_eq_getElem hi]
  rw [e]
  exact hw.1.2 _ (List.getElem_mem hi)

/-- c[0] + d[0] < 2^64 (00 R11 (4)). -/
theorem corner_lt (c : ValidConfig) : (tbl c.raw .mdsCirc 0).toNat + (tbl c.raw .mdsDiag 0).toNat < 2 ^ 64 := by
  have h := row_sum_le c 0
  simp only [Fin.sum_univ_succ] at h
  simp at h
  omega

/-- An index taken modulo 12 is the sum of the two lanes (41 R186). -/
theorem rotated_lane (S : Elems) (k i : Fin 12) : S[k + i] = S[(k.val + i.val) % 12] := by
  simp [Fin.getElem_fin, Fin.val_add]

/-- One more stage (41 R193). -/
theorem runStages_succ (c : Config) (n : Nat) (S : Elems) : runStages c (n + 1) S = stage c n (runStages c n S) := rfl

end Sys2Proof.Machine
end

