-- ==== Sys2Proof/Tests/Slice0.lean ====
section
/-! SUPPORT. The model's own tests, each on one step or one function, and for every obligation with hypotheses a witness
that meets them together. Expected values come from spec/95_test_vectors.md and the examples of the rules cited; none was
taken from the model. -/

namespace Sys2Proof.Tests

set_option maxRecDepth 20000
set_option Elab.async false

open Sys2Proof Sys2Proof.Machine

/-! ### Helpers -/

/-- A check of the next state. -/
def next (o : Outcome) (check : State → Bool) : Bool :=
  match o with
  | .next t => check t
  | .fault _ => false
  | .refused _ => false

/-- The mixing build T1 of 95 section 0. -/
def t1 : Config where
  halfFullRounds := 1
  partialRounds  := 2
  baseAddr       := 0x10000
  rcFull         := (List.range 48).map fun j => BitVec.ofNat 64 (j + 1)
  mdsCirc        := [17, 15, 41, 16, 2, 28, 13, 13, 39, 18, 34, 20]
  mdsDiag        := 8 :: List.replicate 11 0
  fpFirstRc      := (List.range 12).map fun i => BitVec.ofNat 64 (100 + i)
  fpInitMatrix   := (List.range 121).map fun j => BitVec.ofNat 64 (j / 11 + 2 * (j % 11) + 1)
  fpRc           := [7]
  fpVs           := (List.range 22).map fun j => BitVec.ofNat 64 (j / 11 + j % 11 + 1)
  fpWhats        := (List.range 22).map fun j => BitVec.ofNat 64 (2 * (j / 11) + j % 11 + 3)

/-- T1 meets the checks of 00 R7, R10, R11, R12. -/
def build1 : ValidConfig := { raw := t1, wf := by decide +kernel }

/-- The reset state with build T1. -/
def fresh : State := { State.reset with cfg := build1 }

/-- The reset state with an operation in flight. -/
def flying (op : Pending) : State := { fresh with pending := some op }

/-- The lanes 0, 1, …, 11. -/
def counting : Elems := Vector.ofFn fun i => BitVec.ofNat 64 i.val

/-! ### WellFormed: an ill-formed term for each check -/

theorem test_wf_instr : (Instr.inByte 0xFF).wf = true ∧ (Instr.inByte 0x100).wf = false ∧
    (Instr.inByte 0x8000000000000000).wf = false ∧ (Instr.inWord 0xFFFFFFFFFFFFFFFF).wf = true := by decide

theorem test_wf_builds : Config.t0.wf = true ∧ t1.wf = true := by decide +kernel

theorem test_wf_counts : { t1 with halfFullRounds := 0 : Config }.countsOk = false ∧
    { t1 with partialRounds := 0 : Config }.countsOk = false ∧
    { t1 with halfFullRounds := 127, partialRounds := 1 : Config }.countsOk = false ∧
    { t1 with halfFullRounds := 126, partialRounds := 2 : Config }.countsOk = true := by decide

theorem test_wf_base : { t1 with baseAddr := 0x10008 : Config }.baseOk = false := by decide

theorem test_wf_shapes : { t1 with rcFull := [] : Config }.shapesOk = false ∧
    { t1 with mdsCirc := [1] : Config }.shapesOk = false ∧ { t1 with mdsDiag := [1] : Config }.shapesOk = false ∧
    { t1 with fpFirstRc := [] : Config }.shapesOk = false ∧ { t1 with fpInitMatrix := [] : Config }.shapesOk = false ∧
    { t1 with fpRc := [] : Config }.shapesOk = false ∧ { t1 with fpVs := [] : Config }.shapesOk = false ∧
    { t1 with fpWhats := [] : Config }.shapesOk = false := by decide +kernel

theorem test_wf_reduced : { t1 with fpRc := [0xFFFFFFFF00000001] : Config }.reducedOk = false ∧
    { t1 with fpRc := [0xFFFFFFFF00000000] : Config }.reducedOk = true := by decide +kernel

theorem test_wf_mds_rows :
    { t1 with mdsDiag := List.replicate 11 0 ++ [0xFFFFFF00] : Config }.mdsRowsOk = true ∧
    { t1 with mdsDiag := List.replicate 11 0 ++ [0xFFFFFF01] : Config }.mdsRowsOk = false := by decide +kernel

theorem test_wf_mds_corner : { t1 with mdsCirc := [0xFFFFFFFFFFFFFFFF] : Config }.mdsCornerOk = false := by decide

/-! ### Decoding: words written out from 30 R101 and R103 -/

theorem test_decode_system : decodeWrite 0x010 0x0000000000000000 = .ok .nop := by decide

theorem test_decode_field :
    decodeWrite 0x010 0x01 = .ok .fmul ∧ decodeWrite 0x010 0x02 = .ok .fsqr ∧ decodeWrite 0x010 0x03 = .ok .fadd ∧
    decodeWrite 0x010 0x04 = .ok .fsub ∧ decodeWrite 0x010 0x05 = .ok .fneg ∧ decodeWrite 0x010 0x06 = .ok .fcan ∧
    decodeWrite 0x010 0x07 = .ok .faddc ∧ decodeWrite 0x010 0x08 = .ok .fsubc ∧ decodeWrite 0x010 0x09 = .ok .feq := by
  decide

theorem test_decode_permutation :
    decodeWrite 0x010 0x10 = .ok .perm ∧ decodeWrite 0x010 0x11 = .ok .pstep := by decide

theorem test_decode_sponge :
    decodeWrite 0x010 0x20 = .ok .sinit ∧ decodeWrite 0x010 0x21 = .ok .sfinal ∧
    decodeWrite 0x068 0xFEDCBA9876543210 = .ok (.inWord 0xFEDCBA9876543210) ∧
    decodeWrite 0x070 0x00000000000000FF = .ok (.inByte 0xFF) := by decide

theorem test_decode_rejects :
    decodeWrite 0x010 0x0A = .error .undefinedOpcode ∧ decodeWrite 0x010 0x12 = .error .undefinedOpcode ∧
    decodeWrite 0x010 0x22 = .error .undefinedOpcode ∧ decodeWrite 0x010 0xFF = .error .undefinedOpcode ∧
    decodeWrite 0x010 0x0101 = .error .reservedBits ∧ decodeWrite 0x070 0x0100 = .error .reservedBits ∧
    decodeWrite 0x018 0 = .error .notAPort ∧ decodeLanes 0x010 [1, 0, 0, 0] = .error .accessSize := by decide

/-- 20 R79: lane 0 carries bits [7:0]. -/
theorem test_lanes :
    decodeLanes 0x068 [0x08, 0x07, 0x06, 0x05, 0x04, 0x03, 0x02, 0x01] = .ok (.inWord 0x0102030405060708) := by decide

theorem test_table_words :
    decodeTableWord 64 0x09 = some .feq ∧ decodeTableWord 64 0x21 = some .sfinal ∧ decodeTableWord 64 0xAA = some (.inByte 0xAA) ∧
    decodeTableWord 64 0x0102030405060708 = some (.inWord 0x0102030405060708) ∧ decodeTableWord 72 0 = none := by decide

/-- withFetchWord places the instruction so that the very next step runs it. -/
theorem test_fetch : next (step (fresh.withFetchWord 64 0x10)) (fun t => t.pending == some (.perm zeroElems)) = true := by
  decide +kernel

/-! ### Field arithmetic (95 section 2.1) -/

theorem test_reduce128 : reduce128 0xFFFFFFFFFFFFFFFE0000000000000001 = 0xFFFFFFFC00000004 ∧
    reduce128 0x80000000000000000000000000000000 = 0xFFFFFFFE80000001 ∧
    reduce128 0x00000001000000000000000000000000 = 0xFFFFFFFF00000000 ∧
    reduce128 0xFFFFFFFFFFFFFFFFFFFFFFFFFFFFFFFF = 0xFFFFFFFE00000000 := by decide +kernel

theorem test_reduce96 : reduce96 0xFFFFFFFFFFFFFFFF 0xFFFFFFFF = 0xFFFFFFFEFFFFFFFF ∧ reduce96 0 1 = 0xFFFFFFFF ∧
    reduce96 0xFFFFFFFFFFFFFFFF 0 = 0xFFFFFFFFFFFFFFFF ∧ reduce96 5 2 = 0x0000000200000003 := by decide +kernel

theorem test_reduce160 : reduce160 (BitVec.ofNat 160 (2 ^ 160 - 1)) = 0xFFFFFFFE00000001 ∧
    reduce160 (BitVec.ofNat 160 (2 ^ 128)) = 0xFFFFFFFE00000001 ∧
    reduce160 (BitVec.ofNat 160 (2 ^ 128 + 5)) = 0xFFFFFFFE00000006 ∧
    reduce160 (BitVec.ofNat 160 (12 * (2 ^ 64 - 1) ^ 2)) = 0xFFFFFFDB00000025 := by decide +kernel

theorem test_fmul_words : fmul 0xFFFFFFFF00000001 5 = 0xFFFFFFFF00000001 ∧
    fmul 0x123456789ABCDEF0 0x0FEDCBA987654321 = 0xCFAEAFD136C7BBAE ∧
    fmul 0xFFFFFFFF 0xFFFFFFFF = 0xFFFFFFFE00000001 := by decide +kernel

theorem test_two_corrections : fadd 0xFFFFFFFFFFFFFFFF 0xFFFFFFFFFFFFFFFF = 0x00000001FFFFFFFC ∧
    fsub 0 0xFFFFFFFFFFFFFFFF = 0xFFFFFFFE00000003 ∧ fadd 0xFFFFFFFF00000000 1 = 0xFFFFFFFF00000001 := by decide +kernel

theorem test_sbox : sbox 2 = 0x80 ∧ sbox 0xFFFFFFFFFFFFFFFF = 0xFFFFFFE400000037 ∧
    sbox 0xFFFFFFFF00000001 = 0xFFFFFFFF00000001 ∧ sbox 0x0000000100000000 = 0x0000000100000000 := by decide +kernel

/-! ### One step of each instruction: the access that issues it, and the Core's step that completes it -/

/-- 40 R138 protocol vector: a field command leaves BUSY = 1, having sampled FA and FB. -/
theorem test_fmul_accepts :
    next (exec .fmul { fresh with fa := 2, fb := 3 })
      (fun t => t.busy && t.pending == some (.field .fmul 2 3) && t.fr == 0 && t.event == 0) = true := by decide

theorem test_fmul_completes :
    let t := coreStep (flying (.field .fmul 0xFFFFFFFFFFFFFFFF 0xFFFFFFFFFFFFFFFF))
    t.fr = 0xFFFFFFFC00000004 ∧ t.busy = false ∧ t.event = 1 := by decide +kernel

theorem test_fsqr_completes : (coreStep (flying (.field .fsqr 0xFFFFFFFF00000000 7))).fr = 0xFFFFFFFF00000002 := by
  decide +kernel

theorem test_fadd_completes : (coreStep (flying (.field .fadd 0xFFFFFFFFFFFFFFFF 1))).fr = 0xFFFFFFFF := by decide +kernel

theorem test_fsub_completes : (coreStep (flying (.field .fsub 3 5))).fr = 0xFFFFFFFEFFFFFFFF := by decide +kernel

theorem test_fneg_completes : (coreStep (flying (.field .fneg 0xFFFFFFFF00000001 7))).fr = 0 ∧
    (coreStep (flying (.field .fneg 2 7))).fr = 0xFFFFFFFEFFFFFFFF := by decide +kernel

theorem test_fcan_completes : (coreStep (flying (.field .fcan 0xFFFFFFFFFFFFFFFF 7))).fr = 0xFFFFFFFE := by decide +kernel

/-- 95 section 2.5: FADDC with FA = 5, FB = p. -/
theorem test_faddc_notes_precond :
    next (exec .faddc { fresh with fa := 5, fb := 0xFFFFFFFF00000001 })
      (fun t => t.err == 0x40 && t.errcode == 7 && t.event == 2 && t.busy && t.resp == some (.writeDone false)) = true := by
  decide +kernel

theorem test_faddc_completes : (coreStep (flying (.field .faddc 5 0xFFFFFFFF00000001))).fr = 0xFFFFFFFF00000006 ∧
    (coreStep (flying (.field .faddc 0xFFFFFFFFFFFFFFFF 0xFFFFFFFFFFFFFFFF))).fr = 0xFFFFFFFD := by decide +kernel

theorem test_fsubc_accepts_canonical :
    next (exec .fsubc { fresh with fa := 0, fb := 0xFFFFFFFF00000000 }) (fun t => t.err == 0 && t.busy) = true := by
  decide +kernel

theorem test_fsubc_completes : (coreStep (flying (.field .fsubc 0 0xFFFFFFFFFFFFFFFF))).fr = 0xFFFFFFFF00000002 ∧
    (coreStep (flying (.field .fsubc 0 0xFFFFFFFF00000000))).fr = 1 := by decide +kernel

theorem test_feq_completes :
    let t := coreStep (flying (.field .feq 0 0xFFFFFFFF00000001))
    t.eq = true ∧ t.fr = 1 := by decide +kernel

theorem test_feq_differs :
    let t := coreStep { flying (.field .feq 0xFFFFFFFFFFFFFFFF 0xFFFFFFFEFFFFFFFF) with eq := true, fr := 9 }
    t.eq = false ∧ t.fr = 0 := by decide +kernel

/-- 95 section 2.4: `cmd NOP` gives BUSY = 1 and EVENT = 0, and after completion EVENT = 1. -/
theorem test_nop_accepts : next (exec .nop fresh) (fun t => t.busy && t.event == 0) = true := by decide

theorem test_nop_completes : (coreStep (flying .nop)).event = 1 ∧ (coreStep (flying .nop)).busy = false := by decide

/-- 95 section 2.5: PERM with STAGE = 1. -/
theorem test_perm_refused :
    next (exec .perm { fresh with stage := 1 })
      (fun t => t.err == 0x08 && t.errcode == 4 && !t.busy && t.resp == some (.writeDone false)) = true := by decide

/-- 95 section 2.2, T1 on [0..11], and PERM_CNT of 41 R194. -/
theorem test_perm_completes :
    let t := coreStep { flying (.perm counting) with permCnt := 0xFFFFFFFFFFFFFFFF, digestValid := true }
    t.elems.toList = [0xA8A9E756EF423122, 0xB65DB4671509FA72, 0xD8CDB419B2F71831, 0x53DF784B936F5BCF,
      0x8545CBD7E3EA0E55, 0x99B27B7325AA4F6E, 0xAA095978B66D9366, 0xC8A0E89F3DEEEC29, 0x1B78246EAFA32EEC,
      0x0BA5F79E56728705, 0x4B451BB1E7A77754, 0x538DDA29D814C34A] ∧ t.permCnt = 0 ∧ t.digestValid = false := by
  decide +kernel

/-- 95 section 2.2, the stage table: stage 0, and STAGE after it. -/
theorem test_pstep_first :
    let t := coreStep (flying (.pstep counting 0))
    t.elems.toList = [0x000000266CD959B0, 0x0000002CD259DE78, 0x00000023D60FFD98, 0x0000002A44E0CCB8,
      0x000000171A4844D0, 0x00000019F2E4DDB8, 0x0000001F42B2D320, 0x00000013696028B0, 0x000000240B1EE110,
      0x0000002E0D3C0480, 0x0000001BCBAD7608, 0x000000207DE3B3A0] ∧ t.stage = 1 ∧ t.permCnt = 0 := by
  decide +kernel

/-- 41 R195: the last stage counts a permutation and returns STAGE to 0. -/
theorem test_pstep_last :
    let t := coreStep { flying (.pstep counting 4) with stage := 4 }
    t.stage = 0 ∧ t.permCnt = 1 := by decide +kernel

/-- 42 R231. -/
theorem test_sinit_completes :
    let t := coreStep { flying .sinit with elems := counting, absPos := 3, absCnt := 3, squeezed := true, stage := 2, err := 4 }
    t.elems = zeroElems ∧ t.absPos = 0 ∧ t.absCnt = 0 ∧ t.squeezed = false ∧ t.stage = 0 ∧ t.err = 4 := by decide

/-- 95 section 2.5: SFINAL with BYTE_POS = 3. -/
theorem test_sfinal_refused :
    next (exec .sfinal { fresh with bytePos := 3 })
      (fun t => t.err == 0x10 && t.errcode == 5 && t.event == 2 && !t.busy) = true := by decide

/-- 95 section 2.3, the raw digest: after a full last chunk no permutation runs, and p stays p. -/
theorem test_sfinal_raw_digest :
    let t := coreStep { flying (.sfinal (counting.set 0 0xFFFFFFFF00000001) false) with
      elems := counting.set 0 0xFFFFFFFF00000001, absCnt := 8, permCnt := 1 }
    t.elems[0] = 0xFFFFFFFF00000001 ∧ t.permCnt = 1 ∧ t.squeezed = true ∧ t.digestValid = true := by decide

/-- 95 section 2.5: IN_WORD p is absorbed raw with NONCANON. -/
theorem test_in_word_noncanon :
    next (exec (.inWord 0xFFFFFFFF00000001) fresh)
      (fun t => t.elems[0] == 0xFFFFFFFF00000001 && t.absPos == 1 && t.absCnt == 1 && t.err == 0x20 && t.errcode == 6
        && !t.busy) = true := by decide +kernel

/-- 95 section 2.3: the eighth word of a chunk gives BUSY = 1 and ABS_POS = 0. -/
theorem test_in_word_eighth :
    next (exec (.inWord 8) { fresh with absPos := 7, absCnt := 7 })
      (fun t => t.busy && t.absPos == 0 && t.absCnt == 8 && t.permCnt == 0) = true := by decide +kernel

/-- 95 section 2.3: the bytes 0..7; the eighth completes the word 0x0001020304050607. -/
theorem test_in_byte_eighth :
    next (exec (.inByte 7) { fresh with bytePos := 7, byteAcc := 0x00010203040506 })
      (fun t => t.elems[0] == 0x0001020304050607 && t.absPos == 1 && t.bytePos == 0 && t.byteAcc == 0) = true := by
  decide +kernel

/-- 95 section 2.5: 0x100 to IN_BYTE. -/
theorem test_in_byte_reserved :
    next (exec (.inByte 0x100) fresh)
      (fun t => t.err == 0x01 && t.bytePos == 0 && t.resp == some (.writeDone true)) = true := by decide

/-! ### Permutation layers (95 section 2.2) -/

theorem test_constant_and_sbox_layers :
    (constantLayer t1 0 counting).toList = [1, 3, 5, 7, 9, 11, 13, 15, 17, 19, 21, 23] ∧
    (sboxLayer (constantLayer t1 0 counting))[11] = 0xCAF18367 := by decide +kernel

theorem test_mds :
    (mds t1 (zeroElems.set 0 1)).toList = [25, 20, 34, 18, 39, 13, 13, 28, 2, 16, 41, 15] ∧
    (mds t1 (Vector.replicate 12 0xFFFFFFFFFFFFFFFF))[0] = 0x00000107FFFFFDF0 ∧
    (mds t1 (Vector.replicate 12 0xFFFFFFFFFFFFFFFF))[11] = 0x000000FFFFFFFE00 := by decide +kernel

theorem test_transition :
    (stage t1 1 (zeroElems.set 1 1)).toList =
      [100, 7107, 9441, 11775, 14109, 16443, 18777, 21111, 23445, 25779, 28113, 30447] := by decide +kernel

theorem test_partial_rounds :
    (partialRound t1 0 ((Vector.replicate 12 1).set 0 0)).toList =
      [0x107, 0x8, 0xF, 0x16, 0x1D, 0x24, 0x2B, 0x32, 0x39, 0x40, 0x47, 0x4E] ∧
    (partialRound t1 1 (zeroElems.set 0 2)).toList =
      [0xC80, 0x100, 0x180, 0x200, 0x280, 0x300, 0x380, 0x400, 0x480, 0x500, 0x580, 0x600] := by decide +kernel

/-- T0 on [0..11]: lanes 2 and 11 of the table. -/
theorem test_poseidon_t0 :
    (poseidon Config.t0 counting)[2] = 0x0002000000000000 ∧ (poseidon Config.t0 counting)[11] = 0x8385C37F720534E0 := by
  decide +kernel

/-! ### Sponge digests (95 section 2.3) -/

theorem test_hash_nine : ((hashState t1 [1, 2, 3, 4, 5, 6, 7, 8, 9]).toList.take 4) =
    [0x43035D2332AB8974, 0x446648D04C2B659C, 0x7BFE993F0076F487, 0x6EA7F60A0F2FB033] := by decide +kernel

theorem test_hash_empty : ((hashState t1 []).toList.take 4) =
    [0x779E7160FC53B880, 0xA5698169D306165B, 0xC5630FB50ADB15A2, 0x414A90762BA10B82] := by decide +kernel

/-- The bytes 0..31: their words, the digest and its bytes. -/
theorem test_hash_bytes :
    digestBytes (hashState t1 (groupWords ((List.range 32).map (BitVec.ofNat 8)))) =
      [78, 157, 124, 47, 18, 105, 114, 62, 29, 51, 48, 43, 127, 6, 169, 118, 134, 118, 224, 23, 68, 9, 50, 194, 62, 175,
       234, 95, 109, 60, 16, 36] := by decide +kernel

/-! ### Registers, the bus and errors (95 sections 0, 2.4, 2.5) -/

theorem test_param : paramWord t1 = 0x000105020104080C ∧ paramWord Config.t0 = 0x000104010104080C := by decide

theorem test_status_words :
    { fresh with absPos := 1 : State }.statusWord = 0x10 ∧ { fresh with bytePos := 3 : State }.statusWord = 0x300 ∧
    { fresh with digestValid := true, squeezed := true : State }.statusWord = 0x6 ∧
    { fresh with stage := 4 : State }.statusWord = 0x40000 ∧ { fresh with eq := true : State }.statusWord = 0x8 ∧
    { fresh with err := 0x18, bytePos := 4 : State }.statusWord = 0x80000400 := by decide

theorem test_misaligned_read :
    next (hostAccess (.read 0x004 8) fresh)
      (fun t => t.err == 1 && t.errcode == 1 && t.event == 2 && t.resp == some (.readDone 0 true)) = true := by decide

theorem test_second_error_keeps_the_code :
    next (hostAccess (.read 0x004 8) { fresh with err := 4, errcode := 3, event := 2 })
      (fun t => t.err == 5 && t.errcode == 3) = true := by decide

theorem test_illegal_command :
    next (hostAccess (.write 0x010 8 0x0A) fresh)
      (fun t => t.err == 4 && t.errcode == 3 && !t.busy && t.resp == some (.writeDone false)) = true := by decide

theorem test_busy_write_dropped :
    next (hostAccess (.write 0x040 8 7) { flying (.perm counting) with fa := 3 })
      (fun t => t.fa == 3 && t.err == 2 && t.errcode == 2 && t.resp == some (.writeDone true)) = true := by decide

theorem test_clear_errors :
    next (hostAccess (.write 0x030 8 0xFF) { fresh with err := 0x18, errcode := 5 })
      (fun t => t.err == 0 && t.errcode == 0) = true := by decide

theorem test_irq : { fresh with event := 1, irqEn := 1 : State }.irq = true ∧
    { fresh with event := 1, irqEn := 2 : State }.irq = false := by decide

/-- The table readback rows of 95 section 2.4. -/
theorem test_table_readback :
    next (hostAccess (.read 0x080 8) { fresh with tblIndex := 0x00005 }) (fun t => t.resp == some (.readDone 6 false)) = true ∧
    next (hostAccess (.read 0x080 8) { fresh with tblIndex := 0x4000C }) (fun t => t.resp == some (.readDone 4 false)) = true ∧
    next (hostAccess (.read 0x080 8) { fresh with tblIndex := 0x70015 }) (fun t => t.resp == some (.readDone 15 false)) = true ∧
    next (hostAccess (.read 0x080 8) { fresh with tblIndex := 0x50001 })
      (fun t => t.resp == some (.readDone 0 false) && t.err == 0x80 && t.errcode == 8) = true ∧
    next (hostAccess (.read 0x080 8) { fresh with tblIndex := 0x80000 })
      (fun t => t.resp == some (.readDone 0 false) && t.err == 0x80) = true := by decide +kernel

theorem test_window : offsetOf t1 0x10010 = some 0x010 ∧ offsetOf t1 0x10FFF = some 0xFFF ∧ offsetOf t1 0x11000 = none ∧
    offsetOf t1 0x0FFFF = none := by decide

/-! ### Witnesses: for every obligation with hypotheses, states and operands that meet them, clause by clause -/

/-- `s` with the turns `ts` next. -/
def before (ts : List Turn) (s : State) : State := { s with schedule := ts }

/-- `s` with one full-word write next. -/
def writing (off : Offset) (v : Word) (s : State) : State := before [.host (.write off 8 v)] s

/-- The next step completes `op`. -/
def completing (op : Pending) : State := before [.core] (flying op)

/-- A check of each member of a list. -/
theorem each {α : Type} {l : List α} {P : α → Prop} [DecidablePred P] (h : l.all (fun a => decide (P a)) = true) :
    ∀ a ∈ l, P a := by simpa using h

theorem no_decoding {off : Offset} {v : Word} {e : DecodeError} (h : decodeWrite off v = .error e) (i : Instr) :
    decodeWrite off v ≠ .ok i := by simp [h]

theorem witness_StepRunsDecodedInstruction :
    let s := before [.host (.write 0x070 8 0xFF), .core] fresh
    s.inReset = false ∧ s.schedule = .host (.write 0x070 8 0xFF) :: [.core] ∧
      decodeLanes 0x070 (lanesOfWord 0xFF) = .ok (.inByte 0xFF) := by decide

theorem witness_DecodeAndEncodeAgree :
    (Instr.inByte 0xFF).wf = true ∧ Instr.sfinal.wf = true ∧ (Instr.inWord 0xFFFFFFFFFFFFFFFF).wf = true ∧
      decodeLanes 0x068 [0xFF, 0, 0, 0, 0, 0, 0, 0x80] = .ok (.inWord 0x80000000000000FF) := by decide

/-- The ends of the ranges of 30 R104. -/
theorem witness_IllegalCommandHasNoEffect : fresh.pending = none ∧
    ∀ v ∈ [(0x0A : Word), 0x0F, 0x12, 0x1F, 0x22, 0xFF, 0x100, 0x8000000000000001], ∀ i : Instr, decodeWrite 0x010 v ≠ .ok i := by
  refine ⟨rfl, fun v hv => ?_⟩
  have : (∃ e, decodeWrite 0x010 v = .error e) := by
    simp only [List.mem_cons, List.not_mem_nil, or_false] at hv
    rcases hv with rfl | rfl | rfl | rfl | rfl | rfl | rfl | rfl <;> exact ⟨_, rfl⟩
  exact no_decoding this.choose_spec

/-- The words next to those ranges decode. -/
theorem witness_legal_commands : ∃ i : Instr, decodeWrite 0x010 0x09 = .ok i ∧ ∃ j : Instr, decodeWrite 0x010 0x10 = .ok j ∧
    ∃ k : Instr, decodeWrite 0x010 0x11 = .ok k ∧ ∃ l : Instr, decodeWrite 0x010 0x20 = .ok l ∧
    ∃ m : Instr, decodeWrite 0x010 0x21 = .ok m := ⟨_, rfl, _, rfl, _, rfl, _, rfl, _, rfl⟩

theorem witness_InByteReservedBitsAreRefused :
    fresh.pending = none ∧ (0x100 : Word) >>> 8 ≠ 0 ∧ (0x8000000000000000 : Word) >>> 8 ≠ 0 := by decide

theorem witness_ResetValuesHold :
    let s := before [.resetRelease] { fresh with inReset := true, fa := 5, err := 3 }
    s.inReset = true ∧ s.schedule = .resetRelease :: [] := by decide

theorem witness_AssertedResetStopsTheBlock :
    (let s := before [.resetAssert] (flying (.perm counting))
     s.schedule = .resetAssert :: [] ∧ ∃ t : State, step s = .next t) ∧
    (let s := writing 0x040 7 { fresh with inReset := true }
     s.inReset = true ∧ s.schedule = .host (.write 0x040 8 7) :: []) ∧
    (let s := before [.core] { fresh with inReset := true }
     s.inReset = true ∧ s.schedule = .core :: []) := ⟨⟨rfl, _, rfl⟩, by decide, by decide⟩

/-- A repeated error of the first and of the last kind; a bit cleared by W1C, and one cleared by reset. -/
theorem witness_RecordedErrorsStick :
    ({ fresh with err := 0x81, errcode := 1 : State }.err.getLsbD (ErrorCode.access.code.toNat - 1) = true ∧
      { fresh with err := 0x81, errcode := 1 : State }.err.getLsbD (ErrorCode.table.code.toNat - 1) = true) ∧
    (∃ t : State, step (writing 0x030 0x80 { fresh with err := 0x81, errcode := 1 }) = .next t ∧ t.err.getLsbD 7 = false) ∧
    (∃ t : State, step (before [.resetAssert] { fresh with err := 0x01, errcode := 1 }) = .next t ∧
      t.err.getLsbD 0 = false) := ⟨by decide, ⟨_, rfl, by decide⟩, ⟨_, rfl, by decide⟩⟩

theorem witness_EventsStayPending :
    (∃ t : State, step (writing 0x020 1 { fresh with event := 3 }) = .next t ∧ t.event.getLsbD 0 = false) ∧
    (∃ t : State, step (before [.resetRelease] { fresh with event := 3, inReset := true }) = .next t ∧
      t.event.getLsbD 1 = false) ∧
    (completing .nop).pending = some .nop ∧ (completing .nop).coreMoves ∧ (flying .sinit).coreMoves :=
  ⟨⟨_, rfl, by decide⟩, ⟨_, rfl, by decide⟩, rfl, ⟨rfl, .inr ⟨[], rfl⟩⟩, ⟨rfl, .inl rfl⟩⟩

/-- A read, a full-word write, and a narrow write at a W1C register, which clears nothing. -/
theorem witness_OneErrorPerAccess : ∀ a ∈ [BusAccess.read 0x004 8, .write 0x040 8 7, .write 0x030 4 7],
    ∀ off v, a = .write off 8 v → off ≠ 0x020 ∧ off ≠ 0x030 := by
  intro a ha off v h
  subst h
  simp only [List.mem_cons, List.not_mem_nil, or_false, BusAccess.write.injEq, reduceCtorEq, false_or] at ha
  rcases ha with ⟨rfl, -, -⟩ | ⟨-, h, -⟩
  · decide
  · exact absurd h (by decide)

theorem witness_WritesWhileBusyAreDropped :
    (flying (.perm counting)).pending ≠ none ∧ (0x078 : Offset) ∈ [(0x010 : Offset), 0x040, 0x048, 0x068, 0x070, 0x078] := by
  decide

theorem witness_AccessesDoNotDisturbTheOperationInFlight :
    let s := before [.host (.read 0x050 8), .core] (flying (.perm counting))
    s.pending ≠ none ∧ s.inReset = false ∧ s.schedule = .host (.read 0x050 8) :: [.core] := by decide

/-- With accesses before the Core's turn, and with nothing scheduled. -/
theorem witness_EveryAcceptedOperationCompletes :
    (let s := before [.host (.read 0x018 8), .resetRelease, .host (.write 0x030 8 1), .core] (flying .sinit)
     s.inReset = false ∧ s.pending = some .sinit ∧ ∀ t ∈ s.schedule, t ≠ .resetAssert) ∧
    ((flying .nop).inReset = false ∧ (flying .nop).pending = some .nop ∧ ∀ t ∈ (flying .nop).schedule, t ≠ .resetAssert) := by
  decide

theorem witness_BusySetByAcceptanceClearedByCompletion :
    (∃ t : State, step (writing 0x010 0 fresh) = .next t ∧ t.busy = true) ∧
    (∃ t : State, step (writing 0x068 1 { fresh with absPos := 7 }) = .next t ∧ t.busy = true) ∧
    (∃ t : State, step (writing 0x070 1 { fresh with absPos := 7, bytePos := 7 }) = .next t ∧ t.busy = true) ∧
    (completing .nop).busy = true ∧ (∃ t : State, step (completing .nop) = .next t ∧ t.busy = false) ∧
    (∃ t : State, step (before [.resetAssert] (flying .nop)) = .next t ∧ t.busy = false) :=
  ⟨⟨_, rfl, by decide +kernel⟩, ⟨_, rfl, by decide +kernel⟩, ⟨_, rfl, by decide +kernel⟩, rfl, ⟨_, rfl, by decide⟩,
    ⟨_, rfl, by decide⟩⟩

/-- The ends of the window's holes and the offsets next to them. -/
theorem witness_BadAccessesRecordAccess :
    (∀ off ∈ [(0x001 : Offset), 0x004, 0x007, 0x088, 0x0F8, 0x160, 0xFF8, 0xFFF],
      off.toNat % 8 ≠ 0 ∨ (0x088 ≤ off.toNat ∧ off.toNat < 0x100) ∨ 0x160 ≤ off.toNat) ∧
    (∀ off ∈ [(0x000 : Offset), 0x080, 0x100, 0x158],
      ¬ (off.toNat % 8 ≠ 0 ∨ (0x088 ≤ off.toNat ∧ off.toNat < 0x100) ∨ 0x160 ≤ off.toNat)) ∧
    (4 : Nat) ≠ 8 ∧ (16 : Nat) ≠ 8 ∧ (0x080 : Offset) ∈ [(0x000 : Offset), 0x008, 0x018, 0x038, 0x050, 0x058, 0x060, 0x080] ∧
    (0x070 : Offset) ∈ [(0x010 : Offset), 0x068, 0x070] :=
  ⟨each (by decide), each (by decide), by decide, by decide, by decide, by decide⟩

theorem witness_IdleReadsAnswerTheRegister : { fresh with fa := 5, elems := counting : State }.pending = none := by decide

theorem witness_StatusFieldsReadAtTheirPlaces : { fresh with stage := 4, absPos := 7, eq := true : State }.pending = none := by
  decide

theorem witness_BusyReadsChangeNothing : (flying (.perm counting)).pending ≠ none ∧
    (0x050 : Offset) ∈ [(0x050 : Offset), 0x058, 0x060] ∧ (0x158 : Offset) = BitVec.ofNat 12 (0x100 + 8 * (11 : Fin 12).val) := by
  decide

/-- The first and the last entry of the first and of the last table; just past them; past the last table. -/
theorem witness_TableReadback :
    t1.rcFull[0]? = some 1 ∧ t1.rcFull[47]? = some 48 ∧ t1.fpWhats[21]? = some 15 ∧
    (0x70015 / 2 ^ 16 = 7 ∧ 0x70015 % 2 ^ 16 = 21) ∧ t1.rcFull.length ≤ 48 ∧ t1.fpWhats.length ≤ 22 ∧
    8 ≤ { fresh with tblIndex := 0x80000 : State }.tblIndex.toNat / 2 ^ 16 := by decide +kernel

theorem witness_IdleWritesStoreTheWord :
    fresh.pending = none ∧ (0xFFFFF : Word).toNat < 2 ^ 20 ∧ 2 ^ 20 ≤ (0x100000 : Word).toNat := by decide

theorem witness_RegistersHaveTheirWritersOnly :
    (∃ t : State, step (writing 0x040 7 fresh) = .next t ∧ t.fa ≠ fresh.fa) ∧
    (∃ t : State, step (writing 0x048 7 fresh) = .next t ∧ t.fb ≠ fresh.fb) ∧
    (∃ t : State, step (completing (.field .fadd 2 3)) = .next t ∧ t.fr ≠ fresh.fr) ∧
    (∃ t : State, step (writing 0x028 3 fresh) = .next t ∧ t.irqEn ≠ fresh.irqEn) ∧
    (∃ t : State, step (writing 0x078 5 fresh) = .next t ∧ t.tblIndex ≠ fresh.tblIndex) ∧
    (∃ t : State, step (before [.resetAssert] { fresh with fa := 1, fb := 1, fr := 1, irqEn := 1, tblIndex := 1 }) = .next t ∧
      t.fa ≠ 1 ∧ t.fb ≠ 1 ∧ t.fr ≠ 1 ∧ t.irqEn ≠ 1 ∧ t.tblIndex ≠ 1) :=
  ⟨⟨_, rfl, by decide⟩, ⟨_, rfl, by decide⟩, ⟨_, rfl, by decide⟩, ⟨_, rfl, by decide⟩, ⟨_, rfl, by decide⟩,
    ⟨_, rfl, by decide⟩⟩

theorem witness_StatusBitsHaveTheirWritersOnly :
    (∃ t : State, step (completing (.sfinal counting false)) = .next t ∧ t.digestValid = true ∧ t.squeezed = true) ∧
    (∃ t : State, step { completing .sinit with squeezed := true, stage := 3 } = .next t ∧ t.squeezed = false ∧ t.stage ≠ 3) ∧
    (∃ t : State, step (completing (.field .feq 1 1)) = .next t ∧ t.eq = true) ∧
    (∃ t : State, step (completing (.pstep counting 0)) = .next t ∧ t.stage ≠ 0) ∧
    (∃ t : State, step (completing (.sfinal counting true)) = .next t ∧ t.elems ≠ zeroElems ∧ t.digestValid = true) ∧
    (∃ t : State, step (before [.resetAssert] { fresh with squeezed := true, stage := 3, eq := true }) = .next t ∧
      t.squeezed = false ∧ t.eq = false ∧ t.stage ≠ 3) :=
  ⟨⟨_, rfl, by decide⟩, ⟨_, rfl, by decide⟩, ⟨_, rfl, by decide⟩, ⟨_, rfl, by decide +kernel⟩, ⟨_, rfl, by decide +kernel⟩,
    ⟨_, rfl, by decide⟩⟩

/-- DIGEST_VALID cleared by each kind of clearer. -/
theorem witness_digest_clearers :
    (∃ t : State, step { completing (.perm counting) with digestValid := true } = .next t ∧ t.digestValid = false) ∧
    (∃ t : State, step { completing .sinit with digestValid := true } = .next t ∧ t.digestValid = false) ∧
    (∃ t : State, step (writing 0x158 7 { fresh with digestValid := true }) = .next t ∧ t.digestValid = false ∧
      t.elems ≠ zeroElems) ∧
    (∃ t : State, step (writing 0x068 7 { fresh with digestValid := true }) = .next t ∧ t.digestValid = false ∧
      t.elems ≠ zeroElems ∧ t.absPos ≠ 0) ∧
    (∃ t : State, step (before [.resetAssert] { fresh with digestValid := true }) = .next t ∧ t.digestValid = false) :=
  ⟨⟨_, rfl, by decide +kernel⟩, ⟨_, rfl, by decide⟩, ⟨_, rfl, by decide⟩, ⟨_, rfl, by decide +kernel⟩, ⟨_, rfl, by decide⟩⟩

/-- An idle write to the last STATE register, an absorbed word, and the byte that completes a group. -/
theorem witness_element_writers :
    ((writing 0x158 7 fresh).pending = none ∧ (0x158 : Offset) = BitVec.ofNat 12 (0x100 + 8 * (11 : Fin 12).val) ∧
      (writing 0x158 7 fresh).hostWrites 0x158 7) ∧
    (writing 0x068 7 fresh).absorbsElement ∧ (writing 0x070 0xFF { fresh with bytePos := 7 }).absorbsElement ∧
    ¬ (writing 0x070 0xFF { fresh with bytePos := 6 }).absorbsElement :=
  ⟨⟨rfl, rfl, rfl, [], rfl⟩, ⟨rfl, rfl, rfl, .inl ⟨rfl, 7, rfl, [], rfl⟩⟩, ⟨rfl, rfl, rfl, .inr ⟨rfl, 0xFF, by decide, rfl, [], rfl⟩⟩,
    by rintro ⟨-, -, -, ⟨h, -⟩ | ⟨h, -⟩⟩ <;> exact absurd h (by decide)⟩

/-- ABS_POS and BYTE_POS written. -/
theorem witness_position_writers :
    (∃ t : State, step { completing (.sfinal counting true) with absPos := 3 } = .next t ∧ t.absPos ≠ 3) ∧
    (∃ t : State, step { completing .sinit with absPos := 3, bytePos := 2, byteAcc := 9 } = .next t ∧ t.absPos ≠ 3 ∧
      t.bytePos ≠ 2 ∧ t.byteAcc ≠ 9) ∧
    (∃ t : State, step (writing 0x070 1 fresh) = .next t ∧ t.bytePos ≠ 0 ∧ t.byteAcc ≠ 0) :=
  ⟨⟨_, rfl, by decide⟩, ⟨_, rfl, by decide⟩, ⟨_, rfl, by decide⟩⟩

theorem witness_CountersCountWhatTheyName :
    (∀ op ∈ [Pending.perm counting, .chunkPerm counting, .sfinal counting true, .sfinal counting false, .pstep counting 0,
        .pstep counting 4, .sinit, .nop, .field .fmul 1 2],
      (completing op).pending = some op ∧ (completing op).inReset = false ∧ (completing op).schedule = [.core]) ∧
    (fresh.pending = none ∧ ¬ fresh.resetMoves ∧ ¬ fresh.absorbsElement ∧ ¬ (fresh.pending = some .sinit ∧ fresh.coreMoves) ∧
      ∃ t : State, step fresh = .next t) ∧
    ((completing .sinit).pending = some .sinit ∧ (completing .sinit).coreMoves) ∧
    (¬ (before [.host (.read 0x060 8)] (flying .nop)).coreMoves ∧ ¬ (before [.host (.read 0x060 8)] (flying .nop)).resetMoves) ∧
    (∃ t : State, step (writing 0x068 1 fresh) = .next t ∧ t.absCnt ≠ fresh.absCnt) ∧
    (∃ t : State, step (writing 0x070 1 { fresh with bytePos := 7, absCnt := 0xFFFFFFFFFFFFFFFF }) = .next t ∧
      t.absCnt ≠ 0xFFFFFFFFFFFFFFFF) ∧
    (∃ t : State, step { completing .sinit with absCnt := 3 } = .next t ∧ t.absCnt ≠ 3) ∧
    (∃ t : State, step (before [.resetAssert] { fresh with absCnt := 3 }) = .next t ∧ t.absCnt ≠ 3) :=
  ⟨by decide,
    ⟨rfl, by simp [State.resetMoves, fresh, State.reset], by simp [State.absorbsElement, State.hostWrites, fresh, State.reset],
      by simp [fresh, State.reset], _, rfl⟩,
    ⟨rfl, rfl, .inr ⟨[], rfl⟩⟩,
    ⟨by simp [State.coreMoves, before], by simp [State.resetMoves, before]⟩, ⟨_, rfl, by decide +kernel⟩,
    ⟨_, rfl, by decide +kernel⟩, ⟨_, rfl, by decide⟩, ⟨_, rfl, by decide⟩⟩

theorem witness_NopOnlySetsDone : fresh.pending = none ∧ (flying .nop).pending ≠ none ∧
    (0x100 : Word).setWidth 8 = (0x00 : Word).setWidth 8 ∧ (0x100 : Word) >>> 8 ≠ 0 := by decide

/-- FB on both sides of p. -/
theorem witness_FieldCommandsWriteTheirResult :
    (∀ b ∈ [(0xFFFFFFFF00000000 : Word), 0xFFFFFFFF00000001], { fresh with fb := b : State }.pending = none) ∧
    (0xFFFFFFFF00000000 : Word).toNat < fieldOrder ∧ fieldOrder ≤ (0xFFFFFFFF00000001 : Word).toNat ∧
    ∀ op ∈ [FieldOp.fmul, .fsqr, .fadd, .fsub, .fneg, .fcan, .faddc, .fsubc, .feq],
      (flying (.field op 5 7)).pending = some (.field op 5 7) := ⟨fun _ _ => rfl, by decide, by decide, fun _ _ => rfl⟩

theorem witness_UncheckedCommandsNotePrecond :
    { fresh with fb := 0xFFFFFFFF00000001 : State }.pending = none ∧
    (flying (.field .faddc 0xFFFFFFFFFFFFFFFF 1)).pending = some (.field .faddc 0xFFFFFFFFFFFFFFFF 1) ∧
    (flying (.field .fsubc 0 1)).pending = some (.field .fsubc 0 1) ∧ (0xFFFFFFFF00000000 : Word).toNat < fieldOrder := by
  decide

theorem witness_CanonIsTheResidue : (0xFFFFFFFF00000000 : Word).toNat < fieldOrder := by decide

theorem witness_ArithmeticIsCongruent : (0xFFFFFFFF00000000 : Word).toNat < fieldOrder := by decide

/-- T1 has HF = 1 and PR = 2: a stage of each kind, at both ends of the partial rounds; the ends of a table. -/
theorem witness_PermutationIsTheRoundSequence :
    0 < t1.halfFullRounds ∧ 1 = t1.halfFullRounds ∧
    (t1.halfFullRounds + 1 ≤ 2 ∧ 3 < t1.halfFullRounds + 1 + t1.partialRounds) ∧
    (t1.halfFullRounds + 1 + t1.partialRounds ≤ 4 ∧ 4 < t1.nstage) ∧
    (t1.entries .rcFull)[0]? = some 1 ∧ (t1.entries .rcFull)[47]? = some 48 := by decide

/-- p and 0 in lane 0, and 2^64 − 1 and ε − 1 in lane 11. -/
theorem witness_PermutationIsCanonicallyDetermined : canonEq (zeroElems.set 0 0xFFFFFFFF00000001) zeroElems ∧
    canonEq (counting.set 11 0xFFFFFFFFFFFFFFFF) (counting.set 11 0xFFFFFFFE) := by
  refine ⟨fun i => ?_, fun i => ?_⟩ <;> revert i <;> decide

theorem witness_PermRunsTheWholePermutation :
    (fresh.pending = none ∧ fresh.stage = 0) ∧ (∀ n ∈ [(1 : BitVec 8), 4], { fresh with stage := n : State }.pending = none ∧ n ≠ 0) ∧
    (flying (.perm counting)).pending = some (.perm counting) := by decide

theorem witness_PstepRunsOneStage :
    (fresh.pending = none ∧ fresh.stage = 0) ∧ (flying (.pstep counting 4)).pending = some (.pstep counting 4) ∧
    (4 : BitVec 8).toNat + 1 = fresh.nstage ∧ (3 : BitVec 8).toNat + 1 ≠ fresh.nstage := by decide

theorem witness_SinitStartsAFreshSponge :
    { fresh with stage := 3, squeezed := true, bytePos := 2 : State }.pending = none ∧
    { flying .sinit with stage := 3, absCnt := 9 : State }.pending = some .sinit := by decide

/-- Each reason to refuse alone; w on both sides of p; the last position of a chunk. -/
theorem witness_InWordAbsorbsOneElement :
    (let s := { fresh with stage := 1 : State }; s.pending = none ∧ s.stage ≠ 0) ∧
    (let s := { fresh with squeezed := true : State }; s.pending = none ∧ s.squeezed = true) ∧
    (let s := { fresh with bytePos := 1 : State }; s.pending = none ∧ s.bytePos ≠ 0) ∧
    (let s := { fresh with absPos := 7 : State }
     s.pending = none ∧ s.stage = 0 ∧ s.squeezed = false ∧ s.bytePos = 0 ∧ s.absPos = 7) ∧
    (0xFFFFFFFF00000000 : Word).toNat < fieldOrder ∧ fieldOrder ≤ (0xFFFFFFFF00000001 : Word).toNat ∧
    (flying (.chunkPerm counting)).pending = some (.chunkPerm counting) ∧ (flying (.chunkPerm counting)).digestValid = false := by
  decide

theorem witness_InByteCollectsAGroup :
    (fresh.pending = none ∧ (0x100 : Word) >>> 8 ≠ 0) ∧
    (let s := { fresh with stage := 1 : State }; s.pending = none ∧ s.stage ≠ 0) ∧
    (let s := { fresh with squeezed := true : State }; s.pending = none ∧ s.squeezed = true) ∧
    ∀ n ∈ [(0 : BitVec 3), 6, 7], let s := { fresh with bytePos := n : State }
      s.pending = none ∧ s.stage = 0 ∧ s.squeezed = false ∧ (n ≠ 7 ∨ s.bytePos = 7) := by decide

theorem witness_EightBytesAreOneWord :
    fresh.pending = none ∧ fresh.stage = 0 ∧ fresh.squeezed = false ∧ fresh.bytePos = 0 ∧ fresh.byteAcc = 0 := by decide

theorem witness_SequencingIsRefused :
    (let s := { fresh with stage := 1 : State }; s.pending = none ∧ s.stage ≠ 0 ∧ (0xFF : Word).toNat < 256) ∧
    (let s := { fresh with squeezed := true : State }; s.pending = none ∧ s.squeezed = true) ∧
    (let s := { fresh with bytePos := 7 : State }
     s.pending = none ∧ s.bytePos ≠ 0 ∧ s.stage = 0 ∧ s.squeezed = false) := by decide

/-- Each reason to refuse alone; an empty sponge, a short chunk and full chunks only. -/
theorem witness_SfinalSqueezesTheDigest :
    (let s := { fresh with stage := 1 : State }; s.pending = none ∧ s.stage ≠ 0) ∧
    (let s := { fresh with squeezed := true : State }; s.pending = none ∧ s.squeezed = true) ∧
    (let s := { fresh with bytePos := 1 : State }
     s.pending = none ∧ s.stage = 0 ∧ s.squeezed = false ∧ s.bytePos ≠ 0) ∧
    (∀ s ∈ [fresh, { fresh with absPos := 1, absCnt := 1 }, { fresh with absCnt := 8 }],
      s.pending = none ∧ s.stage = 0 ∧ s.squeezed = false ∧ s.bytePos = 0) ∧
    (flying (.sfinal counting true)).pending = some (.sfinal counting true) ∧
    (flying (.sfinal counting false)).pending = some (.sfinal counting false) := by decide

/-- Nine words with two polls after each instruction, and none. -/
theorem witness_HostSequenceComputesTheHash :
    (let s := before (Asm.hash 2 [1, 2, 3, 4, 5, 6, 7, 8, 9] ++ [.host (.read 0x100 8)]) { fresh with stage := 2, fa := 7 }
     s.Idle ∧ [(1 : Word), 2, 3, 4, 5, 6, 7, 8, 9].length < 2 ^ 64 ∧
       s.schedule = Asm.hash 2 [1, 2, 3, 4, 5, 6, 7, 8, 9] ++ [.host (.read 0x100 8)] ∧
       ∀ w ∈ [(1 : Word), 2, 3, 4, 5, 6, 7, 8, 9], w.toNat < fieldOrder) ∧
    (let s := before (Asm.hash 0 []) fresh
     s.Idle ∧ ([] : List Word).length < 2 ^ 64 ∧ s.schedule = Asm.hash 0 [] ++ []) :=
  ⟨⟨⟨rfl, rfl⟩, by decide, rfl, each (by decide)⟩, ⟨rfl, rfl⟩, by decide, rfl⟩

theorem witness_DigestIsCanonicallyDetermined :
    List.Forall₂ (fun w v : Word => w.toNat % fieldOrder = v.toNat % fieldOrder) [0xFFFFFFFF00000001, 5] [0, 5] :=
  .cons (by decide) (.cons (by decide) .nil)

/-- A state with a partial chunk, and one with a stage in flight; each steps to a next state. -/
theorem witness_EveryStepKeepsTheInvariant :
    (let s := writing 0x070 9 { fresh with absPos := 3, absCnt := 11, bytePos := 2, byteAcc := 0xFFFF }
     s.Inv ∧ ∃ t : State, step s = .next t) ∧
    (let s := before [.core] { flying (.pstep counting 4) with elems := counting, stage := 4 }
     s.Inv ∧ ∃ t : State, step s = .next t) := by
  refine ⟨⟨⟨by decide, by decide, by decide, by decide, by decide, by decide, ?_, by decide⟩, _, rfl⟩,
    ⟨⟨by decide, by decide, by decide, by decide, by decide, by decide, ?_, by decide⟩, _, rfl⟩⟩
  · intro op h
    exact absurd h (by simp [writing, before, fresh, State.reset])
  · intro op h
    obtain rfl : Pending.pstep counting 4 = op := Option.some.inj h
    exact ⟨rfl, rfl⟩

end Sys2Proof.Tests
end

section
/-! PROOF. The values after reset (10 R59, 70 R320): O6. -/

namespace Sys2Proof.Machine

/-- The registers and the hidden state of 10 R59 at their reset values, and the interrupt line low. -/
def State.Cleared (t : State) : Prop :=
  t.fa = 0 ∧ t.fb = 0 ∧ t.fr = 0 ∧ (∀ i : Fin 12, t.elems[i] = 0) ∧ t.busy = false ∧ t.digestValid = false ∧
  t.squeezed = false ∧ t.eq = false ∧ t.absPos = 0 ∧ t.bytePos = 0 ∧ t.stage = 0 ∧ t.event = 0 ∧ t.irqEn = 0 ∧
  t.err = 0 ∧ t.errcode = 0 ∧ t.absCnt = 0 ∧ t.permCnt = 0 ∧ t.tblIndex = 0 ∧ t.byteAcc = 0 ∧ t.pending = none ∧
  t.irq = false

@[simp] theorem zeroElems_getElem (n : Nat) (h : n < 12) : zeroElems[n] = 0 := by
  simp [zeroElems]

theorem irq_eq_false_of_event {s : State} (h : s.event = 0) : s.irq = false := by
  simp [State.irq, h]

theorem clearRegs_cleared (s : State) : (clearRegs s).Cleared := by
  have hirq : (clearRegs s).irq = false := irq_eq_false_of_event (clearRegs_event s)
  simp [State.Cleared, hirq]

/-- The reset state is its own clearing, so what holds of every cleared state holds of it. -/
theorem reset_cleared : State.reset.Cleared :=
  clearRegs_cleared State.reset

theorem step_released {s : State} {rest : List Turn} (hs : s.schedule = .resetRelease :: rest) (hr : s.inReset = true) :
    step s = .next (clearRegs { s with schedule := rest, inReset := false }) := by
  simp [step, hs, takeTurn, hr]

/-- ID is a constant and PARAM a function of the build, so both stay where the build does (10 R33, R34). -/
theorem regValue_id_param_of_cfg {s t : State} (h : t.cfg = s.cfg) :
    t.regValue .id = s.regValue .id ∧ t.regValue .param = s.regValue .param := by
  simp [State.regValue, h]

/-- Settles O6: the release clears every register and keeps the build, and State.reset is a cleared state. -/
theorem resetValuesHold : Obligations.ResetValuesHold := by
  refine ⟨reset_cleared, fun s rest hr hs => ?_⟩
  have hcfg : (clearRegs { s with schedule := rest, inReset := false }).cfg = s.cfg := clearRegs_cfg _
  exact ⟨_, step_released hs hr, clearRegs_cleared _, rfl, rfl, hcfg, regValue_id_param_of_cfg hcfg⟩

end Sys2Proof.Machine
end

section
/-! PROOF. The opcodes that no row of 30 R103 names, as ranges, and the writes refused for their format (30 R104, R105): O4,
O5. -/

namespace Sys2Proof

/-- A lookup finds nothing exactly when no key of the table is the one looked up. -/
theorem tableLookup_eq_none_iff {α : Type} (k : Nat) (l : List (Nat × α)) :
    tableLookup k l = none ↔ ∀ entry ∈ l, k ≠ entry.1 := by
  induction l with
  | nil => simp [tableLookup]
  | cons entry rest ih =>
    obtain ⟨key, a⟩ := entry
    by_cases hk : k = key
    · simp [tableLookup, hk]
    · rw [tableLookup, if_neg hk, ih, List.forall_mem_cons]
      exact (and_iff_right hk).symm

/-- The numbers that are no opcode of 30 R103, as 30 R104 lists them. -/
theorem opcodeMap_lookup_eq_none_iff (n : Nat) : tableLookup n opcodeMap = none ↔
    (0x0A ≤ n ∧ n ≤ 0x0F) ∨ (0x12 ≤ n ∧ n ≤ 0x1F) ∨ 0x22 ≤ n := by
  simp only [tableLookup_eq_none_iff, opcodeMap, List.forall_mem_cons, List.not_mem_nil, false_implies, implies_true,
    and_true]
  omega

/-- A CMD word decodes to nothing when a reserved bit is set, and else exactly when its opcode is not in the map. -/
theorem decodeCmd_ne_ok_iff (v : Word) : (∀ i : Instr, decodeCmd v ≠ .ok i) ↔
    v >>> 8 ≠ 0 ∨ tableLookup (v.toNat % 256) opcodeMap = none := by
  by_cases hres : v >>> 8 = 0
  · cases hlook : tableLookup (v.toNat % 256) opcodeMap <;> simp [decodeCmd, hres, hlook]
  · exact iff_of_true (Machine.decodeWrite_cmd_reserved v hres) (.inl hres)

theorem decodeWrite_inByte_reserved {v : Word} (hv : v >>> 8 ≠ 0) : decodeWrite 0x070 v = .error .reservedBits :=
  show decodeInByte v = .error .reservedBits from if_pos hv

end Sys2Proof

namespace Sys2Proof.Machine

/-- A write to an idle port that decodes to no instruction is aborted with the port's own error (30 R106). -/
theorem writePort_rejected {s : State} {off : Offset} {v : Word} {e : DecodeError} (hidle : s.pending = none)
    (hdec : decodeWrite off v = .error e) : writePort off v s = .next (abortWrite (rejectionCode off) s) := by
  have hcheck : firstFailing [(s.busy, .busy), (true, rejectionCode off)] = some (rejectionCode off) := by
    simp [hidle]
  simp only [writePort, hdec, guardedWrite_fail hcheck]

/-- At the bus, the reserved bits make the IN_BYTE write no instruction (30 R105). -/
theorem inByte_write_reserved {s : State} {v : Word} (hidle : s.pending = none) (hv : v >>> 8 ≠ 0) :
    hostAccess (.write 0x070 8 v) s = .next (abortWrite .access s) :=
  calc hostAccess (.write 0x070 8 v) s
    _ = writePort 0x070 v s := busWrite_offset .inByte v s
    _ = .next (abortWrite .access s) := writePort_rejected hidle (decodeWrite_inByte_reserved hv)

/-- The instruction checks the reserved bits itself, before its sequencing checks (42 R235). -/
theorem exec_inByte_reserved {s : State} {v : Word} (hidle : s.pending = none) (hv : v >>> 8 ≠ 0) :
    exec (.inByte v) s = .next (abortWrite .access s) := by
  have hformat : (v >>> 8 != 0) = true := bne_iff_ne.2 hv
  refine congrArg _ (guardedWrite_fail ?_ (absorbByte (dataByte v)) s)
  simp only [firstFailing_cons, (busy_eq_false s).2 hidle, hformat, if_true, Bool.false_eq_true, if_false]

/-- Settles O4: the words that decode to nothing are those outside the opcode map, which are the listed ranges. -/
theorem illegalCommandHasNoEffect : Obligations.IllegalCommandHasNoEffect := by
  refine ⟨fun v => ?_, cmd_write_illegal⟩
  rw [← opcodeMap_lookup_eq_none_iff]
  exact (decodeCmd_ne_ok_iff v).symm

/-- Settles O5: the decoder refuses the word at the bus, and the instruction's own check refuses it at `exec`. -/
theorem inByteReservedBitsAreRefused : Obligations.InByteReservedBitsAreRefused :=
  fun _ _ hidle hv => ⟨inByte_write_reserved hidle hv, exec_inByte_reserved hidle hv⟩

end Sys2Proof.Machine
end

section
/-! PROOF. What canon, fadd, fsub and the 128-bit reduction return, as numbers (40 R131-R135, R139, R140): O31, O32, O33,
O34. A correction that fires is the wraparound of the sum or difference corrected so far, so it takes or gives one p. -/

namespace Sys2Proof.Machine

theorem pWord_toNat_eq : pWord.toNat = fieldOrder := rfl

/-- At most one p fits in a word, so the one subtraction of canon is enough. -/
theorem canon_toNat (x : Word) : (canon x).toNat = x.toNat % fieldOrder := by
  have hp := fieldOrder_val
  have hx := x.isLt
  by_cases hge : fieldOrder ≤ x.toNat
  · rw [canon, pWord_toNat_eq, if_pos hge, BitVec.toNat_sub_of_le hge, pWord_toNat_eq, Nat.mod_eq_sub_mod hge,
      Nat.mod_eq_of_lt (by omega)]
  · rw [canon, pWord_toNat_eq, if_neg hge, Nat.mod_eq_of_lt (Nat.lt_of_not_le hge)]

theorem canon_eq_self {x : Word} (h : x.toNat < fieldOrder) : canon x = x :=
  BitVec.eq_of_toNat_eq (by rw [canon_toNat, Nat.mod_eq_of_lt h])

theorem canon_toNat_lt (x : Word) : (canon x).toNat < fieldOrder := by
  rw [canon_toNat]
  exact Nat.mod_lt _ (by decide)

/-- Settles O31: canon is the residue, which is below p, where canon does nothing. -/
theorem canonIsTheResidue : Obligations.CanonIsTheResidue :=
  fun x => ⟨canon_toNat x, canon_eq_self (canon_toNat_lt x), canon_eq_self⟩

theorem fadd_toNat (a b : Word) :
    (fadd a b).toNat =
      if a.toNat + b.toNat < 2 ^ 64 then a.toNat + b.toNat
      else if a.toNat + b.toNat - fieldOrder < 2 ^ 64 then a.toNat + b.toNat - fieldOrder
      else a.toNat + b.toNat - 2 * fieldOrder := by
  have hp := fieldOrder_val
  simp only [fadd, BitVec.toNat_add, epsIf_toNat, carry64_iff]
  by_cases hcarry : 2 ^ 64 ≤ a.toNat + b.toNat
  · rw [if_pos hcarry, if_neg (Nat.not_lt.2 hcarry)]
    split <;> split <;> omega
  · rw [if_neg hcarry, if_pos (Nat.lt_of_not_le hcarry)]
    split <;> omega

theorem fadd_comm (a b : Word) : fadd a b = fadd b a :=
  BitVec.eq_of_toNat_eq (by rw [fadd_toNat, fadd_toNat, Nat.add_comm])

/-- Settles O32: the second correction fires exactly when a + b - p still does not fit in a word. -/
theorem faddRawWord : Obligations.FaddRawWord :=
  fun a b => ⟨fadd_toNat a b, fadd_comm a b⟩

theorem fsub_toNat (a b : Word) :
    ((fsub a b).toNat : Int) =
      if b.toNat ≤ a.toNat then (a.toNat : Int) - b.toNat
      else if b.toNat ≤ a.toNat + fieldOrder then (a.toNat : Int) - b.toNat + fieldOrder
      else (a.toNat : Int) - b.toNat + 2 * fieldOrder := by
  have hp := fieldOrder_val
  have ha := a.isLt
  have hb := b.isLt
  simp only [fsub, BitVec.toNat_sub, epsIf_toNat, borrow64_iff]
  by_cases hborrow : a.toNat < b.toNat
  · rw [if_pos hborrow, if_neg (Nat.not_le.2 hborrow)]
    split <;> split <;> omega
  · rw [if_neg hborrow, if_pos (Nat.le_of_not_lt hborrow)]
    split <;> omega

/-- Settles O33: the second correction fires exactly when a - b + p is still negative. -/
theorem fsubRawWord : Obligations.FsubRawWord := fsub_toNat

/-- Below p the subtrahend is one p away from the minuend at most, so one correction is enough (40 R146). -/
theorem fsubc_toNat {a b : Word} (h : b.toNat < fieldOrder) :
    ((fsubc a b).toNat : Int) =
      (a.toNat : Int) - b.toNat + if a.toNat < b.toNat then (fieldOrder : Int) else 0 := by
  have hp := fieldOrder_val
  have ha := a.isLt
  simp only [fsubc, BitVec.toNat_sub, epsIf_toNat, borrow64_iff]
  split <;> omega

/-- With b below p, a + b - p fits in a word, so fadd's second correction never fires (40 R145). -/
theorem fadd_eq_faddc {a b : Word} (h : b.toNat < fieldOrder) : fadd a b = faddc a b := by
  have ha := a.isLt
  have hraw : (faddc a b).toNat = _ := addNc_toNat a b (by omega)
  apply BitVec.eq_of_toNat_eq
  rw [fadd_toNat, hraw]
  split_ifs <;> omega

/-- With b below p, a - b + p is not negative, so fsub's second correction never fires (40 R146). -/
theorem fsub_eq_fsubc {a b : Word} (h : b.toNat < fieldOrder) : fsub a b = fsubc a b := by
  apply BitVec.eq_of_toNat_eq
  rw [← Int.natCast_inj, fsub_toNat, fsubc_toNat h]
  split <;> split <;> omega

/-- A field of a word, as a quotient and a remainder. -/
theorem toNat_extractLsb' {w : Nat} (x : BitVec w) (start len : Nat) :
    (x.extractLsb' start len).toNat = x.toNat / 2 ^ start % 2 ^ len := by
  rw [BitVec.extractLsb'_toNat, Nat.shiftRight_eq_div_pow]

/-- The 128-bit reduction is a single-correction subtraction and a single-correction addition (40 R135). -/
theorem reduce128_eq (x : BitVec 128) :
    reduce128 x = addNc (fsubc (x.extractLsb' 0 64) ((x.extractLsb' 96 32).setWidth 64))
      (epsilon * (x.extractLsb' 64 32).setWidth 64) := rfl

/-- The number reduce128 has before the last carry is corrected: 2^96 ≡ -1 and 2^64 ≡ ε (40 R135). -/
def reduction (x : BitVec 128) : Int :=
  let xLo : Int := x.toNat % 2 ^ 64
  let xHiHi : Int := x.toNat / 2 ^ 96
  let xHiLo : Int := x.toNat / 2 ^ 64 % 2 ^ 32
  xLo - xHiHi + (if xLo < xHiHi then (fieldOrder : Int) else 0) + xHiLo * (2 ^ 32 - 1)

theorem reduce128_toNat (x : BitVec 128) :
    ((reduce128 x).toNat : Int) = if reduction x < 2 ^ 64 then reduction x else reduction x - fieldOrder := by
  have hp := fieldOrder_val
  have hx := x.isLt
  have hlo : (x.extractLsb' 0 64).toNat = x.toNat % 2 ^ 64 := by rw [toNat_extractLsb', pow_zero, Nat.div_one]
  have hhh : ((x.extractLsb' 96 32).setWidth 64 : Word).toNat = x.toNat / 2 ^ 96 := by
    rw [BitVec.toNat_setWidth, toNat_extractLsb']
    omega
  have hhl := toNat_extractLsb' x 64 32
  have ht0 := fsubc_toNat (a := x.extractLsb' 0 64) (b := (x.extractLsb' 96 32).setWidth 64) (by omega)
  have ht1 := epsilon_mul_toNat (x.extractLsb' 64 32)
  rw [hlo, hhh] at ht0
  rw [hhl] at ht1
  have hsum := addNc_toNat (fsubc (x.extractLsb' 0 64) ((x.extractLsb' 96 32).setWidth 64))
    (epsilon * (x.extractLsb' 64 32).setWidth 64) (by omega)
  rw [← reduce128_eq] at hsum
  simp only [reduction]
  split at hsum <;> omega

/-- What the reduction takes out of x is a multiple of p, as 2^96 + 1 and 2^64 - ε are. -/
theorem reduction_emod (x : BitVec 128) : reduction x % fieldOrder = x.toNat % fieldOrder := by
  have hmultiple : (x.toNat : Int) = reduction x + fieldOrder *
      (x.toNat / 2 ^ 96 * (2 ^ 32 + 1) + x.toNat / 2 ^ 64 % 2 ^ 32
        - if (x.toNat : Int) % 2 ^ 64 < x.toNat / 2 ^ 96 then 1 else 0) := by
    simp only [reduction, fieldOrder_val]
    split <;> omega
  rw [hmultiple, Int.add_mul_emod_self_left]

theorem reduce128_mod (x : BitVec 128) : (reduce128 x).toNat % fieldOrder = x.toNat % fieldOrder := by
  have hmod : ((reduce128 x).toNat : Int) % fieldOrder = x.toNat % fieldOrder := by
    rw [reduce128_toNat, ← reduction_emod]
    split
    · rfl
    · exact Int.sub_emod_right _ _
  exact_mod_cast hmod

theorem product_eq_ofNat (a b : Word) : product a b = BitVec.ofNat 128 (a.toNat * b.toNat) := by
  rw [← product_toNat, BitVec.ofNat_toNat, BitVec.setWidth_eq]

theorem fmul_comm (a b : Word) : fmul a b = fmul b a :=
  congrArg reduce128 (BitVec.mul_comm _ _)

theorem fsqr_eq_fmul (a : Word) : fsqr a = fmul a a := rfl

/-- Settles O34: the reduction is read off its two single-correction operations, and the product it takes is exact. -/
theorem reductionRawWord : Obligations.ReductionRawWord :=
  ⟨fun x => ⟨reduce128_toNat x, reduce128_mod x⟩, fun a b =>
    ⟨congrArg reduce128 (product_eq_ofNat a b), fmul_comm a b, congrArg reduce128 (product_eq_ofNat a a),
      fsqr_eq_fmul a⟩⟩

end Sys2Proof.Machine
end

section
/-! PROOF. The field operations are those of the ring of integers modulo p (40 R143, R148, R149): O36, O37. Each operation is
carried over to that ring once; the congruences and the ring laws are then read off there. -/

namespace Sys2Proof.Machine

/-- The element of the ring of integers modulo p that a raw word stands for. -/
def residue (x : Word) : ZMod fieldOrder := x.toNat

@[simp] theorem natCast_toNat (x : Word) : (x.toNat : ZMod fieldOrder) = residue x := rfl

theorem residue_eq_natCast_iff (x : Word) (n : Nat) : residue x = n ↔ (canon x).toNat = n % fieldOrder := by
  rw [canon_toNat]
  exact ZMod.natCast_eq_natCast_iff' x.toNat n fieldOrder

theorem residue_eq_intCast_iff (x : Word) (z : Int) : residue x = z ↔ ((canon x).toNat : Int) = z % fieldOrder := by
  rw [canon_toNat, residue, ← Int.cast_natCast, ZMod.intCast_eq_intCast_iff', Int.natCast_mod]

/-- Field equality is equality in the ring (40 R147). -/
theorem feq_iff_residue_eq (x y : Word) : feq x y = true ↔ residue x = residue y := by
  rw [feq, beq_iff_eq, ← BitVec.toNat_inj, canon_toNat y]
  exact (residue_eq_natCast_iff x y.toNat).symm

theorem residue_canon (x : Word) : residue (canon x) = residue x := by
  rw [residue, canon_toNat, ZMod.natCast_mod, residue]

@[simp] theorem residue_zero : residue 0 = 0 := rfl

@[simp] theorem residue_one : residue 1 = 1 := rfl

theorem fadd_mod (a b : Word) : (fadd a b).toNat % fieldOrder = (a.toNat + b.toNat) % fieldOrder := by
  rw [fadd_toNat, fieldOrder_val]
  split
  · rfl
  · split <;> omega

@[simp] theorem residue_fadd (a b : Word) : residue (fadd a b) = residue a + residue b := by
  rw [residue, residue, residue, ← Nat.cast_add, ZMod.natCast_eq_natCast_iff', fadd_mod]

@[simp] theorem residue_fsub (a b : Word) : residue (fsub a b) = residue a - residue b := by
  rw [residue, ← Int.cast_natCast, fsub_toNat]
  split
  · simp
  · split <;> simp

@[simp] theorem residue_reduce128 (x : BitVec 128) : residue (reduce128 x) = x.toNat := by
  rw [residue, ZMod.natCast_eq_natCast_iff', reduce128_mod]

@[simp] theorem residue_fmul (a b : Word) : residue (fmul a b) = residue a * residue b := by
  rw [fmul, residue_reduce128, product_toNat, Nat.cast_mul, residue, residue]

@[simp] theorem residue_fsqr (a : Word) : residue (fsqr a) = residue a ^ 2 := by
  rw [fsqr_eq_fmul, residue_fmul, sq]

@[simp] theorem residue_fneg (a : Word) : residue (fneg a) = -residue a := by
  rw [fneg, ← residue_canon a]
  split
  next hzero => rw [hzero, residue_zero, neg_zero]
  next =>
    have hle : canon a ≤ pWord := BitVec.le_def.2 (canon_toNat_lt a).le
    rw [residue, BitVec.toNat_sub_of_le hle, Nat.cast_sub hle, pWord_toNat_eq, ZMod.natCast_self, zero_sub, residue]

/-- Settles O36: each congruence is the operation's equation in the ring; for b below p, faddc and fsubc are fadd and
fsub. -/
theorem arithmeticIsCongruent : Obligations.ArithmeticIsCongruent := by
  intro a b
  have hadd := (residue_eq_natCast_iff (fadd a b) (a.toNat + b.toNat)).1 (by simp)
  have hsub := (residue_eq_intCast_iff (fsub a b) (a.toNat - b.toNat)).1 (by simp)
  refine ⟨hadd, hsub, (residue_eq_natCast_iff _ _).1 (by simp), (residue_eq_natCast_iff _ _).1 (by simp),
    (residue_eq_intCast_iff _ _).1 (by simp), fun hb => ?_⟩
  rw [← fadd_eq_faddc hb, ← fsub_eq_fsubc hb]
  exact ⟨hadd, hsub⟩

/-- Settles O37: feq is equality in a commutative ring, where the laws hold; the raw sum is evaluated. -/
theorem ringLawsHoldUnderFeq : Obligations.RingLawsHoldUnderFeq := by
  refine ⟨fun a b c => ?_, by decide⟩
  simp only [feq_iff_residue_eq, residue_fadd, residue_fmul, residue_fneg, residue_zero, residue_one]
  exact ⟨(add_assoc _ _ _).symm, add_zero _, add_neg_cancel _, (mul_assoc _ _ _).symm, mul_one _, mul_add _ _ _,
    fsqr_eq_fmul a⟩

end Sys2Proof.Machine
end

section
/-! PROOF. The field commands (40 R138, R145, R146): O29, O30. An idle block accepts each, and the Core completes it from the
words it sampled. -/

namespace Sys2Proof.Machine

/-- A command's word decodes to it, is dropped while BUSY, and is ILLEGAL with a reserved bit set (20 R78, 30 R104). -/
theorem issuedBy_cmd {i : Instr} {v : Word} (henc : encode i = (0x010, v)) (hdec : decodeWrite 0x010 v = .ok i) :
    issuedBy i 0x010 v :=
  ⟨henc, hdec, fun _ hbusy => exec_busy hbusy i,
    fun _ s w hidle _ hres => cmd_write_illegal s w hidle (decodeWrite_cmd_reserved w hres)⟩

/-- A command with no check but BUSY has its effect on an idle block. -/
theorem guardedWrite_idle {s : State} (hidle : s.pending = none) (effect : State → State) :
    guardedWrite [(s.busy, .busy)] effect s = respond (.writeDone false) (effect s) :=
  guardedWrite_pass (by simp [hidle]) effect s

theorem nonCanonical_eq_decide (w : Word) : nonCanonical w = decide (fieldOrder ≤ w.toNat) := rfl

theorem noteIf_nonCanonical (w : Word) (k : ErrorCode) (s : State) :
    noteIf (nonCanonical w) k s = if fieldOrder ≤ w.toNat then recordError k s else s := by
  simp only [noteIf, nonCanonical_eq_decide, decide_eq_true_eq]

/-- A field command that notes nothing, issued to an idle block. -/
theorem acceptField_idle {s : State} (hidle : s.pending = none) (op : FieldOp) :
    guardedWrite [(s.busy, .busy)] (acceptField op) s =
      { s with pending := some (.field op s.fa s.fb), resp := some (.writeDone false) } :=
  guardedWrite_idle hidle _

/-- FADDC or FSUBC, issued to an idle block (40 R145, R146). -/
theorem acceptField_noted_idle {s : State} (hidle : s.pending = none) (op : FieldOp) :
    guardedWrite [(s.busy, .busy)] (fun s => acceptField op (noteIf (nonCanonical s.fb) .precond s)) s =
      { if fieldOrder ≤ s.fb.toNat then recordError .precond s else s with
        pending := some (.field op s.fa s.fb), resp := some (.writeDone false) } := by
  rw [guardedWrite_idle hidle, acceptField_noteIf, noteIf_nonCanonical]
  rfl

theorem bit0_feq (a b : Word) : bit0 (feq a b) = if canon a = canon b then 1 else 0 := by
  simp only [bit0, feq, beq_iff_eq]

theorem feq_eq_decide (a b : Word) : feq a b = decide (canon a = canon b) := rfl

/-- FADDC's formula: the wrapped sum, and ε more when it wrapped (40 R145). -/
theorem faddc_eq_ite (a b : Word) :
    faddc a b = if 2 ^ 64 ≤ a.toNat + b.toNat then a + b + 0xFFFFFFFF else a + b := by
  by_cases hcarry : 2 ^ 64 ≤ a.toNat + b.toNat
  · rw [faddc, (carry64_iff a b).2 hcarry, if_pos hcarry]; rfl
  · rw [faddc, Bool.eq_false_iff.2 (mt (carry64_iff a b).1 hcarry), if_neg hcarry]; exact BitVec.add_zero _

/-- FSUBC's formula: the wrapped difference, and ε less when it wrapped (40 R146). -/
theorem fsubc_eq_ite (a b : Word) : fsubc a b = if a.toNat < b.toNat then a - b - 0xFFFFFFFF else a - b := by
  by_cases hborrow : a.toNat < b.toNat
  · rw [fsubc, (borrow64_iff a b).2 hborrow, if_pos hborrow]; rfl
  · rw [fsubc, Bool.eq_false_iff.2 (mt (borrow64_iff a b).1 hborrow), if_neg hborrow]; exact BitVec.sub_zero _

/-- Settles O30: the formula is the model's own case split on the carry, and a canonical FB leaves nothing for a second
correction of FADD or FSUB. -/
theorem uncheckedCommandsNotePrecond : Obligations.UncheckedCommandsNotePrecond := by
  refine ⟨⟨issuedBy_cmd rfl rfl, issuedBy_cmd rfl rfl⟩, fun s hidle => ⟨?_, ?_⟩, fun u a b => ⟨?_, ?_⟩, fun a b hb => ?_⟩
  · exact congrArg Host.Outcome.next (acceptField_noted_idle hidle .faddc)
  · exact congrArg Host.Outcome.next (acceptField_noted_idle hidle .fsubc)
  · intro h
    rw [← faddc_eq_ite]
    exact coreStep_some h
  · intro h
    rw [← fsubc_eq_ite]
    exact coreStep_some h
  · exact ⟨rfl, (fadd_eq_faddc hb).symm, (fsub_eq_fsubc hb).symm⟩

/-- Settles O29: two acceptances cover the nine commands, and each completion is the Core's step on the sampled words. -/
theorem fieldCommandsWriteTheirResult : Obligations.FieldCommandsWriteTheirResult := by
  refine ⟨?_, fun s hidle => ?_, fun u a b => ?_⟩
  · refine ⟨?_, ?_, ?_, ?_, ?_, ?_, ?_, ?_, ?_⟩ <;> exact issuedBy_cmd rfl rfl
  · have accepted (op : FieldOp) := congrArg (Host.Outcome.next : State → Outcome) (acceptField_idle hidle op)
    have noted (op : FieldOp) := congrArg (Host.Outcome.next : State → Outcome) (acceptField_noted_idle hidle op)
    exact ⟨accepted .fmul, accepted .fsqr, accepted .fadd, accepted .fsub, accepted .fneg, accepted .fcan, noted .faddc,
      noted .fsubc, accepted .feq⟩
  · refine ⟨coreStep_some, coreStep_some, coreStep_some, coreStep_some, coreStep_some, coreStep_some, coreStep_some,
      coreStep_some, fun h => ?_⟩
    rw [← bit0_feq, ← feq_eq_decide]
    exact coreStep_some h

end Sys2Proof.Machine
end

section
/-! PROOF. The reductions of the wide sums in the ring of integers modulo p (40 R136, R137): what the MDS layer and the fast
layer need of them. -/

namespace Sys2Proof.Machine

/-- 2^64 is a multiple of p and ε more (00 R6). -/
theorem two_pow_64_eq_epsilon : (2 ^ 64 : ZMod fieldOrder) = 4294967295 := by
  have h : ((2 ^ 64 : Nat) : ZMod fieldOrder) = (4294967295 : Nat) :=
    (ZMod.natCast_eq_natCast_iff' _ _ _).2 (by decide)
  exact_mod_cast h

/-- ε times a 32-bit value is below p, so reduce96 needs only the one correction it makes. -/
theorem residue_reduce96 (xLo : Word) (xHi : BitVec 32) :
    residue (reduce96 xLo xHi) = xHi.toNat * 2 ^ 64 + residue xLo := by
  have hp := fieldOrder_val
  have hlo := xLo.isLt
  have hhi := xHi.isLt
  have hmul := epsilon_mul_toNat xHi
  have hcast : residue (reduce96 xLo xHi) = (xLo.toNat + xHi.toNat * 4294967295 : Nat) := by
    rw [residue, ZMod.natCast_eq_natCast_iff', reduce96, addNc_mod _ _ (by omega), hmul]
  rw [hcast, two_pow_64_eq_epsilon]
  push_cast
  rw [natCast_toNat, add_comm]

/-- The number T in the two parts reduce96 takes it in. -/
theorem residue_reduce96_ofNat {T : Nat} (h : T < 2 ^ 96) :
    residue (reduce96 (BitVec.ofNat 64 T) (BitVec.ofNat 32 (T / 2 ^ 64))) = T := by
  have hparts : T / 2 ^ 64 % 2 ^ 32 * 2 ^ 64 + T % 2 ^ 64 = T := by omega
  rw [residue_reduce96, residue, BitVec.toNat_ofNat, BitVec.toNat_ofNat]
  exact_mod_cast congrArg (Nat.cast : Nat → ZMod fieldOrder) hparts

/-- Bits 159:64 are reduced to a word first, and the word takes their place above bits 63:0. -/
theorem residue_reduce160 (n : BitVec 160) : residue (reduce160 n) = n.toNat := by
  have hn := n.isLt
  have hparts : (n.toNat / 2 ^ 128 % 2 ^ 32 * 2 ^ 64 + n.toNat / 2 ^ 64 % 2 ^ 64) * 2 ^ 64 + n.toNat % 2 ^ 64 = n.toNat := by
    omega
  have happend (hi lo : Word) : residue (reduce128 (hi ++ lo)) = residue hi * 2 ^ 64 + residue lo := by
    rw [residue_reduce128, BitVec.toNat_append, ← Nat.shiftLeft_add_eq_or_of_lt lo.isLt, Nat.shiftLeft_eq]
    push_cast
    rfl
  rw [reduce160, happend, residue_reduce96, residue, residue, toNat_extractLsb', toNat_extractLsb', toNat_extractLsb',
    pow_zero, Nat.div_one]
  exact_mod_cast congrArg (Nat.cast : Nat → ZMod fieldOrder) hparts

theorem residue_reduce160_ofNat {T : Nat} (h : T < 2 ^ 160) : residue (reduce160 (BitVec.ofNat 160 T)) = T := by
  rw [residue_reduce160, BitVec.toNat_ofNat, Nat.mod_eq_of_lt h]

end Sys2Proof.Machine
end

section
/-! PROOF. The linear layers as exact sums, with the bounds a well-formed build gives them (41 R186, R190): O40, O42. -/

namespace Sys2Proof.Machine

theorem toNat_mul_le (w : Word) (n : Nat) : w.toNat * n ≤ (2 ^ 64 - 1) * n :=
  Nat.mul_le_mul_right n (Nat.le_sub_one_of_lt w.isLt)

theorem mds_getElem (c : Config) (S : Elems) (i : Fin 12) :
    (mds c S)[i] = reduce96 (BitVec.ofNat 64 (mdsSum c S i)) (BitVec.ofNat 32 (mdsSum c S i / 2 ^ 64)) := by
  simp [mds]

/-- The coefficients of a row sum to at most 2^32, and each multiplies a word. -/
theorem mdsSum_lt (c : ValidConfig) (S : Elems) (i : Fin 12) : mdsSum c.raw S i < 2 ^ 96 :=
  calc mdsSum c.raw S i
    _ ≤ (∑ k : Fin 12, (2 ^ 64 - 1) * (tbl c.raw .mdsCirc k.val).toNat)
          + (2 ^ 64 - 1) * (tbl c.raw .mdsDiag i.val).toNat :=
        Nat.add_le_add (Finset.sum_le_sum fun _ _ => toNat_mul_le _ _) (toNat_mul_le _ _)
    _ = (2 ^ 64 - 1) * ((∑ k : Fin 12, (tbl c.raw .mdsCirc k.val).toNat) + (tbl c.raw .mdsDiag i.val).toNat) := by
        rw [← Finset.mul_sum, ← Nat.mul_add]
    _ ≤ (2 ^ 64 - 1) * 2 ^ 32 := Nat.mul_le_mul_left _ (row_sum_le c i)
    _ < 2 ^ 96 := by decide

theorem residue_mds (c : ValidConfig) (S : Elems) (i : Fin 12) : residue (mds c.raw S)[i] = mdsSum c.raw S i := by
  rw [mds_getElem, residue_reduce96_ofNat (mdsSum_lt c S i)]

/-- Settles O40: the layer's own sum is the statement's, and a sum below 2^96 is reduced without loss. -/
theorem mdsIsTheRowSum : Obligations.MdsIsTheRowSum := by
  intro c S i
  simp only [← rotated_lane]
  exact ⟨mdsSum_lt c S i, mds_getElem c.raw S i, (residue_eq_natCast_iff _ _).1 (residue_mds c S i)⟩

theorem fastLayer_zero (c : Config) (r : Nat) (S : Elems) :
    (fastLayer c r S)[0] = reduce160 (BitVec.ofNat 160 (fastSum c r S)) := by
  simp [fastLayer]

theorem fastLayer_succ (c : Config) (r : Nat) (S : Elems) (i : Fin 11) :
    (fastLayer c r S)[i.succ] = fadd S[i.succ] (fmul S[0] (tbl c .fpVs (11 * r + i.val))) := by
  simp [fastLayer]

/-- Twelve products of words below 2^64 each, the entries of FP_WHATS being any words. -/
theorem fastSum_lt (c : ValidConfig) (r : Nat) (S : Elems) : fastSum c.raw r S < 2 ^ 132 := by
  have hword (w v : Word) : w.toNat * v.toNat ≤ (2 ^ 64 - 1) * (2 ^ 64 - 1) :=
    (toNat_mul_le w _).trans (Nat.mul_le_mul_left _ (Nat.le_sub_one_of_lt v.isLt))
  have hcorner := Nat.mul_le_mul_left (2 ^ 64 - 1) (Nat.le_sub_one_of_lt (corner_lt c))
  calc fastSum c.raw r S
    _ ≤ (∑ _i : Fin 11, (2 ^ 64 - 1) * (2 ^ 64 - 1)) + (2 ^ 64 - 1) * (2 ^ 64 - 1) :=
        Nat.add_le_add (Finset.sum_le_sum fun _ _ => hword _ _) ((toNat_mul_le _ _).trans hcorner)
    _ < 2 ^ 132 := by rw [Finset.sum_const, Finset.card_fin]; decide

theorem residue_fastLayer_succ (c : Config) (r : Nat) (S : Elems) (i : Fin 11) :
    residue (fastLayer c r S)[i.succ] = residue S[i.succ] + residue S[0] * residue (tbl c .fpVs (11 * r + i.val)) := by
  rw [fastLayer_succ, residue_fadd, residue_fmul]

theorem residue_fastLayer_zero (c : ValidConfig) (r : Nat) (S : Elems) :
    residue (fastLayer c.raw r S)[0] = fastSum c.raw r S := by
  rw [fastLayer_zero, residue_reduce160_ofNat ((fastSum_lt c r S).trans (by decide))]

/-- Settles O42: output 0 is the wide sum reduced without loss, and the others are read off the ring. -/
theorem fastLayerIsTheSums : Obligations.FastLayerIsTheSums := by
  intro c r S
  refine ⟨corner_lt c, fastSum_lt c r S, fastLayer_zero c.raw r S,
    (residue_eq_natCast_iff _ _).1 (residue_fastLayer_zero c r S), fun i => ⟨fastLayer_succ c.raw r S i, ?_⟩⟩
  refine (residue_eq_natCast_iff _ _).1 ?_
  rw [residue_fastLayer_succ, Nat.cast_add, Nat.cast_mul, natCast_toNat, natCast_toNat, natCast_toNat]

end Sys2Proof.Machine
end

section
/-! PROOF. Every layer keeps canonical equality, so the permutation does (41 R198): O44. A layer's output lane, in the ring
of integers modulo p, is a polynomial in the input lanes. -/

namespace Sys2Proof.Machine

theorem canonEq_iff_residue_eq (S T : Elems) : canonEq S T ↔ ∀ i : Fin 12, residue S[i] = residue T[i] :=
  forall_congr' fun i => by rw [← feq_iff_residue_eq, feq, beq_iff_eq]

theorem canonEq_iff_zero_succ (S T : Elems) :
    canonEq S T ↔ residue S[0] = residue T[0] ∧ ∀ i : Fin 11, residue S[i.succ] = residue T[i.succ] :=
  (canonEq_iff_residue_eq S T).trans Fin.forall_fin_succ

theorem constantLayer_getElem (c : Config) (rc : Nat) (S : Elems) (i : Fin 12) :
    (constantLayer c rc S)[i] = fadd S[i] (tbl c .rcFull (12 * rc + i.val)) := by
  simp [constantLayer]

theorem sboxLayer_getElem (S : Elems) (i : Fin 12) : (sboxLayer S)[i] = sbox S[i] := by
  simp [sboxLayer]

theorem partialFirstConstants_getElem (c : Config) (S : Elems) (i : Fin 12) :
    (partialFirstConstants c S)[i] = fadd S[i] (tbl c .fpFirstRc i.val) := by
  simp [partialFirstConstants]

theorem partialInit_zero (c : Config) (S : Elems) : (partialInit c S)[0] = S[0] := by
  simp [partialInit]

theorem partialInit_succ (c : Config) (S : Elems) (col : Fin 11) :
    (partialInit c S)[col.succ] = partialInitColumn c S col := by
  simp [partialInit]

@[simp] theorem residue_sbox (x : Word) : residue (sbox x) = residue x ^ 7 := by
  simp only [sbox, residue_fmul, residue_fsqr]
  ring

theorem residue_foldl_fadd {α : Type} (f : α → Word) (l : List α) (a : Word) :
    residue (l.foldl (fun acc x => fadd acc (f x)) a) = residue a + (l.map fun x => residue (f x)).sum := by
  induction l generalizing a with
  | nil => simp
  | cons x l ih => rw [List.foldl_cons, ih, residue_fadd, List.map_cons, List.sum_cons, add_assoc]

/-- The accumulation from 0 is the matrix product in the ring (41 R189). -/
theorem residue_partialInitColumn (c : Config) (S : Elems) (col : Fin 11) : residue (partialInitColumn c S col) =
    ∑ row : Fin 11, residue S[row.succ] * residue (tbl c .fpInitMatrix (11 * row.val + col.val)) := by
  rw [partialInitColumn, residue_foldl_fadd, residue_zero, zero_add, ← List.ofFn_eq_map, List.sum_ofFn]
  simp only [residue_fmul]

theorem residue_partialLane0 (c : Config) (r : Nat) (x : Word) : residue (partialLane0 c r x) =
    if r + 1 < c.partialRounds then residue x ^ 7 + residue (tbl c .fpRc r) else residue x ^ 7 := by
  unfold partialLane0
  split
  · rw [residue_fadd, residue_sbox]
  · exact residue_sbox x

theorem set_zero_succ (S : Elems) (x : Word) (i : Fin 11) : (S.set 0 x)[i.succ] = S[i.succ] :=
  Vector.getElem_set_ne (by decide) i.succ.isLt (Nat.zero_ne_add_one i.val)

section
variable {S T : Elems} (h : canonEq S T)
include h

theorem constantLayer_canonEq (c : Config) (rc : Nat) : canonEq (constantLayer c rc S) (constantLayer c rc T) := by
  rw [canonEq_iff_residue_eq] at h ⊢
  simp only [constantLayer_getElem, residue_fadd, h, implies_true]

theorem sboxLayer_canonEq : canonEq (sboxLayer S) (sboxLayer T) := by
  rw [canonEq_iff_residue_eq] at h ⊢
  simp only [sboxLayer_getElem, residue_sbox, h, implies_true]

theorem mds_canonEq (c : ValidConfig) : canonEq (mds c.raw S) (mds c.raw T) := by
  rw [canonEq_iff_residue_eq] at h ⊢
  simp only [residue_mds, mdsSum, Nat.cast_add, Nat.cast_sum, Nat.cast_mul, natCast_toNat, h, implies_true]

theorem fullRound_canonEq (c : ValidConfig) (rc : Nat) : canonEq (fullRound c.raw rc S) (fullRound c.raw rc T) :=
  mds_canonEq (sboxLayer_canonEq (constantLayer_canonEq h c.raw rc)) c

theorem partialFirstConstants_canonEq (c : Config) :
    canonEq (partialFirstConstants c S) (partialFirstConstants c T) := by
  rw [canonEq_iff_residue_eq] at h ⊢
  simp only [partialFirstConstants_getElem, residue_fadd, h, implies_true]

theorem partialInit_canonEq (c : Config) : canonEq (partialInit c S) (partialInit c T) := by
  rw [canonEq_iff_zero_succ] at h ⊢
  simp only [partialInit_zero, partialInit_succ, residue_partialInitColumn, h, implies_true, and_true]

theorem set_zero_canonEq {x y : Word} (hxy : residue x = residue y) : canonEq (S.set 0 x) (T.set 0 y) := by
  rw [canonEq_iff_zero_succ] at h ⊢
  simp only [Vector.getElem_set_self, set_zero_succ, hxy, h, implies_true, and_true]

theorem fastLayer_canonEq (c : ValidConfig) (r : Nat) : canonEq (fastLayer c.raw r S) (fastLayer c.raw r T) := by
  rw [canonEq_iff_zero_succ] at h ⊢
  simp only [residue_fastLayer_zero, residue_fastLayer_succ, fastSum, Nat.cast_add, Nat.cast_sum, Nat.cast_mul,
    natCast_toNat, h, implies_true, and_true]

theorem partialRound_canonEq (c : ValidConfig) (r : Nat) :
    canonEq (partialRound c.raw r S) (partialRound c.raw r T) := by
  obtain ⟨hzero, -⟩ := (canonEq_iff_zero_succ S T).1 h
  refine fastLayer_canonEq (set_zero_canonEq h ?_) c r
  simp only [residue_partialLane0, hzero]

/-- A stage is a full round, the transition or a partial round (41 R182). -/
theorem stage_canonEq (c : ValidConfig) (s : Nat) : canonEq (stage c.raw s S) (stage c.raw s T) := by
  unfold stage
  split
  · exact fullRound_canonEq h c s
  · split
    · exact partialInit_canonEq (partialFirstConstants_canonEq h c.raw) c.raw
    · split
      · exact partialRound_canonEq h c _
      · exact fullRound_canonEq h c _

theorem runStages_canonEq (c : ValidConfig) (n : Nat) : canonEq (runStages c.raw n S) (runStages c.raw n T) := by
  induction n with
  | zero => exact h
  | succ n ih => exact stage_canonEq ih c n

end

/-- Settles O44: every stage keeps canonical equality, so any number of them does. -/
theorem permutationIsCanonicallyDetermined : Obligations.PermutationIsCanonicallyDetermined :=
  fun c _ _ h => runStages_canonEq h c c.raw.nstage

end Sys2Proof.Machine
end

section
/-! PROOF. The permutation as its sequence of rounds (41 R180-R184, R187, R188, R191): O43. A run of stages is a fold, cut
where the kind of stage changes. -/

namespace Sys2Proof.Machine

theorem stage_firstFull {c : Config} {s : Nat} (hs : s < c.halfFullRounds) (S : Elems) :
    stage c s S = fullRound c s S :=
  if_pos hs

theorem stage_transition (c : Config) (S : Elems) :
    stage c c.halfFullRounds S = partialInit c (partialFirstConstants c S) := by
  rw [stage, if_neg (Nat.lt_irrefl _), if_pos rfl]

theorem stage_partial {c : Config} {r : Nat} (hr : r < c.partialRounds) (S : Elems) :
    stage c (c.halfFullRounds + 1 + r) S = partialRound c r S := by
  rw [stage, if_neg (by omega), if_neg (by omega), if_pos (by omega)]
  congr 1
  omega

theorem stage_lastFull (c : Config) (k : Nat) (S : Elems) :
    stage c (c.halfFullRounds + 1 + c.partialRounds + k) S = fullRound c (c.halfFullRounds + c.partialRounds + k) S := by
  rw [stage, if_neg (by omega), if_neg (by omega), if_neg (by omega)]
  congr 1
  omega

/-- Running n stages after m is folding over them. -/
theorem runStages_add (c : Config) (m n : Nat) (S : Elems) :
    runStages c (m + n) S = (List.range n).foldl (fun T k => stage c (m + k) T) (runStages c m S) := by
  induction n with
  | zero => rfl
  | succ n ih => rw [← Nat.add_assoc, runStages_succ, ih, List.range_succ, List.foldl_append]; rfl

theorem runStages_firstFull (c : Config) (S : Elems) :
    runStages c c.halfFullRounds S = (List.range c.halfFullRounds).foldl (fun T rc => fullRound c rc T) S := by
  have hrun := runStages_add c 0 c.halfFullRounds S
  rw [Nat.zero_add] at hrun
  rw [hrun]
  exact List.foldl_ext _ _ _ fun T k hk => by rw [Nat.zero_add, stage_firstFull (List.mem_range.1 hk)]

theorem runStages_partial (c : Config) (S : Elems) :
    runStages c (c.halfFullRounds + 1 + c.partialRounds) S =
      (List.range c.partialRounds).foldl (fun T r => partialRound c r T)
        (partialInit c (partialFirstConstants c (runStages c c.halfFullRounds S))) := by
  rw [runStages_add, runStages_succ, stage_transition]
  exact List.foldl_ext _ _ _ fun T r hr => stage_partial (List.mem_range.1 hr) T

theorem poseidon_eq_foldl_fullRound (c : Config) (S : Elems) :
    poseidon c S = (List.range c.halfFullRounds).foldl
      (fun T k => fullRound c (c.halfFullRounds + c.partialRounds + k) T)
      (runStages c (c.halfFullRounds + 1 + c.partialRounds) S) := by
  have hcount : c.nstage = c.halfFullRounds + 1 + c.partialRounds + c.halfFullRounds := by
    rw [Config.nstage]
    omega
  rw [poseidon, hcount, runStages_add]
  simp only [stage_lastFull]

theorem partialLane0_eq_ite (c : Config) (r : Nat) (x : Word) :
    partialLane0 c r x = if r < c.partialRounds - 1 then fadd (sbox x) (tbl c .fpRc r) else sbox x := by
  simp only [partialLane0, Nat.lt_sub_iff_add_lt]

theorem tbl_of_getElem? {c : Config} {t : Table} {k : Nat} {v : Word} (h : (c.entries t)[k]? = some v) :
    tbl c t k = v := by
  rw [tbl, h, Option.getD_some]

/-- Settles O43: the three folds of rounds are the run of all stages, cut at the transition and after the partial rounds. -/
theorem permutationIsTheRoundSequence : Obligations.PermutationIsTheRoundSequence := by
  refine ⟨fun c S => ?_, fun c rc r S => ⟨constantLayer_getElem c rc S, rfl, partialFirstConstants_getElem c S, ?_⟩,
    fun c s S => ⟨fun hs => stage_firstFull hs S, ?_, fun hlo hhi => ?_, fun hlo _ => ?_⟩, fun c t k v => tbl_of_getElem?⟩
  · rw [poseidon_eq_foldl_fullRound, runStages_partial, runStages_firstFull]
  · rw [partialRound, partialLane0_eq_ite]
  · rintro rfl
    exact stage_transition c S
  · obtain ⟨r, rfl⟩ := Nat.exists_eq_add_of_le hlo
    rw [stage_partial (Nat.lt_of_add_lt_add_left hhi)]
    congr 1
    omega
  · obtain ⟨k, rfl⟩ := Nat.exists_eq_add_of_le hlo
    rw [stage_lastFull]
    congr 1
    omega

end Sys2Proof.Machine
end

section
/-! PROOF. PERM (41 R194): O45. -/

namespace Sys2Proof.Machine

theorem execPerm_accepts {s : State} (hidle : s.pending = none) (hstage : s.stage = 0) :
    execPerm s = .next { s with pending := some (.perm s.elems), resp := some (.writeDone false) } :=
  congrArg Host.Outcome.next (guardedWrite_pass (by simp [hidle, hstage]) _ s)

theorem execPerm_refuses {s : State} (hidle : s.pending = none) (hstage : s.stage ≠ 0) :
    execPerm s = .next (abortWrite .seq s) :=
  congrArg Host.Outcome.next (guardedWrite_fail (by simpa [hidle] using hstage) _ s)

/-- Settles O45: STAGE decides between the two outcomes of an idle block, and the Core permutes the sampled STATE. -/
theorem permRunsTheWholePermutation : Obligations.PermRunsTheWholePermutation :=
  ⟨issuedBy_cmd rfl rfl, fun _ => execPerm_accepts, fun _ => execPerm_refuses, fun _ _ => coreStep_some⟩

end Sys2Proof.Machine
end

section
/-! PROOF. The hash of words that are equal modulo p (42 R242, R244): O55. Overwriting with such words keeps canonical
equality, and so does the permutation that follows each chunk. -/

namespace Sys2Proof.Machine

/-- Words that stand for the same elements, position by position. -/
abbrev SameResidues : List Word → List Word → Prop := List.Forall₂ fun w v => residue w = residue v

theorem overwrite_getElem (S : Elems) (chunk : List Word) (i : Fin 12) :
    (overwrite S chunk)[i] = (chunk[i.val]?).getD S[i] := by
  simp [overwrite]

/-- The lists end together, so a position outside one is outside the other. -/
theorem residue_getD_eq {ws vs : List Word} (hw : SameResidues ws vs) {a b : Word} (hab : residue a = residue b)
    (n : Nat) : residue (ws[n]?.getD a) = residue (vs[n]?.getD b) := by
  induction hw generalizing n with
  | nil => exact hab
  | cons hhead _ ih =>
    cases n with
    | zero => exact hhead
    | succ n => exact ih n

theorem overwrite_canonEq {S T : Elems} (h : canonEq S T) {ws vs : List Word} (hw : SameResidues ws vs) :
    canonEq (overwrite S ws) (overwrite T vs) := by
  rw [canonEq_iff_residue_eq] at h ⊢
  intro i
  rw [overwrite_getElem, overwrite_getElem]
  exact residue_getD_eq hw (h i) i.val

theorem hashChunks_canonEq (c : ValidConfig) (m : Nat) {S T : Elems} (h : canonEq S T) {ws vs : List Word}
    (hw : SameResidues ws vs) : canonEq (hashChunks c.raw m S ws) (hashChunks c.raw m T vs) := by
  induction m generalizing S T ws vs with
  | zero => exact h
  | succ m ih =>
    have hload := overwrite_canonEq h (List.forall₂_take 8 hw)
    exact ih (permutationIsCanonicallyDetermined c _ _ hload) (List.forall₂_drop 8 hw)

theorem hashState_canonEq (c : ValidConfig) {ws vs : List Word} (hw : SameResidues ws vs) :
    canonEq (hashState c.raw ws) (hashState c.raw vs) := by
  have hzero : canonEq zeroElems zeroElems := fun _ => rfl
  unfold hashState
  rw [hw.length_eq]
  split
  · exact permutationIsCanonicallyDetermined c _ _ hzero
  · exact hashChunks_canonEq c _ hzero hw

/-- Settles O55: equal residues modulo p are equality in the ring, and the whole final state keeps canonical equality. -/
theorem digestIsCanonicallyDetermined : Obligations.DigestIsCanonicallyDetermined := by
  intro c ws vs hmod j
  have hw : SameResidues ws vs := hmod.imp fun _ _ => (ZMod.natCast_eq_natCast_iff' _ _ _).2
  exact beq_iff_eq.2 (hashState_canonEq c hw (j.castLE (by decide)))

end Sys2Proof.Machine
end

section
/-! PROOF. SINIT (42 R231): O47. -/

namespace Sys2Proof.Machine

/-- Settles O47: the only check is BUSY, and the completion writes the reset values of the sponge and the sequencer. -/
theorem sinitStartsAFreshSponge : Obligations.SinitStartsAFreshSponge :=
  ⟨issuedBy_cmd rfl rfl, fun _ hidle => congrArg Host.Outcome.next (guardedWrite_idle hidle (accept .sinit)),
    fun _ => coreStep_some⟩

end Sys2Proof.Machine
end

section
/-! PROOF. IN_WORD (42 R232-R234): O48. -/

namespace Sys2Proof.Machine

theorem issuedBy_inWord (w : Word) : issuedBy (.inWord w) 0x068 w :=
  ⟨rfl, rfl, fun _ hbusy => exec_busy hbusy _, fun hport => absurd hport (by decide)⟩

theorem exec_inWord_refuses {s : State} (hidle : s.pending = none)
    (hseq : s.stage ≠ 0 ∨ s.squeezed = true ∨ s.bytePos ≠ 0) (w : Word) :
    exec (.inWord w) s = .next (abortWrite .seq s) := by
  refine congrArg _ (guardedWrite_fail ?_ (absorbWord w) s)
  simpa [hidle, or_iff_not_imp_left] using hseq

theorem exec_inWord_absorbs {s : State} (hidle : s.pending = none) (hstage : s.stage = 0)
    (hsq : s.squeezed = false) (hbyte : s.bytePos = 0) (w : Word) :
    exec (.inWord w) s = .next (respond (.writeDone false) (absorbWord w s)) :=
  congrArg Host.Outcome.next (guardedWrite_pass (by simp [hidle, hstage, hsq, hbyte]) (absorbWord w) s)

theorem loadElem_eq_ofFn (w : Word) (s : State) :
    loadElem w s = Vector.ofFn fun i : Fin 12 => if i.val = s.absPos.toNat then w else s.elems[i] := by
  ext i hi
  simp [loadElem, Vector.getElem_set, eq_comm]

/-- Both cases of an absorption at once: ABS_POS counts modulo 8, so position 7 goes to 0 (42 R232). -/
theorem absorbElem_eq (w : Word) (s : State) : absorbElem w s = { s with
    elems := loadElem w s, absCnt := s.absCnt + 1, digestValid := false, absPos := s.absPos + 1,
    pending := if s.absPos = 7 then some (.chunkPerm (loadElem w s)) else s.pending } := by
  rcases absorbElem_cases w s with ⟨hpos, heq⟩ | ⟨hpos, heq⟩
  · rw [heq, hpos, if_pos rfl]; rfl
  · rw [heq, if_neg hpos]

/-- Noting an error leaves all that the absorption reads (42 R234). -/
theorem absorbWord_eq (w : Word) (s : State) : absorbWord w s =
    { if fieldOrder ≤ w.toNat then recordError .noncanon s else s with
      elems := loadElem w s, absCnt := s.absCnt + 1, digestValid := false, absPos := s.absPos + 1,
      pending := if s.absPos = 7 then some (.chunkPerm (loadElem w s)) else s.pending } := by
  rw [absorbWord, absorbElem_eq, ← noteIf_nonCanonical]
  simp only [loadElem, noteIf_elems, noteIf_absPos, noteIf_absCnt, noteIf_pending]

/-- With DIGEST_VALID at 0 already, the chunk's permutation leaves it (42 R232). -/
theorem completeChunkPerm_eq {u : State} (hvalid : u.digestValid = false) (S : Elems) :
    completeChunkPerm S u = { u with
      elems := poseidon u.cfg.raw S, permCnt := u.permCnt + 1, pending := none, event := u.event ||| 1 } := by
  rw [completeChunkPerm, ← hvalid]
  rfl

/-- Settles O48: the three SEQ checks refuse, and an idle block whose checks pass absorbs the word. -/
theorem inWordAbsorbsOneElement : Obligations.InWordAbsorbsOneElement := by
  refine ⟨issuedBy_inWord, fun s w hidle hseq => exec_inWord_refuses hidle hseq w,
    fun s w hidle hstage hsq hbyte => ?_, fun u S hop hvalid => ?_⟩
  · rw [exec_inWord_absorbs hidle hstage hsq hbyte, absorbWord_eq, loadElem_eq_ofFn, hidle]
    rfl
  · exact (coreStep_some hop).trans (completeChunkPerm_eq hvalid S)

end Sys2Proof.Machine
end

section
/-! PROOF. SFINAL (42 R238): O52. -/

namespace Sys2Proof.Machine

theorem exec_sfinal_refuses_seq {s : State} (hidle : s.pending = none) (hseq : s.stage ≠ 0 ∨ s.squeezed = true) :
    exec .sfinal s = .next (abortWrite .seq s) := by
  refine congrArg _ (guardedWrite_fail ?_ _ s)
  simpa [hidle, or_iff_not_imp_left] using hseq

theorem exec_sfinal_refuses_len {s : State} (hidle : s.pending = none) (hstage : s.stage = 0)
    (hsq : s.squeezed = false) (hbyte : s.bytePos ≠ 0) : exec .sfinal s = .next (abortWrite .len s) :=
  congrArg _ (guardedWrite_fail (by simpa [hidle, hstage, hsq] using hbyte) _ s)

theorem needPerm_eq_decide (s : State) : s.needPerm = decide (s.absPos ≠ 0 ∨ s.absCnt = 0) := by
  rw [Bool.eq_iff_iff]
  simp [State.needPerm]

theorem exec_sfinal_accepts {s : State} (hidle : s.pending = none) (hstage : s.stage = 0)
    (hsq : s.squeezed = false) (hbyte : s.bytePos = 0) :
    exec .sfinal s = .next { s with
      pending := some (.sfinal s.elems s.needPerm), resp := some (.writeDone false) } :=
  congrArg Host.Outcome.next (guardedWrite_pass (by simp [hidle, hstage, hsq, hbyte]) _ s)

/-- Settles O52: the checks of R238 in order decide between SEQ, LEN and acceptance, and the Core permutes when the
acceptance found the need. -/
theorem sfinalSqueezesTheDigest : Obligations.SfinalSqueezesTheDigest := by
  refine ⟨issuedBy_cmd rfl rfl, fun _ => exec_sfinal_refuses_seq, fun _ => exec_sfinal_refuses_len,
    fun s hidle hstage hsq hbyte => ?_, fun _ _ => coreStep_some, fun _ _ => coreStep_some⟩
  rw [← needPerm_eq_decide]
  exact exec_sfinal_accepts hidle hstage hsq hbyte

end Sys2Proof.Machine
end

section
/-! PROOF. The bytes of the digest (42 R240, R241): O53. Grouping the bytes of a word gives the word back. -/

namespace Sys2Proof.Machine

@[simp] theorem wordBytes_length (w : Word) : (wordBytes w).length = 8 := by
  simp [wordBytes]

theorem wordBytes_getElem? (w : Word) (t : Fin 8) :
    (wordBytes w)[t.val]? = some (w.extractLsb' (56 - 8 * t.val) 8) := by
  have hbyte (k : Nat) : (w >>> k).setWidth 8 = w.extractLsb' k 8 := BitVec.eq_of_toNat_eq (by simp)
  simp [wordBytes, hbyte]

/-- A byte put below the bits just above it. -/
theorem setWidth_ushiftRight_append (w : Word) (n k : Nat) :
    (w >>> (k + 8)).setWidth n ++ (w >>> k).setWidth 8 = (w >>> k).setWidth (n + 8) := by
  ext i hi
  rw [BitVec.getElem_append]
  split
  · simp
  · have hplace : k + 8 + (i - 8) = k + i := by omega
    simp [hplace]

/-- The bytes of a word, the first in bits 63:56, put side by side are the word (42 R240). -/
theorem groupWords_wordBytes_append (w : Word) (rest : List Byte) :
    groupWords (wordBytes w ++ rest) = w :: groupWords rest := by
  refine congrArg (· :: groupWords rest) ?_
  have join := setWidth_ushiftRight_append w
  dsimp only
  rw [join 8 48, join _ 40, join _ 32, join _ 24, join _ 16, join _ 8, join _ 0]
  exact BitVec.setWidth_eq w

/-- Word j's bytes begin at place 8j. -/
theorem flatMap_wordBytes_getElem? (ws : List Word) (j : Nat) (t : Fin 8) :
    (ws.flatMap wordBytes)[8 * j + t.val]? = ws[j]?.bind fun w => (wordBytes w)[t.val]? := by
  induction ws generalizing j with
  | nil => simp
  | cons w ws ih =>
    cases j with
    | zero => simp [List.getElem?_append_left]
    | succ j =>
      have hplace : 8 * (j + 1) + t.val = (wordBytes w).length + (8 * j + t.val) := by
        rw [wordBytes_length]
        omega
      rw [List.flatMap_cons, hplace, List.getElem?_append_right (Nat.le_add_right _ _), Nat.add_sub_cancel_left, ih,
        List.getElem?_cons_succ]

theorem groupWords_flatMap_wordBytes (ws : List Word) : groupWords (ws.flatMap wordBytes) = ws := by
  induction ws with
  | nil => rfl
  | cons w ws ih => rw [List.flatMap_cons, groupWords_wordBytes_append, ih]

theorem digestBytes_eq_flatMap (S : Elems) : digestBytes S = [S[0], S[1], S[2], S[3]].flatMap wordBytes := by
  simp [digestBytes]

/-- Settles O53: the bytes are those of a list of four words, whose bytes are indexed and grouped word by word. -/
theorem digestBytesAreBigEndian : Obligations.DigestBytesAreBigEndian := by
  intro S
  rw [digestBytes_eq_flatMap]
  refine ⟨fun j t => ?_, by simp, groupWords_flatMap_wordBytes _⟩
  have hword : [S[0], S[1], S[2], S[3]][j.val]? = some S[j.val] := by fin_cases j <;> rfl
  rw [flatMap_wordBytes_getElem?, hword, Option.bind_some, wordBytes_getElem?]

end Sys2Proof.Machine
end

section
/-! PROOF. The IRQ output (60 R296): O10. -/

namespace Sys2Proof.Machine

/-- A two-bit register has only the two bits that EVENT and IRQ_EN name. -/
theorem two_bits_ne_zero (x : BitVec 2) : (x != 0) = (x.getLsbD 0 || x.getLsbD 1) := by
  revert x
  decide

/-- Settles O10: the pending enabled events are a two-bit word, and IRQ says that one of its bits is set. -/
theorem interruptLineIsTheEnabledEvents : Obligations.InterruptLineIsTheEnabledEvents := by
  intro s
  rw [State.irq, two_bits_ne_zero, BitVec.getLsbD_and, BitVec.getLsbD_and]

end Sys2Proof.Machine
end

section
/-! PROOF. NOP (60 R291): O28. -/

namespace Sys2Proof.Machine

/-- An instruction whose write answers the next state `t` settles in the state the Core makes of `t`. -/
theorem settle_of_exec {i : Instr} {s t : State} (h : exec i s = .next t) : settle i s = .next (coreStep t) := by
  rw [settle, h]

theorem exec_nop_idle {s : State} (hidle : s.pending = none) :
    exec .nop s = .next { s with pending := some .nop, resp := some (.writeDone false) } :=
  congrArg Host.Outcome.next (guardedWrite_idle hidle (accept .nop))

/-- Completion takes back what acceptance made of an idle block, so of NOP only EVENT.DONE stays (60 R290). -/
theorem complete_nop_accepted {s : State} (hidle : s.pending = none) (r : Option BusResponse) :
    complete .nop { s with pending := some .nop, resp := r } = { s with event := s.event ||| 1, resp := r } := by
  cases s
  subst hidle
  rfl

/-- Settles O28: the only check is BUSY, and the completion has no effect of its own. -/
theorem nopOnlySetsDone : Obligations.NopOnlySetsDone := by
  refine ⟨issuedBy_cmd rfl rfl, fun s hidle => ⟨exec_nop_idle hidle, ?_⟩⟩
  rw [settle_of_exec (exec_nop_idle hidle), coreStep_some rfl, complete_nop_accepted hidle]

end Sys2Proof.Machine
end

section
/-! PROOF. The decoder and the encoder are inverse to each other (30 R100, R101, R103), on words and on byte lanes: O1,
O2, O3. -/

namespace Sys2Proof

theorem ushiftRight_eq_zero_iff {w : Nat} (v : BitVec w) (n : Nat) : v >>> n = 0 ↔ v.toNat < 2 ^ n := by
  rw [← BitVec.toNat_inj, BitVec.toNat_ushiftRight, Nat.shiftRight_eq_div_pow]
  exact Nat.div_eq_zero_iff_lt (Nat.two_pow_pos n)

/-- Every entry of the opcode map is the encoding of its instruction, which has no reserved bits (30 R103). -/
theorem opcodeMap_encodes : ∀ entry ∈ opcodeMap,
    entry.2.wf = true ∧ encode entry.2 = (cmdPort, BitVec.ofNat 64 entry.1) := by
  decide

theorem decodeWrite_encode {i : Instr} (hwf : i.wf = true) : decodeWrite (encode i).1 (encode i).2 = .ok i := by
  cases i
  case inByte v => exact if_neg (not_not.2 (beq_iff_eq.1 hwf))
  all_goals rfl

theorem decodeCmd_eq_ok {v : Word} {i : Instr} (h : decodeCmd v = .ok i) : i.wf = true ∧ encode i = (cmdPort, v) := by
  unfold decodeCmd at h
  split at h
  · cases h
  next hres =>
    split at h
    next hlook =>
      cases h
      obtain ⟨hwf, henc⟩ := opcodeMap_encodes _ (tableLookup_mem hlook)
      have hlow : v.toNat % 256 = v.toNat := Nat.mod_eq_of_lt ((ushiftRight_eq_zero_iff v 8).1 (not_not.1 hres))
      exact ⟨hwf, by rw [henc, hlow, BitVec.ofNat_toNat, BitVec.setWidth_eq]⟩
    · cases h

/-- What decodes is well formed, and the write is its encoding (30 R100). -/
theorem decodeWrite_eq_ok {off : Offset} {v : Word} {i : Instr} (h : decodeWrite off v = .ok i) :
    i.wf = true ∧ encode i = (off, v) := by
  rcases decodeWrite_port h with rfl | rfl | rfl
  · exact decodeCmd_eq_ok h
  · have hi : (Except.ok (.inWord v) : Except DecodeError Instr) = .ok i := h
    cases hi
    exact ⟨rfl, rfl⟩
  · have hi : decodeInByte v = .ok i := h
    unfold decodeInByte at hi
    split at hi
    · cases hi
    next hres =>
      cases hi
      exact ⟨beq_iff_eq.2 (not_not.1 hres), rfl⟩

/-- Only eight lanes decode, and eight lanes are those of their word (20 R72, R79). -/
theorem decodeLanes_eq_ok {off : Offset} {lanes : List Byte} {i : Instr} (h : decodeLanes off lanes = .ok i) :
    ∃ v, lanes = lanesOfWord v ∧ decodeWrite off v = .ok i := by
  unfold decodeLanes at h
  split at h
  next hlen => exact ⟨wordOfLanes lanes, (lanesOfWord_wordOfLanes lanes hlen).symm, h⟩
  · cases h

/-- Settles O3: lanes carry a word without loss, and on words the opcode map and the encoder list the same pairs. -/
theorem decodeAndEncodeAgree : Obligations.DecodeAndEncodeAgree := by
  refine ⟨fun i hwf => ?_, fun off lanes i h => ?_⟩
  · rw [decodeLanes_lanesOfWord, decodeWrite_encode hwf]
  · obtain ⟨v, rfl, hdec⟩ := decodeLanes_eq_ok h
    obtain ⟨hwf, henc⟩ := decodeWrite_eq_ok hdec
    rw [henc]
    exact ⟨hwf, rfl, rfl⟩

/-- Settles O2: ten closed words. -/
theorem writtenOutWordsDecode : Obligations.WrittenOutWordsDecode := by
  unfold Obligations.WrittenOutWordsDecode
  decide

end Sys2Proof

namespace Sys2Proof.Machine

/-- Settles O1: the step is the access, and a write that decodes is its instruction. -/
theorem stepRunsDecodedInstruction : Obligations.StepRunsDecodedInstruction := by
  intro s off v i rest hr hs hdec
  rw [decodeLanes_lanesOfWord] at hdec
  obtain ⟨hwf, -⟩ := decodeWrite_eq_ok hdec
  exact ⟨hwf, (step_host hs hr).trans (hostAccess_issues hdec _)⟩

end Sys2Proof.Machine
end

section
/-! PROOF. Every step keeps the invariant (10 R41-R43, R48, R55, R56, 42 R238): O57, O56. -/

namespace Sys2Proof.Machine

theorem errorsAgree_iff (err : BitVec 8) (errcode : BitVec 4) :
    errorsAgree err errcode = true ↔ (err = 0 ↔ errcode = 0) ∧ errcode.toNat ≤ 8 := by
  simp [errorsAgree]

/-- The first error gives ERRCODE its code, which is not 0; a later one leaves it (60 R282). -/
theorem recordError_errorsAgree {s : State} (h : errorsAgree s.err s.errcode = true) (k : ErrorCode) :
    errorsAgree (recordError k s).err (recordError k s).errcode = true := by
  rw [errorsAgree_iff] at h ⊢
  obtain ⟨hzero, hle⟩ := h
  rw [recordError_errcode]
  refine ⟨iff_of_false (recordError_err_ne_zero k s) ?_, ?_⟩ <;> split
  · cases k <;> decide
  next herr => exact mt hzero.2 herr
  · cases k <;> decide
  · exact hle

/-- Clearing ERR bits leaves ERRCODE until none is left (10 R48). -/
theorem clearErr_errorsAgree {s : State} (h : errorsAgree s.err s.errcode = true) (w : Word) :
    errorsAgree (clearErr w s).err (clearErr w s).errcode = true := by
  rw [errorsAgree_iff] at h ⊢
  obtain ⟨hzero, hle⟩ := h
  rw [clearErr_err, clearErr_errcode]
  split
  next hall => exact ⟨iff_of_true hall rfl, Nat.zero_le 8⟩
  next hleft =>
    refine ⟨iff_of_false hleft fun hcode => hleft ?_, hle⟩
    rw [hzero.2 hcode]
    exact BitVec.zero_and

/-- A 3-bit position that is not the last moves on by one (10 R41, R42). -/
theorem toNat_add_one_of_ne_last {n : BitVec 3} (h : n ≠ 7) : (n + 1).toNat = n.toNat + 1 := by
  revert n
  decide

section
variable {s : State} (h : s.Inv)
include h

/-- What an access writes at any time is not in the invariant but for ERR and ERRCODE. -/
theorem inv_control {err : BitVec 8} {errcode : BitVec 4} (herr : errorsAgree err errcode = true)
    (event irqEn : BitVec 2) (tblIndex : BitVec 20) (draws : Nat) (schedule : List Turn) (resp : Option BusResponse) :
    State.Inv { s with
      err := err, errcode := errcode, event := event, irqEn := irqEn, tblIndex := tblIndex, draws := draws,
      schedule := schedule, resp := resp } :=
  { h with errors := herr, inFlight := fun op hop => by cases op <;> exact h.inFlight _ hop }

theorem inv_schedule (schedule : List Turn) : State.Inv { s with schedule := schedule } :=
  inv_control h h.errors s.event s.irqEn s.tblIndex s.draws schedule s.resp

theorem inv_respond (r : BusResponse) : (respond r s).Inv :=
  inv_control h h.errors s.event s.irqEn s.tblIndex s.draws s.schedule (some r)

theorem inv_recordError (k : ErrorCode) : (recordError k s).Inv :=
  inv_control h (recordError_errorsAgree h.errors k) _ s.irqEn s.tblIndex s.draws s.schedule s.resp

theorem inv_noteIf (cond : Bool) (k : ErrorCode) : (noteIf cond k s).Inv := by
  cases cond
  · exact h
  · exact inv_recordError h k

/-- The registers an idle block lets the Host write are what an operation in flight has sampled: there is none. -/
theorem inv_dataWrite (hidle : s.pending = none) (fa fb : Word) (elems : Elems) {digestValid : Bool}
    (hvalid : digestValid = true → s.digestValid = true) :
    State.Inv { s with fa := fa, fb := fb, elems := elems, digestValid := digestValid } :=
  { h with digest := fun hd => h.digest (hvalid hd)
           inFlight := fun _ hop => nomatch hidle.symm.trans hop }

theorem inv_accept (hr : s.inReset = false) {op : Pending} (hop : op.matchesState s) : (accept op s).Inv :=
  { h with inFlight := fun op' hop' => by obtain rfl := Option.some.inj hop'; cases op <;> exact hop
           reset := fun hr' => nomatch hr.symm.trans hr' }

/-- The eighth element of a chunk brings ABS_POS to 0, as its permutation requires (42 R232). -/
theorem inv_absorbElem (hidle : s.pending = none) (hr : s.inReset = false) (hstage : s.stage = 0)
    (hsq : s.squeezed = false) (hbyte : s.bytePos = 0) (w : Word) : (absorbElem w s).Inv := by
  rw [absorbElem_eq]
  refine { h with digest := nofun
                  squeezed := fun hsq' => nomatch hsq.symm.trans hsq'
                  position := fun _ => ?_
                  inFlight := fun op hop => ?_
                  reset := fun hr' => nomatch hr.symm.trans hr' }
  · have hpos := h.position hsq
    simp only [BitVec.toNat_add, BitVec.ofNat_eq_ofNat, BitVec.toNat_ofNat]
    omega
  · by_cases hlast : s.absPos = 7
    · obtain rfl := Option.some.inj ((if_pos hlast).symm.trans hop)
      exact ⟨rfl, hstage, hsq, hbyte, by simp only [hlast]; rfl, rfl⟩
    · exact nomatch hidle.symm.trans ((if_neg hlast).symm.trans hop)

theorem inv_absorbWord (hidle : s.pending = none) (hr : s.inReset = false) (hstage : s.stage = 0)
    (hsq : s.squeezed = false) (hbyte : s.bytePos = 0) (w : Word) : (absorbWord w s).Inv :=
  inv_absorbElem (inv_noteIf h _ _) (by simpa using hidle) (by simpa using hr) (by simpa using hstage)
    (by simpa using hsq) (by simpa using hbyte) w

/-- A group begins empty, whatever BYTE_ACC held. -/
theorem inv_clearGroup (hidle : s.pending = none) : State.Inv { s with byteAcc := 0, bytePos := 0 } :=
  { h with byteAcc_lt := Nat.one_pos
           squeezed := fun hsq => ⟨(h.squeezed hsq).1, rfl⟩
           inFlight := fun _ hop => nomatch hidle.symm.trans hop }

theorem inv_pushByte (hidle : s.pending = none) (hsq : s.squeezed = false) (hbyte : s.bytePos ≠ 7) (b : Byte) :
    State.Inv { s with byteAcc := pushByte s.byteAcc b, bytePos := s.bytePos + 1 } := by
  refine { h with byteAcc_lt := ?_, squeezed := fun hsq' => nomatch hsq.symm.trans hsq'
                  inFlight := fun _ hop => nomatch hidle.symm.trans hop }
  have hacc := h.byteAcc_lt
  have hnext := toNat_add_one_of_ne_last hbyte
  have hlt := (s.bytePos + 1).isLt
  have hroom : s.byteAcc.toNat < 2 ^ 48 := hacc.trans_le (Nat.pow_le_pow_right (by decide) (by omega))
  show (pushByte s.byteAcc b).toNat < 2 ^ (8 * (s.bytePos + 1).toNat)
  rw [pushByte_toNat _ _ hroom, hnext, Nat.mul_add, pow_add]
  have hb := b.isLt
  omega

theorem inv_absorbByte (hidle : s.pending = none) (hr : s.inReset = false) (hstage : s.stage = 0)
    (hsq : s.squeezed = false) (b : Byte) : (absorbByte b s).Inv := by
  unfold absorbByte
  split
  · exact inv_absorbWord (inv_clearGroup h hidle) hidle hr hstage hsq rfl _
  next hbyte => exact inv_pushByte h hidle hsq hbyte b

/-- An acceptance samples the registers as they are, after the checks the invariant remembers. -/
theorem inv_accepted (hidle : s.pending = none) (hr : s.inReset = false) {i : Instr} {u : State} (hu : Accepted s i u) :
    u.Inv := by
  cases hu
  case perm hstage => exact inv_accept h hr ⟨rfl, hstage⟩
  case pstep => exact inv_accept h hr ⟨rfl, rfl⟩
  case sfinal hstage hsq hbyte => exact inv_accept h hr ⟨rfl, rfl, hstage, hsq, hbyte⟩
  case inWord w hstage hsq hbyte => exact inv_absorbWord h hidle hr hstage hsq hbyte w
  case inByte v _ hstage hsq => exact inv_absorbByte h hidle hr hstage hsq _
  case nop => exact inv_accept h hr trivial
  case sinit => exact inv_accept h hr trivial
  case faddc => exact inv_accept (inv_noteIf h _ _) (by simpa using hr) ⟨by simp, by simp⟩
  case fsubc => exact inv_accept (inv_noteIf h _ _) (by simpa using hr) ⟨by simp, by simp⟩
  all_goals exact inv_accept h hr ⟨rfl, rfl⟩

theorem inv_access (hr : s.inReset = false) {a : BusAccess} {t : State} (ht : AccessEffect s a t) : t.Inv := by
  cases ht
  case aborted k _ r => exact inv_respond (inv_recordError h k) r
  case noTable => exact inv_respond (inv_recordError h _) _
  case answered v n => exact inv_control h h.errors _ _ _ n _ _
  case eventWrite v => exact inv_control h h.errors _ _ _ _ _ _
  case irqEnWrite v => exact inv_control h h.errors _ _ _ _ _ _
  case errWrite v => exact inv_control h (clearErr_errorsAgree h.errors v) _ _ _ _ _ _
  case faWrite v hidle => exact inv_respond (inv_dataWrite h hidle v _ _ id) _
  case fbWrite v hidle => exact inv_respond (inv_dataWrite h hidle _ v _ id) _
  case tblIndexWrite v _ => exact inv_control h h.errors _ _ _ _ _ _
  case elemWrite i v hidle => exact inv_respond (inv_dataWrite h hidle _ _ _ (digestValid := false) nofun) _
  case issued hidle u hu => exact inv_respond (inv_accepted h hidle hr hu) _

/-- A stage that is not the last leaves one more to come (41 R195). -/
theorem nextStage_lt : (if s.stage.toNat + 1 = s.nstage then 0 else s.stage + 1 : BitVec 8).toNat < s.nstage := by
  have hlt := h.stage_lt
  split
  · exact Nat.zero_lt_of_lt hlt
  next hlast =>
    have hmax : s.nstage ≤ 255 := (nstage_bounds s.cfg).2
    simp only [BitVec.toNat_add, BitVec.ofNat_eq_ofNat, BitVec.toNat_ofNat]
    omega

/-- A completion leaves no operation in flight, and of the sponge what the operation's acceptance had checked. -/
theorem inv_complete {op : Pending} (hop : s.pending = some op) : (complete op s).Inv := by
  have hmatch := h.inFlight op hop
  have hfree : ∀ op', (complete op s).pending = some op' → op'.matchesState (complete op s) := by simp
  have hreset : (complete op s).inReset = true → (complete op s).pending = none := by simp
  cases op with
  | nop => exact { h with inFlight := hfree, reset := hreset }
  | field op a b => cases op <;> exact { h with inFlight := hfree, reset := hreset }
  | perm S => exact { h with digest := nofun, inFlight := hfree, reset := hreset }
  | chunkPerm S => exact { h with digest := nofun, inFlight := hfree, reset := hreset }
  | pstep S st =>
    obtain ⟨-, rfl⟩ := hmatch
    exact { h with stage_lt := nextStage_lt h, digest := nofun, inFlight := hfree, reset := hreset }
  | sinit =>
    exact { h with stage_lt := Nat.zero_lt_of_lt h.stage_lt, byteAcc_lt := Nat.one_pos, digest := nofun,
                   squeezed := nofun, position := fun _ => rfl, inFlight := hfree, reset := hreset }
  | sfinal S need =>
    obtain ⟨-, -, -, -, hbyte⟩ := hmatch
    exact { h with digest := fun _ => rfl, squeezed := fun _ => ⟨rfl, hbyte⟩, position := nofun, inFlight := hfree
                   reset := hreset }

end

/-- The reset values meet the invariant in every build (10 R59). -/
theorem inv_clearRegs (s : State) : (clearRegs s).Inv where
  stage_lt := (Nat.zero_lt_succ 2).trans_le (nstage_bounds s.cfg).1
  byteAcc_lt := Nat.one_pos
  errors := rfl
  digest := nofun
  squeezed := nofun
  position := fun _ => rfl
  inFlight := nofun
  reset := fun _ => rfl

/-- Settles O56: State.reset is its own clearing. -/
theorem invariantHoldsAtReset : Obligations.InvariantHoldsAtReset := inv_clearRegs State.reset

/-- Settles O57: the accesses, the completions and the reset input each keep the invariant. -/
theorem everyStepKeepsTheInvariant : Obligations.EveryStepKeepsTheInvariant := by
  intro s t h hstep
  cases step_effect hstep with
  | access a rest _ hr _ ht => exact inv_access (inv_schedule h rest) hr ht
  | ignored a rest => exact inv_control h h.errors _ _ _ _ rest none
  | completed _ op hop => exact inv_complete (inv_schedule h _) hop
  | rested => exact inv_schedule h _
  | asserted rest => exact inv_clearRegs _
  | released rest => exact inv_clearRegs _
  | notAsserted rest => exact inv_schedule h rest

end Sys2Proof.Machine
end

section
/-! PROOF. What a step does to ERR and EVENT (60 R282, R288, R294): O8, O9, O12. A bit is cleared only by a W1C write or
by reset. -/

namespace Sys2Proof.Machine

theorem clearOnes_getLsbD_of_not {n : Nat} {x : BitVec n} {w : Word} {j : Nat} (hx : x.getLsbD j = true)
    (hw : w.getLsbD j = false) : (clearOnes x w).getLsbD j = true := by
  have hj : j < n := BitVec.lt_of_getLsbD hx
  simp [clearOnes, hx, hw, hj]

/-- What an access does to ERR, ERRCODE and EVENT: nothing, one recorded error, or a W1C write (60 R288, R293). -/
theorem AccessEffect.errors {s t : State} {a : BusAccess} (h : AccessEffect s a t) :
    (t.err = s.err ∧ t.errcode = s.errcode ∧ t.event = s.event) ∨
    (∃ k, t.err = (recordError k s).err ∧ t.errcode = (recordError k s).errcode ∧ t.event = (recordError k s).event) ∨
    (∃ v, a = .write 0x020 8 v ∧ t.err = s.err ∧ t.event = clearOnes s.event v) ∨
    (∃ v, a = .write 0x030 8 v ∧ t.err = clearOnes s.err v ∧ t.event = s.event) := by
  cases h with
  | aborted a k => exact .inr (.inl ⟨k, rfl, rfl, rfl⟩)
  | noTable => exact .inr (.inl ⟨.table, rfl, rfl, rfl⟩)
  | eventWrite v => exact .inr (.inr (.inl ⟨v, rfl, rfl, rfl⟩))
  | errWrite v => exact .inr (.inr (.inr ⟨v, rfl, rfl, rfl⟩))
  | issued off v i hd idle u hu =>
    rcases hu.errors with hsame | ⟨k, -, hrec⟩
    · exact .inl hsame
    · exact .inr (.inl ⟨k, hrec⟩)
  | answered | irqEnWrite | faWrite | fbWrite | tblIndexWrite | elemWrite => exact .inl ⟨rfl, rfl, rfl⟩

/-- A register whose set bits stay set over the next step, or one that a W1C write at `off` clears bits of. -/
def StickyBut (s : State) (off : Offset) {n : Nat} (x y : BitVec n) : Prop :=
  (∀ j, x.getLsbD j = true → y.getLsbD j = true) ∨ ∃ v, s.hostWrites off v ∧ y = clearOnes x v

section
variable {s : State} {off : Offset} {n : Nat} {x y : BitVec n}

theorem StickyBut.of_eq (h : y = x) : StickyBut s off x y := .inl fun _ hj => h ▸ hj

theorem StickyBut.of_or (z : BitVec n) (h : y = x ||| z) : StickyBut s off x y :=
  .inl fun j hj => by rw [h, BitVec.getLsbD_or, hj, Bool.true_or]

/-- A cleared bit was written as a one. -/
theorem StickyBut.cleared (h : StickyBut s off x y) {j : Nat} (hset : x.getLsbD j = true)
    (hclear : y.getLsbD j = false) : ∃ v : Word, v.getLsbD j = true ∧ s.hostWrites off v := by
  rcases h with hkept | ⟨v, hwrite, rfl⟩
  · exact nomatch (hkept j hset).symm.trans hclear
  · refine ⟨v, ?_, hwrite⟩
    by_contra hv
    exact nomatch (clearOnes_getLsbD_of_not hset (Bool.eq_false_iff.2 hv)).symm.trans hclear

end

/-- Only reset clears ERR or EVENT bits otherwise than by a W1C write (60 R282, R294). -/
theorem StepEffect.sticky {s t : State} (h : StepEffect s t) :
    s.resetMoves ∨ StickyBut s 0x030 s.err t.err ∧ StickyBut s 0x020 s.event t.event := by
  cases h with
  | access a rest hs hr _ ht =>
    right
    rcases ht.errors with ⟨herr, -, hevent⟩ | ⟨k, herr, -, hevent⟩ | ⟨v, rfl, herr, hevent⟩ | ⟨v, rfl, herr, hevent⟩
    · exact ⟨.of_eq herr, .of_eq hevent⟩
    · exact ⟨.of_or _ herr, .of_or _ hevent⟩
    · exact ⟨.of_eq herr, .inr ⟨v, ⟨hr, rest, hs⟩, hevent⟩⟩
    · exact ⟨.inr ⟨v, ⟨hr, rest, hs⟩, herr⟩, .of_eq hevent⟩
  | completed hm op ho =>
    obtain ⟨-, -, herr, -⟩ := complete_frame op { s with schedule := s.schedule.tail }
    exact .inr ⟨.of_eq herr, .of_or _ (complete_event op _)⟩
  | ignored | rested | notAsserted => exact .inr ⟨.of_eq rfl, .of_eq rfl⟩
  | asserted rest hs => exact .inl ⟨rest, .inl hs⟩
  | released rest hs => exact .inl ⟨rest, .inr hs⟩

theorem recordError_event_error (k : ErrorCode) (s : State) : (recordError k s).event.getLsbD 1 = true := by
  simp [eventError]

/-- Setting an ERR bit that is set already (60 R282). -/
theorem recordError_repeated {k : ErrorCode} {s : State} (h : s.err.getLsbD (k.code.toNat - 1) = true) :
    (recordError k s).err = s.err ∧ (recordError k s).errcode = s.errcode := by
  have hbit : ∀ err : BitVec 8, err.getLsbD (k.code.toNat - 1) = true → err ||| k.bit = err ∧ err ≠ 0 := by
    cases k <;> decide +kernel
  obtain ⟨hsame, hne⟩ := hbit s.err h
  exact ⟨hsame, if_neg hne⟩

/-- Settles O8: the bit of an error is the one its code names, and only a W1C write or reset clears it. -/
theorem recordedErrorsStick : Obligations.RecordedErrorsStick := by
  refine ⟨fun k s => ?_, fun k s hset => ?_, fun s t j hstep hset hclear => ?_⟩
  · rw [← bit_eq_shift]
    rfl
  · obtain ⟨herr, hcode⟩ := recordError_repeated hset
    exact ⟨herr, hcode, recordError_event_error k s⟩
  · exact (step_effect hstep).sticky.imp_right fun ⟨herr, _⟩ => herr.cleared hset hclear

/-- Settles O9: a completion and a recorded error each set their own bit of EVENT. -/
theorem eventsStayPending : Obligations.EventsStayPending := by
  refine ⟨fun s t j hstep hset hclear => ?_, fun s op hop hm => ?_, fun k s => ?_⟩
  · exact (step_effect hstep).sticky.imp_right fun ⟨_, hevent⟩ => hevent.cleared hset hclear
  · exact ⟨_, step_completes hop hm, by simp [eventDone], by simp [eventDone]⟩
  · exact ⟨recordError_event_error k s, by simp [eventError]⟩

/-- Settles O12: the one error of an access is an aborting one or is noted, but for the W1C writes. -/
theorem oneErrorPerAccess : Obligations.OneErrorPerAccess := by
  intro a s hw1c
  obtain ⟨t, ht⟩ := hostAccess_isNext a s
  refine ⟨t, ht, ?_⟩
  cases hostAccess_effect ht with
  | aborted _ k hk r => exact .inl ⟨k, r, hk, rfl⟩
  | noTable => exact .inr (.inl ⟨.table, by simp, rfl, rfl, rfl, .inr rfl⟩)
  | answered off size v n => exact .inr (.inr ⟨rfl, rfl, rfl, .inr ⟨v, rfl⟩⟩)
  | eventWrite v => exact absurd rfl (hw1c _ v rfl).1
  | errWrite v => exact absurd rfl (hw1c _ v rfl).2
  | irqEnWrite | faWrite | fbWrite | tblIndexWrite | elemWrite => exact .inr (.inr ⟨rfl, rfl, rfl, .inl rfl⟩)
  | issued off v i hd idle u hu =>
    rcases hu.errors with ⟨herr, hcode, hevent⟩ | ⟨k, hk, herr, hcode, hevent⟩
    · exact .inr (.inr ⟨herr, hcode, hevent, .inl rfl⟩)
    · exact .inr (.inl ⟨k, by simp at hk ⊢; tauto, herr, hcode, hevent, .inl rfl⟩)

end Sys2Proof.Machine
end

section
/-! PROOF. The busy protocol (20 R78, 60 R290, 70 R332, R333, 10 R37): O14, O15, O16, O17. -/

namespace Sys2Proof.Machine

theorem guardedWrite_busy {s : State} (hbusy : s.pending ≠ none) (checks : List (Bool × ErrorCode))
    (effect : State → State) : guardedWrite ((s.busy, .busy) :: checks) effect s = abortWrite .busy s :=
  guardedWrite_fail (by simp [(busy_iff s).2 hbusy]) effect s

/-- Only EVENT, IRQ_EN and ERR are written while BUSY (20 R78). -/
theorem writeReg_busy {s : State} (hbusy : s.pending ≠ none) {r : Reg} (hro : r.readOnly = false)
    (hwb : r.writableBusy = false) (v : Word) : writeReg r v s = .next (abortWrite .busy s) := by
  have port : writePort r.offset v s = .next (abortWrite .busy s) := by
    unfold writePort
    split
    · exact exec_busy hbusy _
    · exact congrArg _ (guardedWrite_busy hbusy _ _)
  cases r
  case cmd | inWord | inByte => exact port
  case fa | fb | tblIndex | elem => exact congrArg _ (guardedWrite_busy hbusy _ _)
  case event | irqEn | err => exact nomatch hwb
  all_goals exact nomatch hro

/-- A full-word write to a mapped register is that register's write. -/
theorem hostAccess_write_offset (r : Reg) (v : Word) (s : State) :
    hostAccess (.write r.offset 8 v) s = writeReg r v s :=
  busWrite_offset r v s

/-- Settles O14: BUSY is the first check of every instruction and of every register that may not be written then. -/
theorem writesWhileBusyAreDropped : Obligations.WritesWhileBusyAreDropped := by
  intro s hbusy
  have dropped (r : Reg) (hro : r.readOnly = false) (hwb : r.writableBusy = false) (v : Word) :=
    (hostAccess_write_offset r v s).trans (writeReg_busy hbusy hro hwb v)
  refine ⟨exec_busy hbusy, fun off v hoff => ?_, fun i v => dropped (.elem i) rfl rfl v⟩
  simp only [List.mem_cons, List.not_mem_nil, or_false] at hoff
  rcases hoff with rfl | rfl | rfl | rfl | rfl | rfl
  · exact dropped .cmd rfl rfl v
  · exact dropped .fa rfl rfl v
  · exact dropped .fb rfl rfl v
  · exact dropped .inWord rfl rfl v
  · exact dropped .inByte rfl rfl v
  · exact dropped .tblIndex rfl rfl v

/-- With an operation in flight, an access that writes anything else is not taken (70 R332, R333). -/
theorem AccessEffect.busy_frame {s t : State} {a : BusAccess} (h : AccessEffect s a t) (hbusy : s.pending ≠ none) :
    t = { s with
      event := t.event, irqEn := t.irqEn, err := t.err, errcode := t.errcode, draws := t.draws, resp := t.resp } := by
  cases h with
  | aborted | noTable | answered | eventWrite | irqEnWrite | errWrite => rfl
  | faWrite _ idle | fbWrite _ idle | tblIndexWrite _ idle | elemWrite _ _ idle | issued _ _ _ _ idle =>
    exact absurd idle hbusy

/-- Settles O15: the step is the access, whose effects on a busy block are few. -/
theorem accessesDoNotDisturbTheOperationInFlight : Obligations.AccessesDoNotDisturbTheOperationInFlight := by
  intro s a rest hbusy hr hs
  obtain ⟨t, ht⟩ := hostAccess_isNext a { s with schedule := rest }
  exact ⟨t, (step_host hs hr).trans ht, (hostAccess_effect ht).busy_frame hbusy⟩

theorem step_notAsserted {s : State} {rest : List Turn} (hs : s.schedule = .resetRelease :: rest)
    (hr : s.inReset = false) : step s = .next { s with schedule := rest } := by
  simp [step, hs, takeTurn, hr]

/-- A turn that is neither the Core's nor a reset keeps the operation in flight (70 R332). -/
theorem step_keeps_pending {s : State} {turn : Turn} {rest : List Turn} (hs : s.schedule = turn :: rest)
    (hr : s.inReset = false) (hbusy : s.pending ≠ none) (hcore : turn ≠ .core) (hreset : turn ≠ .resetAssert) :
    ∃ t, step s = .next t ∧ t.pending = s.pending ∧ t.inReset = false ∧ t.schedule = rest := by
  cases turn with
  | host a =>
    obtain ⟨t, ht, heq⟩ := accessesDoNotDisturbTheOperationInFlight s a rest hbusy hr hs
    exact ⟨t, ht, by rw [heq], by rw [heq]; exact hr, by rw [heq]⟩
  | core => exact absurd rfl hcore
  | resetAssert => exact absurd rfl hreset
  | resetRelease => exact ⟨_, step_notAsserted hs hr, rfl, hr, rfl⟩

/-- Settles O16, by induction on the schedule: the Core's turn comes in it or after it. -/
theorem everyAcceptedOperationCompletes : Obligations.EveryAcceptedOperationCompletes := by
  intro s op hr hop hno
  generalize hturns : s.schedule = turns at hno ⊢
  induction turns generalizing s with
  | nil => exact ⟨0, s, Nat.zero_le _, run_zero s, hop, step_completes hop ⟨hr, .inl hturns⟩⟩
  | cons turn rest ih =>
    by_cases hcore : turn = .core
    · subst hcore
      exact ⟨0, s, Nat.zero_le _, run_zero s, hop, step_completes hop ⟨hr, .inr ⟨rest, hturns⟩⟩⟩
    · obtain ⟨hhead, htail⟩ := List.forall_mem_cons.1 hno
      have hbusy : s.pending ≠ none := by simp [hop]
      obtain ⟨t, hstep, hpend, hreset, hrest⟩ := step_keeps_pending hturns hr hbusy hcore hhead
      obtain ⟨k, u, hk, hrun, hu⟩ := ih t hreset (hpend.trans hop) hrest htail
      exact ⟨k + 1, u, Nat.succ_le_succ hk, (run_succ hstep k).trans hrun, hu⟩

/-- An access changes PENDING only by issuing an instruction to an idle block (60 R289). -/
theorem AccessEffect.pending {s t : State} {a : BusAccess} (h : AccessEffect s a t) :
    t.pending = s.pending ∨
    (s.pending = none ∧ ∃ off v, a = .write off 8 v ∧ off ∈ [(0x010 : Offset), 0x068, 0x070]) := by
  cases h with
  | issued off v i hd idle u hu =>
    refine .inr ⟨idle, off, v, rfl, ?_⟩
    rcases decodeWrite_port hd with rfl | rfl | rfl <;> decide
  | _ => exact .inl rfl

/-- Who sets and clears PENDING (10 R37, R56). -/
theorem StepEffect.pending {s t : State} (h : StepEffect s t) :
    t.pending = s.pending ∨
    (s.pending = none ∧ ∃ off v, off ∈ [(0x010 : Offset), 0x068, 0x070] ∧ s.hostWrites off v) ∨
    (t.pending = none ∧ (s.coreMoves ∨ s.resetMoves)) := by
  cases h with
  | access a rest hs hr _ ht =>
    rcases ht.pending with hsame | ⟨hidle, off, v, rfl, hoff⟩
    · exact .inl hsame
    · exact .inr (.inl ⟨hidle, off, v, hoff, hr, rest, hs⟩)
  | completed hm op ho => exact .inr (.inr ⟨complete_pending op _, .inl hm⟩)
  | ignored | rested | notAsserted => exact .inl rfl
  | asserted rest hs => exact .inr (.inr ⟨rfl, .inr ⟨rest, .inl hs⟩⟩)
  | released rest hs => exact .inr (.inr ⟨rfl, .inr ⟨rest, .inr hs⟩⟩)

/-- Settles O17: BUSY is PENDING, which an issued instruction sets and a completion or reset clears. -/
theorem busySetByAcceptanceClearedByCompletion : Obligations.BusySetByAcceptanceClearedByCompletion := by
  intro s t hstep
  simp only [busy_iff, busy_eq_false]
  rcases (step_effect hstep).pending with hsame | ⟨hidle, hwrite⟩ | ⟨hnone, hmoves⟩
  · exact ⟨fun hs ht => absurd (hsame.trans hs) ht, fun hs ht => absurd (hsame.symm.trans ht) hs⟩
  · exact ⟨fun _ _ => hwrite, fun hs => absurd hidle hs⟩
  · exact ⟨fun _ ht => absurd hnone ht, fun _ _ => hmoves⟩

end Sys2Proof.Machine
end

section
/-! PROOF. Reset while it is asserted, and that no step stops (60 R280, 70 R320, R321): O7, O13. -/

namespace Sys2Proof.Machine

theorem step_asserted {s : State} {rest : List Turn} (hs : s.schedule = .resetAssert :: rest) :
    step s = .next (clearRegs { s with schedule := rest, inReset := true }) := by
  simp [step, hs, takeTurn]

theorem step_access_inReset {s : State} {a : BusAccess} {rest : List Turn} (hs : s.schedule = .host a :: rest)
    (hr : s.inReset = true) : step s = .next { s with schedule := rest, resp := none } := by
  simp [step, hs, takeTurn, hr]

theorem step_core_inReset {s : State} {rest : List Turn} (hs : s.schedule = .core :: rest) (hr : s.inReset = true) :
    step s = .next { s with schedule := rest } := by
  simp [step, hs, takeTurn, hr]

/-- Settles O7: the assertion clears every register, and a block in reset takes no access and makes no step. -/
theorem assertedResetStopsTheBlock : Obligations.AssertedResetStopsTheBlock := by
  refine ⟨fun s t rest hs hstep => ?_, fun _ _ _ hr hs => step_access_inReset hs hr,
    fun _ _ hr hs => step_core_inReset hs hr⟩
  cases (step_asserted hs).symm.trans hstep
  exact ⟨rfl, rfl, rfl, rfl, rfl, rfl⟩

theorem takeTurn_isNext (turn : Turn) (s : State) : ∃ t, takeTurn turn s = .next t := by
  cases hr : s.inReset <;> cases turn
  case false.host a => simpa [takeTurn, hr] using hostAccess_isNext a s
  all_goals exact ⟨_, by simp only [takeTurn, hr]; rfl⟩

/-- Settles O13: a step is a turn, and every turn answers a next state. -/
theorem noStepStops : Obligations.NoStepStops := by
  intro s
  unfold step
  split
  · exact takeTurn_isNext .core s
  · exact takeTurn_isNext _ _

end Sys2Proof.Machine
end

section
/-! PROOF. The accesses of the bus port (20 R73-R78, 10 R33-R54): O11, O18, O19, O20, O21, O22, O23, O24. -/

namespace Sys2Proof.Machine

/-! ### Writes -/

/-- Settles O11: the three control registers are written without a check. -/
theorem controlWritesWorkAtEveryTime : Obligations.ControlWritesWorkAtEveryTime :=
  fun s v => ⟨hostAccess_write_offset .event v s, hostAccess_write_offset .irqEn v s, hostAccess_write_offset .err v s⟩

/-- Settles O24: an idle block takes any word but one with reserved bits of TBL_INDEX. -/
theorem idleWritesStoreTheWord : Obligations.IdleWritesStoreTheWord := by
  intro s v hidle
  have stored {r : Reg} {effect : State → State}
      (hr : writeReg r v s = .next (guardedWrite [(s.busy, .busy)] effect s)) :
      hostAccess (.write r.offset 8 v) s = .next (respond (.writeDone false) (effect s)) := by
    rw [hostAccess_write_offset, hr, guardedWrite_idle hidle]
  have index := hostAccess_write_offset .tblIndex v s
  refine ⟨stored (r := .fa) rfl, stored (r := .fb) rfl, fun i => stored (r := .elem i) rfl, fun hfit => ?_,
    fun hbig => ?_⟩
  · refine index.trans (congrArg _ (guardedWrite_pass ?_ _ s))
    simp [hidle, (ushiftRight_eq_zero_iff v 20).2 hfit]
  · refine index.trans (congrArg _ (guardedWrite_fail ?_ _ s))
    have hres : v >>> 20 ≠ 0 := mt (ushiftRight_eq_zero_iff v 20).1 (Nat.not_lt.2 hbig)
    simpa [hidle] using hres

theorem writeReg_readOnly {r : Reg} (hro : r.readOnly = true) (v : Word) (s : State) :
    writeReg r v s = .next (abortWrite .access s) := by
  cases r
  case cmd | event | irqEn | err | fa | fb | inWord | inByte | tblIndex | elem => exact nomatch hro
  all_goals rfl

/-- A write to a read-only register only records ACCESS, while BUSY too (20 R75, log 8). -/
theorem hostAccess_write_readOnly {r : Reg} (hro : r.readOnly = true) (v : Word) (s : State) :
    hostAccess (.write r.offset 8 v) s = .next (abortWrite .access s) :=
  (hostAccess_write_offset r v s).trans (writeReg_readOnly hro v s)

/-! ### Offsets without a register -/

/-- The offsets with no register: unaligned ones and the two holes of the window (20 R72, R74). -/
theorem regAt_eq_none {off : Offset}
    (h : off.toNat % 8 ≠ 0 ∨ (0x088 ≤ off.toNat ∧ off.toNat < 0x100) ∨ 0x160 ≤ off.toNat) : regAt off = none := by
  have hlen : controlRegs.length = 17 := rfl
  unfold regAt
  dsimp only
  split_ifs
  · rfl
  · exact List.getElem?_eq_none (by omega)
  · omega
  · rfl

section
variable {off : Offset} {size : Nat}
  (h : size ≠ 8 ∨ off.toNat % 8 ≠ 0 ∨ (0x088 ≤ off.toNat ∧ off.toNat < 0x100) ∨ 0x160 ≤ off.toNat)
include h

theorem wellSized_false_or_unmapped : wellSized off size = false ∨ regAt off = none := by
  rcases h with hsize | hoff
  · exact .inl (by simp [wellSized, hsize])
  · exact .inr (regAt_eq_none hoff)

theorem busRead_unmapped (s : State) : busRead off size s = abortRead .access s := by
  rcases wellSized_false_or_unmapped h with hw | hreg
  · simp [busRead, hw]
  · simp [busRead, hreg]

theorem busWrite_unmapped (v : Word) (s : State) : busWrite off size v s = .next (abortWrite .access s) := by
  rcases wellSized_false_or_unmapped h with hw | hreg
  · simp [busWrite, hw]
  · simp [busWrite, hreg]

end

/-! ### Reads -/

theorem hostAccess_read_offset (r : Reg) (s : State) : hostAccess (.read r.offset 8) s = .next (readReg r s) :=
  congrArg _ (busRead_offset r s)

/-- A register whose value is specified is read exactly, and the read changes nothing (20 R77, R78). -/
theorem hostAccess_read_exact {s : State} {r : Reg} (hdata : r ≠ .tblData)
    (h : s.pending = none ∨ r.unspecifiedBusy = false ∧ r ≠ .status) :
    hostAccess (.read r.offset 8) s = .next { s with resp := some (.readDone (s.regValue r) false) } := by
  rw [hostAccess_read_offset]
  rcases h with hidle | ⟨hspec, hstatus⟩
  · simp [readReg, (busy_eq_false s).2 hidle, hdata, respond]
  · simp [readReg, hspec, hstatus, hdata, respond]

/-- Settles O18: no register, a read-only one, or a port that reads 0, whatever is in flight. -/
theorem badAccessesRecordAccess : Obligations.BadAccessesRecordAccess := by
  refine ⟨fun s off size h => ⟨congrArg _ (busRead_unmapped h s), fun v => busWrite_unmapped h v s⟩,
    fun s off v hoff => ?_, fun s off hoff => ?_⟩
  · have refused {r : Reg} (hro : r.readOnly = true) := hostAccess_write_readOnly hro v s
    simp only [List.mem_cons, List.not_mem_nil, or_false] at hoff
    rcases hoff with rfl | rfl | rfl | rfl | rfl | rfl | rfl | rfl
    · exact refused (r := .id) rfl
    · exact refused (r := .param) rfl
    · exact refused (r := .status) rfl
    · exact refused (r := .errcode) rfl
    · exact refused (r := .fr) rfl
    · exact refused (r := .absCnt) rfl
    · exact refused (r := .permCnt) rfl
    · exact refused (r := .tblData) rfl
  · simp only [List.mem_cons, List.not_mem_nil, or_false] at hoff
    rcases hoff with rfl | rfl | rfl
    · exact hostAccess_read_exact (r := .cmd) nofun (.inr ⟨rfl, nofun⟩)
    · exact hostAccess_read_exact (r := .inWord) nofun (.inr ⟨rfl, nofun⟩)
    · exact hostAccess_read_exact (r := .inByte) nofun (.inr ⟨rfl, nofun⟩)

/-- Settles O19: while idle every register but TBL_DATA is read exactly. -/
theorem idleReadsAnswerTheRegister : Obligations.IdleReadsAnswerTheRegister := by
  intro s hidle
  have readExact (r : Reg) (hdata : r ≠ .tblData) := hostAccess_read_exact hdata (.inl hidle)
  exact ⟨readExact .id nofun, readExact .cmd nofun, readExact .event nofun, readExact .irqEn nofun,
    readExact .err nofun, readExact .errcode nofun, readExact .fa nofun, readExact .fb nofun, readExact .fr nofun, readExact .absCnt nofun,
    readExact .permCnt nofun, readExact .inWord nofun, readExact .inByte nofun, readExact .tblIndex nofun,
    fun i => readExact (.elem i) nofun⟩

/-- A register without a specified value is read as a free one (20 R78; log 5). -/
theorem hostAccess_read_free {s : State} {r : Reg} (hbusy : s.pending ≠ none) (hfree : r.unspecifiedBusy = true) :
    hostAccess (.read r.offset 8) s = .next (drawRead id s) := by
  rw [hostAccess_read_offset]
  simp [readReg, (busy_iff s).2 hbusy, hfree]

/-- Settles O22: a register is read as a free value or exactly. -/
theorem busyReadsChangeNothing : Obligations.BusyReadsChangeNothing := by
  intro s hbusy
  have free (r : Reg) (hfree : r.unspecifiedBusy = true) :
      ∃ (t : State) (v : Word), hostAccess (.read r.offset 8) s = .next t ∧ t.resp = some (.readDone v false) ∧
        { t with resp := s.resp, draws := s.draws } = s :=
    ⟨_, _, hostAccess_read_free hbusy hfree, rfl, rfl⟩
  have readExact (r : Reg) (hdata : r ≠ .tblData) (hspec : r.unspecifiedBusy = false) (hstatus : r ≠ .status) :=
    hostAccess_read_exact (s := s) hdata (.inr ⟨hspec, hstatus⟩)
  refine ⟨fun off hoff => ?_, readExact .id nofun rfl nofun, readExact .cmd nofun rfl nofun,
    readExact .event nofun rfl nofun, readExact .irqEn nofun rfl nofun, readExact .err nofun rfl nofun, readExact .errcode nofun rfl nofun,
    readExact .fa nofun rfl nofun, readExact .fb nofun rfl nofun, readExact .inWord nofun rfl nofun,
    readExact .inByte nofun rfl nofun, readExact .tblIndex nofun rfl nofun⟩
  simp only [List.mem_cons, List.not_mem_nil, or_false] at hoff
  rcases hoff with (rfl | rfl | rfl) | ⟨i, rfl⟩
  · exact free .fr rfl
  · exact free .absCnt rfl
  · exact free .permCnt rfl
  · exact free (.elem i) rfl

/-! ### STATUS -/

/-- Bits that lie in the places of the STATUS fields other than BUSY and ERR_ANY (10 R36). -/
def InFieldMask (w : Word) : Prop := w &&& statusFieldMask = w

theorem InFieldMask.or {v w : Word} (hv : InFieldMask v) (hw : InFieldMask w) : InFieldMask (v ||| w) := by
  rw [InFieldMask, BitVec.and_or_distrib_right, hv, hw]

theorem statusFields_inFieldMask (s : State) : InFieldMask s.statusFields := by
  have hbit : ∀ b, InFieldMask (bit0 b <<< 1) ∧ InFieldMask (bit0 b <<< 2) ∧ InFieldMask (bit0 b <<< 3) := by
    unfold InFieldMask; decide
  have hpos : ∀ n : BitVec 3, InFieldMask (n.setWidth 64 <<< 4) ∧ InFieldMask (n.setWidth 64 <<< 8) := by
    unfold InFieldMask; decide
  have hstage : ∀ n : BitVec 8, InFieldMask (n.setWidth 64 <<< 16) := by
    unfold InFieldMask; decide
  obtain ⟨hvalid, -, -⟩ := hbit s.digestValid
  obtain ⟨-, hsq, -⟩ := hbit s.squeezed
  obtain ⟨-, -, heq⟩ := hbit s.eq
  obtain ⟨habs, -⟩ := hpos s.absPos
  obtain ⟨-, hbyte⟩ := hpos s.bytePos
  exact ((((hvalid.or hsq).or heq).or habs).or hbyte).or (hstage s.stage)

/-- The free bits of a busy read are confined to the fields (log 6). -/
theorem and_mask_inFieldMask (d : Word) : InFieldMask (d &&& statusFieldMask) := by
  rw [InFieldMask, BitVec.and_assoc, BitVec.and_self]

/-- BUSY, ERR_ANY and the bits of no field, whatever the other fields read (10 R36). -/
theorem statusExact_or {f : Word} (hf : InFieldMask f) (s : State) :
    (s.statusExact ||| f).getLsbD 0 = s.busy ∧ (s.statusExact ||| f).getLsbD 31 = decide (s.err ≠ 0) ∧
    (s.statusExact ||| f) &&& 0xFFFFFFFF7F00F880 = 0 := by
  have hexact : ∀ b e : Bool, (bit0 b ||| bit0 e <<< 31).getLsbD 0 = b ∧ (bit0 b ||| bit0 e <<< 31).getLsbD 31 = e ∧
      (bit0 b ||| bit0 e <<< 31) &&& 0xFFFFFFFF7F00F880 = 0 := by decide
  have hreserved : statusFieldMask &&& 0xFFFFFFFF7F00F880 = 0 := by decide
  have hoff {j : Nat} (hj : statusFieldMask.getLsbD j = false) : f.getLsbD j = false := by
    rw [← hf, BitVec.getLsbD_and, hj, Bool.and_false]
  obtain ⟨hbusy, herr, hzero⟩ := hexact s.busy s.errAny
  refine ⟨?_, ?_, ?_⟩
  · rw [BitVec.getLsbD_or, hoff (by decide), Bool.or_false]
    exact hbusy
  · rw [BitVec.getLsbD_or, hoff (by decide), Bool.or_false]
    exact herr.trans (by simp [State.errAny, bne, Bool.beq_eq_decide_eq])
  · rw [BitVec.and_or_distrib_right, ← hf, BitVec.and_assoc, hreserved]
    exact (congrArg₂ (· ||| ·) hzero BitVec.and_zero).trans BitVec.or_zero

@[simp] theorem bit0_getElem (b : Bool) (j : Nat) (hj : j < 64) : (bit0 b)[j] = (b && decide (j = 0)) := by
  cases b <;> simp [bit0]

/-- The other fields at their places, while idle (10 R36). -/
theorem statusWord_fields (s : State) :
    s.statusWord.getLsbD 1 = s.digestValid ∧ s.statusWord.getLsbD 2 = s.squeezed ∧ s.statusWord.getLsbD 3 = s.eq ∧
    s.statusWord.extractLsb' 4 3 = s.absPos ∧ s.statusWord.extractLsb' 8 3 = s.bytePos ∧
    s.statusWord.extractLsb' 16 8 = s.stage := by
  simp only [State.statusWord, State.statusExact, State.statusFields]
  refine ⟨by simp, by simp, by simp, ?_, ?_, ?_⟩
  all_goals
    ext i hi
    interval_cases i <;> simp

/-- Settles O20: an idle read has the fields' word beside BUSY and ERR_ANY, a busy one free bits in its place. -/
theorem statusFieldsReadAtTheirPlaces : Obligations.StatusFieldsReadAtTheirPlaces := by
  intro s
  by_cases hidle : s.pending = none
  · obtain ⟨hbusy, herr, hzero⟩ := statusExact_or (statusFields_inFieldMask s) s
    exact ⟨_, _, hostAccess_read_exact (r := .status) nofun (.inl hidle), rfl, rfl, hbusy, herr, hzero,
      fun _ => ⟨rfl, statusWord_fields s⟩⟩
  · have hread : hostAccess (.read 0x018 8) s = .next (drawRead s.statusBusyWord s) := by
      refine (hostAccess_read_offset .status s).trans ?_
      simp [readReg, (busy_iff s).2 hidle, Reg.unspecifiedBusy]
    obtain ⟨hbusy, herr, hzero⟩ := statusExact_or (and_mask_inFieldMask (Config.freeValue s.draws)) s
    exact ⟨_, _, hread, rfl, rfl, hbusy, herr, hzero, fun h => absurd h hidle⟩

/-! ### PARAM and TBL_DATA -/

/-- Settles O21: PARAM is eight bytes put side by side, and the counts of a well-formed build fit in theirs (00 R7). -/
theorem paramReportsTheBuild : Obligations.ParamReportsTheBuild := by
  intro s
  have hns : 2 * s.cfg.raw.halfFullRounds + s.cfg.raw.partialRounds + 1 ≤ 255 := (nstage_bounds s.cfg).2
  have hbyte {n : Nat} (hn : n ≤ 255) : (BitVec.ofNat 8 n).toNat = n := Nat.mod_eq_of_lt (Nat.lt_succ_of_le hn)
  refine ⟨paramWord s.cfg.raw, hostAccess_read_exact (r := .param) nofun (.inr ⟨rfl, nofun⟩), ?_, ?_, ?_, ?_, ?_, ?_,
    ?_, ?_, fun w => hostAccess_write_readOnly (r := .param) rfl w s⟩
  all_goals
    simp (disch := decide) only [paramWord, BitVec.extractLsb'_append_eq_of_le, BitVec.extractLsb'_append_eq_of_add_le,
      BitVec.extractLsb'_eq_self, Nat.reduceSub]
  · rfl
  · rfl
  · rfl
  · exact hbyte (by omega)
  · exact hbyte (by omega)
  · exact hbyte hns
  · rfl
  · rfl

theorem hostAccess_read_tblData (s : State) : hostAccess (.read 0x080 8) s = .next (readTable s) := by
  refine (hostAccess_read_offset .tblData s).trans ?_
  simp [readReg, Reg.unspecifiedBusy]

/-- TABLE and INDEX of TBL_INDEX as numbers (10 R52). -/
theorem tableEntry_eq (s : State) : s.tableEntry =
    (tablesByNumber[s.tblIndex.toNat / 2 ^ 16]?).bind fun t => (s.cfg.raw.entries t)[s.tblIndex.toNat % 2 ^ 16]? := by
  rw [State.tableEntry, BitVec.toNat_ushiftRight, Nat.shiftRight_eq_div_pow]
  cases tablesByNumber[s.tblIndex.toNat / 2 ^ 16]? <;> rfl

/-- Settles O23: the read is the lookup of TABLE, then of INDEX. -/
theorem tableReadback : Obligations.TableReadback := by
  intro s c tables table index
  have hlookup : s.tableEntry = (tables[table]?).bind fun entries => entries[index]? := by
    have hmap : tables = tablesByNumber.map c.entries := rfl
    rw [tableEntry_eq, hmap, List.getElem?_map, Option.bind_map]
    rfl
  refine ⟨fun entries v htable hentry => ?_, fun h => ?_, fun w => hostAccess_write_readOnly (r := .tblData) rfl w s⟩
  · have hsome : s.tableEntry = some v := by rw [hlookup, htable, Option.bind_some, hentry]
    rw [hostAccess_read_tblData, readTable, hsome]
    rfl
  · have hnone : s.tableEntry = none := by
      rw [hlookup]
      rcases h with htable | ⟨entries, htable, hindex⟩
      · rw [List.getElem?_eq_none htable, Option.bind_none]
      · rw [htable, Option.bind_some, List.getElem?_eq_none hindex]
    rw [hostAccess_read_tblData, readTable, hnone]
    rfl

end Sys2Proof.Machine
end

section
/-! PROOF. Who writes which register (10 R31, R38-R43, R46, R49, R50, R52, R54, R55): O25, O26, O27. A step is a
completion, an access, a move of the reset input, or changes nothing but the model's own fields. -/

namespace Sys2Proof.Machine

/-- The next step is the completion of `op`. -/
abbrev State.Completes (s : State) (op : Pending) : Prop := s.pending = some op ∧ s.coreMoves

/-- The next step is the access `a`. -/
abbrev State.Accesses (s : State) (a : BusAccess) : Prop :=
  s.inReset = false ∧ ∃ rest, s.schedule = .host a :: rest

/-- The next step completes a permutation or a stage of one. -/
abbrev State.Permutes (s : State) : Prop :=
  ∃ S, s.Completes (.perm S) ∨ s.Completes (.chunkPerm S) ∨ ∃ n, s.Completes (.pstep S n)

/-- The next step completes SFINAL. -/
abbrev State.Squeezes (s : State) : Prop := ∃ S n, s.Completes (.sfinal S n)

/-- The next step is an idle write to a STATE register. -/
abbrev State.ElemWritten (s : State) : Prop :=
  s.pending = none ∧ ∃ (i : Fin 12) (v : Word), s.hostWrites (BitVec.ofNat 12 (0x100 + 8 * i.val)) v

/-- What changes the field `F`: the completion of an operation that writes it, an access that writes it, or reset. -/
theorem StepEffect.changed {s t : State} (h : StepEffect s t) {α : Type} {F : State → α} {P : Pending → α → Prop}
    {Q : State → BusAccess → Prop}
    (hown : ∀ u schedule resp, F { u with schedule := schedule, resp := resp } = F u)
    (hcomplete : ∀ op u, F (complete op u) = F u ∨ P op (F (complete op u)))
    (haccess : ∀ u a, AccessEffect u a t → F t = F u ∨ Q u a) (hne : F t ≠ F s) :
    (∃ op, s.Completes op ∧ P op (F t)) ∨ (∃ a rest, s.Accesses a ∧ Q { s with schedule := rest } a) ∨
    (s.resetMoves ∧ ∃ u, t = clearRegs u) := by
  have hpop (rest : List Turn) : F { s with schedule := rest } = F s := hown s rest s.resp
  cases h with
  | access a rest hs hr _ ha =>
    exact .inr (.inl ⟨a, rest, ⟨hr, rest, hs⟩, (haccess _ a ha).resolve_left (hpop rest ▸ hne)⟩)
  | completed hm op ho => exact .inl ⟨op, ⟨ho, hm⟩, (hcomplete op _).resolve_left (hpop _ ▸ hne)⟩
  | ignored a rest => exact absurd (hown s rest none) hne
  | rested => exact absurd (hpop _) hne
  | notAsserted rest => exact absurd (hpop rest) hne
  | asserted rest hs => exact .inr (.inr ⟨⟨rest, .inl hs⟩, _, rfl⟩)
  | released rest hs => exact .inr (.inr ⟨⟨rest, .inr hs⟩, _, rfl⟩)

/-! ### What a completion writes -/

/-- A field command writes FR and EQ (40 R138, R147). -/
theorem complete_field_eq (op : FieldOp) (a b : Word) (s : State) :
    ∃ r e, complete (.field op a b) s = { s with fr := r, eq := e, pending := none, event := s.event ||| eventDone } ∧
      (e = s.eq ∨ op = .feq) := by
  cases op with
  | feq => exact ⟨_, _, rfl, .inr rfl⟩
  | _ => exact ⟨_, _, rfl, .inl rfl⟩

section
variable (op : Pending) (s : State)

theorem complete_fa : (complete op s).fa = s.fa := by
  obtain ⟨h, -⟩ := complete_frame op s
  exact h

theorem complete_fb : (complete op s).fb = s.fb := by
  obtain ⟨-, h, -⟩ := complete_frame op s
  exact h

theorem complete_irqEn : (complete op s).irqEn = s.irqEn := by
  obtain ⟨-, -, -, -, h, -⟩ := complete_frame op s
  exact h

theorem complete_tblIndex : (complete op s).tblIndex = s.tblIndex := by
  obtain ⟨-, -, -, -, -, h, -⟩ := complete_frame op s
  exact h

theorem complete_cfg : (complete op s).cfg = s.cfg := by
  obtain ⟨-, -, -, -, -, -, h, -⟩ := complete_frame op s
  exact h

theorem complete_fr : (complete op s).fr = s.fr ∨ ∃ f a b, op = .field f a b := by
  cases op with
  | field f a b => exact .inr ⟨f, a, b, rfl⟩
  | _ => exact .inl rfl

theorem complete_eq : (complete op s).eq = s.eq ∨ ∃ a b, op = .field .feq a b := by
  cases op with
  | field f a b =>
    obtain ⟨r, e, heq, rfl | rfl⟩ := complete_field_eq f a b s
    · exact .inl (by rw [heq])
    · exact .inr ⟨a, b, rfl⟩
  | _ => exact .inl rfl

theorem complete_digestValid :
    (complete op s).digestValid = s.digestValid ∨
    ((complete op s).digestValid = false ∧
      (op = .sinit ∨ ∃ S, op = .perm S ∨ op = .chunkPerm S ∨ ∃ n, op = .pstep S n)) ∨
    ((complete op s).digestValid = true ∧ ∃ S n, op = .sfinal S n) := by
  cases op with
  | nop => exact .inl rfl
  | field f a b =>
    obtain ⟨r, e, heq, -⟩ := complete_field_eq f a b s
    exact .inl (by rw [heq])
  | perm S => exact .inr (.inl ⟨rfl, .inr ⟨S, .inl rfl⟩⟩)
  | chunkPerm S => exact .inr (.inl ⟨rfl, .inr ⟨S, .inr (.inl rfl)⟩⟩)
  | pstep S n => exact .inr (.inl ⟨rfl, .inr ⟨S, .inr (.inr ⟨n, rfl⟩)⟩⟩)
  | sinit => exact .inr (.inl ⟨rfl, .inl rfl⟩)
  | sfinal S n => exact .inr (.inr ⟨rfl, S, n, rfl⟩)

theorem complete_squeezed :
    (complete op s).squeezed = s.squeezed ∨ ((complete op s).squeezed = false ∧ op = .sinit) ∨
    ((complete op s).squeezed = true ∧ ∃ S n, op = .sfinal S n) := by
  cases op with
  | field f a b =>
    obtain ⟨r, e, heq, -⟩ := complete_field_eq f a b s
    exact .inl (by rw [heq])
  | sinit => exact .inr (.inl ⟨rfl, rfl⟩)
  | sfinal S n => exact .inr (.inr ⟨rfl, S, n, rfl⟩)
  | _ => exact .inl rfl

theorem complete_stage : (complete op s).stage = s.stage ∨ (∃ S n, op = .pstep S n) ∨ op = .sinit := by
  cases op with
  | field f a b =>
    obtain ⟨r, e, heq, -⟩ := complete_field_eq f a b s
    exact .inl (by rw [heq])
  | pstep S n => exact .inr (.inl ⟨S, n, rfl⟩)
  | sinit => exact .inr (.inr rfl)
  | _ => exact .inl rfl

theorem complete_elems :
    (complete op s).elems = s.elems ∨ (∃ S, op = .perm S ∨ op = .chunkPerm S ∨ ∃ n, op = .pstep S n) ∨
    (∃ S, op = .sfinal S true) ∨ op = .sinit := by
  cases op with
  | field f a b =>
    obtain ⟨r, e, heq, -⟩ := complete_field_eq f a b s
    exact .inl (by rw [heq])
  | nop => exact .inl rfl
  | perm S => exact .inr (.inl ⟨S, .inl rfl⟩)
  | chunkPerm S => exact .inr (.inl ⟨S, .inr (.inl rfl)⟩)
  | pstep S n => exact .inr (.inl ⟨S, .inr (.inr ⟨n, rfl⟩)⟩)
  | sinit => exact .inr (.inr (.inr rfl))
  | sfinal S need =>
    cases need
    · exact .inl rfl
    · exact .inr (.inr (.inl ⟨S, rfl⟩))

theorem complete_absPos : (complete op s).absPos = s.absPos ∨ (∃ S n, op = .sfinal S n) ∨ op = .sinit := by
  cases op with
  | field f a b =>
    obtain ⟨r, e, heq, -⟩ := complete_field_eq f a b s
    exact .inl (by rw [heq])
  | sfinal S n => exact .inr (.inl ⟨S, n, rfl⟩)
  | sinit => exact .inr (.inr rfl)
  | _ => exact .inl rfl

/-- Only SINIT writes the byte group and ABS_CNT at its completion (42 R231). -/
theorem complete_input :
    ((complete op s).bytePos = s.bytePos ∧ (complete op s).byteAcc = s.byteAcc ∧ (complete op s).absCnt = s.absCnt) ∨
    op = .sinit := by
  cases op with
  | field f a b =>
    obtain ⟨r, e, heq, -⟩ := complete_field_eq f a b s
    exact .inl (by rw [heq]; exact ⟨rfl, rfl, rfl⟩)
  | sinit => exact .inr rfl
  | _ => exact .inl ⟨rfl, rfl, rfl⟩

end

/-! ### What an access writes -/

/-- The registers of 10 R31, R46, R52 that an access writes, each at its own offset. -/
structure RegisterWrites (s : State) (a : BusAccess) (t : State) : Prop where
  fa : t.fa = s.fa ∨ a = .write 0x040 8 t.fa
  fb : t.fb = s.fb ∨ a = .write 0x048 8 t.fb
  irqEn : t.irqEn = s.irqEn ∨ ∃ v, a = .write 0x028 8 v
  tblIndex : t.tblIndex = s.tblIndex ∨ ∃ v, a = .write 0x078 8 v

theorem AccessEffect.registers {s t : State} {a : BusAccess} (h : AccessEffect s a t) : RegisterWrites s a t := by
  cases h with
  | issued off v i hd idle u hu =>
    obtain ⟨hfa, hfb, -, hirq, -, -, -, -, htbl, -⟩ := hu.frame
    exact ⟨.inl hfa, .inl hfb, .inl hirq, .inl htbl⟩
  | faWrite v => exact ⟨.inr rfl, .inl rfl, .inl rfl, .inl rfl⟩
  | fbWrite v => exact ⟨.inl rfl, .inr rfl, .inl rfl, .inl rfl⟩
  | irqEnWrite v => exact ⟨.inl rfl, .inl rfl, .inr ⟨v, rfl⟩, .inl rfl⟩
  | tblIndexWrite v => exact ⟨.inl rfl, .inl rfl, .inl rfl, .inr ⟨v, rfl⟩⟩
  | _ => exact ⟨.inl rfl, .inl rfl, .inl rfl, .inl rfl⟩

/-- The registers no access writes. -/
structure AccessFrame (s t : State) : Prop where
  fr : t.fr = s.fr
  squeezed : t.squeezed = s.squeezed
  eq : t.eq = s.eq
  stage : t.stage = s.stage
  permCnt : t.permCnt = s.permCnt
  cfg : t.cfg = s.cfg

theorem AccessEffect.frame {s t : State} {a : BusAccess} (h : AccessEffect s a t) : AccessFrame s t := by
  cases h with
  | issued off v i hd idle u hu =>
    obtain ⟨-, -, hfr, -, hsq, heq, hstage, hperm, -, hcfg, -⟩ := hu.frame
    exact ⟨hfr, hsq, heq, hstage, hperm, hcfg⟩
  | _ => exact ⟨rfl, rfl, rfl, rfl, rfl, rfl⟩

/-- The access absorbs an element (42 R233, R235). -/
def Absorbs (s : State) (a : BusAccess) : Prop :=
  s.pending = none ∧ s.stage = 0 ∧ s.squeezed = false ∧
  ((s.bytePos = 0 ∧ ∃ w, a = .write 0x068 8 w) ∨ (s.bytePos = 7 ∧ ∃ v : Word, v >>> 8 = 0 ∧ a = .write 0x070 8 v))

/-- The access writes STATE: one register of it, or the element it absorbs (10 R54). -/
def WritesElems (s : State) (a : BusAccess) : Prop :=
  (s.pending = none ∧ ∃ (i : Fin 12) (v : Word), a = .write (Reg.elem i).offset 8 v) ∨ Absorbs s a

/-- An access that writes STATE moves DIGEST_VALID too, and one that absorbs the counts of the sponge. -/
theorem AccessEffect.sponge {s t : State} {a : BusAccess} (h : AccessEffect s a t) :
    ((t.elems = s.elems ∧ t.digestValid = s.digestValid) ∨ WritesElems s a) ∧
    ((t.absPos = s.absPos ∧ t.absCnt = s.absCnt) ∨ Absorbs s a) := by
  cases h with
  | elemWrite i v idle => exact ⟨.inr (.inl ⟨idle, i, v, rfl⟩), .inl ⟨rfl, rfl⟩⟩
  | issued off v i hd idle u hu =>
    obtain ⟨hword, hbyte⟩ := decodeWrite_data hd
    rcases hu.absorbs with ⟨helems, hvalid, hcnt, hpos, -⟩ | ⟨-, -, hstage, hsq, ⟨hb, -, -, w, hi⟩ | ⟨hb, v', hi, hres⟩⟩
    · exact ⟨.inl ⟨helems, hvalid⟩, .inl ⟨hpos, hcnt⟩⟩
    · obtain ⟨rfl, rfl⟩ := hword w hi
      have habs : Absorbs s (.write 0x068 8 w) := ⟨idle, hstage, hsq, .inl ⟨hb, w, rfl⟩⟩
      exact ⟨.inr (.inr habs), .inr habs⟩
    · obtain ⟨rfl, rfl⟩ := hbyte v' hi
      have habs : Absorbs s (.write 0x070 8 v') := ⟨idle, hstage, hsq, .inr ⟨hb, v', hres, rfl⟩⟩
      exact ⟨.inr (.inr habs), .inr habs⟩
  | _ => exact ⟨.inl ⟨rfl, rfl⟩, .inl ⟨rfl, rfl⟩⟩

/-- Only an idle IN_BYTE write moves the byte group (10 R42, R55). -/
theorem AccessEffect.byteGroup {s t : State} {a : BusAccess} (h : AccessEffect s a t) :
    (t.bytePos = s.bytePos ∧ t.byteAcc = s.byteAcc) ∨ (s.pending = none ∧ ∃ v, a = .write 0x070 8 v) := by
  cases h with
  | issued off v i hd idle u hu =>
    obtain ⟨-, hbyte⟩ := decodeWrite_data hd
    have byteWrite {v' : Word} (hi : i = .inByte v') : ∃ v₀, BusAccess.write off 8 v = .write 0x070 8 v₀ := by
      obtain ⟨rfl, rfl⟩ := hbyte v' hi
      exact ⟨v', rfl⟩
    rcases hu.absorbs with ⟨-, -, -, -, hsame | ⟨v', hi⟩⟩ | ⟨-, -, -, -, ⟨-, hpos, hacc, -⟩ | ⟨-, v', hi, -⟩⟩
    · exact .inl hsame
    · exact .inr ⟨idle, byteWrite hi⟩
    · exact .inl ⟨hpos, hacc⟩
    · exact .inr ⟨idle, byteWrite hi⟩
  | _ => exact .inl ⟨rfl, rfl⟩

/-- An absorbing access as the next step (42 R233, R235). -/
theorem absorbsElement_of_absorbs {s : State} {a : BusAccess} {rest : List Turn} (ha : s.Accesses a)
    (h : Absorbs { s with schedule := rest } a) : s.absorbsElement := by
  obtain ⟨hidle, hstage, hsq, ⟨hb, w, rfl⟩ | ⟨hb, v, hres, rfl⟩⟩ := h
  · exact ⟨hidle, hstage, hsq, .inl ⟨hb, w, ha⟩⟩
  · exact ⟨hidle, hstage, hsq, .inr ⟨hb, v, hres, ha⟩⟩

theorem elemWritten_or_absorbs {s : State} {a : BusAccess} {rest : List Turn} (ha : s.Accesses a)
    (h : WritesElems { s with schedule := rest } a) : s.ElemWritten ∨ s.absorbsElement := by
  rcases h with ⟨hidle, i, v, rfl⟩ | habs
  · exact .inl ⟨hidle, i, v, ha⟩
  · exact .inr (absorbsElement_of_absorbs ha habs)

/-! ### The writers of each register -/

section
variable {s t : State} (h : StepEffect s t)
include h

theorem StepEffect.cfg_eq : t.cfg = s.cfg := by
  cases h with
  | access a rest _ _ _ ha => exact ha.frame.cfg
  | completed _ op => exact complete_cfg op _
  | _ => rfl

/-- A field that no completion writes is written by an access or reset. -/
theorem StepEffect.changed_by_access {α : Type} {F : State → α} {Q : BusAccess → Prop}
    (hown : ∀ u schedule resp, F { u with schedule := schedule, resp := resp } = F u)
    (hcomplete : ∀ op u, F (complete op u) = F u) (haccess : ∀ u a, AccessEffect u a t → F t = F u ∨ Q a)
    (hne : F t ≠ F s) : (∃ a, s.Accesses a ∧ Q a) ∨ s.resetMoves := by
  rcases h.changed (P := fun _ _ => False) (Q := fun _ a => Q a) hown (fun op u => .inl (hcomplete op u)) haccess hne
    with ⟨_, _, ⟨⟩⟩ | ⟨a, _, ha, hQ⟩ | ⟨hreset, -⟩
  · exact .inl ⟨a, ha, hQ⟩
  · exact .inr hreset

/-- A field that no access writes is written by a completion or reset. -/
theorem StepEffect.changed_by_completion {α : Type} {F : State → α} {P : Pending → α → Prop}
    (hown : ∀ u schedule resp, F { u with schedule := schedule, resp := resp } = F u)
    (hcomplete : ∀ op u, F (complete op u) = F u ∨ P op (F (complete op u)))
    (haccess : ∀ u a, AccessEffect u a t → F t = F u) (hne : F t ≠ F s) :
    (∃ op, s.Completes op ∧ P op (F t)) ∨ s.resetMoves := by
  rcases h.changed (Q := fun _ _ => False) hown hcomplete (fun u a ha => .inl (haccess u a ha)) hne
    with hdone | ⟨_, _, _, ⟨⟩⟩ | ⟨hreset, -⟩
  · exact .inl hdone
  · exact .inr hreset

end

/-- Settles O25: no completion writes FA, FB, IRQ_EN or TBL_INDEX, and no access writes FR. -/
theorem registersHaveTheirWritersOnly : Obligations.RegistersHaveTheirWritersOnly := by
  intro s t hstep
  have h := step_effect hstep
  refine ⟨fun hne => ?_, fun hne => ?_, fun hne => ?_, fun hne => ?_, fun hne => ?_, h.cfg_eq⟩
  · rcases h.changed_by_access (F := State.fa) (fun _ _ _ => rfl) complete_fa
      (fun _ _ ha => ha.registers.fa) hne with ⟨a, ha, rfl⟩ | hreset
    · exact .inl ha
    · exact .inr hreset
  · rcases h.changed_by_access (F := State.fb) (fun _ _ _ => rfl) complete_fb
      (fun _ _ ha => ha.registers.fb) hne with ⟨a, ha, rfl⟩ | hreset
    · exact .inl ha
    · exact .inr hreset
  · rcases h.changed_by_completion (F := State.fr) (P := fun op _ => ∃ f a b, op = .field f a b) (fun _ _ _ => rfl)
      complete_fr (fun _ _ ha => ha.frame.fr) hne with ⟨_, hdone, f, a, b, rfl⟩ | hreset
    · exact .inl ⟨f, a, b, hdone⟩
    · exact .inr hreset
  · rcases h.changed_by_access (F := State.irqEn) (fun _ _ _ => rfl) complete_irqEn
      (fun _ _ ha => ha.registers.irqEn) hne with ⟨a, ha, v, rfl⟩ | hreset
    · exact .inl ⟨v, ha⟩
    · exact .inr hreset
  · rcases h.changed_by_access (F := State.tblIndex) (fun _ _ _ => rfl) complete_tblIndex
      (fun _ _ ha => ha.registers.tblIndex) hne with ⟨a, ha, v, rfl⟩ | hreset
    · exact .inl ⟨v, ha⟩
    · exact .inr hreset

/-! ### The status bits and the counters -/

section
variable {s t : State}

theorem step_completes_eq (hstep : step s = .next t) {op : Pending} (h : s.Completes op) :
    t = complete op { s with schedule := s.schedule.tail } := by
  cases (step_completes h.1 h.2).symm.trans hstep
  rfl

/-- An absorption clears DIGEST_VALID and counts the element (42 R232). -/
theorem step_absorbs_eq (hstep : step s = .next t) (h : s.absorbsElement) :
    t.digestValid = false ∧ t.absCnt = s.absCnt + 1 := by
  rcases step_absorbs h with ⟨w, rest, he⟩ | ⟨w, rest, he⟩
  all_goals
    cases he.symm.trans hstep
    exact ⟨absorbWord_digestValid _ _, absorbWord_absCnt _ _⟩

/-- An idle write to STATE[i] clears DIGEST_VALID (10 R38). -/
theorem step_elemWritten_digestValid (hstep : step s = .next t) (h : s.ElemWritten) : t.digestValid = false := by
  obtain ⟨hidle, i, v, hr, rest, hs⟩ := h
  obtain ⟨-, -, hstore, -⟩ := idleWritesStoreTheWord { s with schedule := rest } v hidle
  cases ((step_host hs hr).trans (hstore i)).symm.trans hstep
  rfl

/-- DIGEST_VALID at a completion (10 R38; log 10). -/
theorem step_completes_digestValid (hstep : step s = .next t) {op : Pending} (h : s.Completes op) :
    t.digestValid = match op with
      | .sfinal _ _ => true
      | .perm _ | .pstep _ _ | .chunkPerm _ | .sinit => false
      | .nop | .field _ _ _ => s.digestValid := by
  rw [step_completes_eq hstep h]
  cases op with
  | field f a b =>
    obtain ⟨r, e, heq, -⟩ := complete_field_eq f a b { s with schedule := s.schedule.tail }
    rw [heq]
  | _ => rfl

theorem step_writesElems_digestValid (hstep : step s = .next t) (h : s.ElemWritten ∨ s.absorbsElement) :
    t.digestValid = false :=
  h.elim (step_elemWritten_digestValid hstep) fun habs => (step_absorbs_eq hstep habs).1

theorem StepEffect.elems_writers (h : StepEffect s t) (hne : t.elems ≠ s.elems) :
    s.Permutes ∨ (∃ S, s.Completes (.sfinal S true)) ∨ s.Completes .sinit ∨ s.ElemWritten ∨ s.absorbsElement ∨
    (s.resetMoves ∧ ∃ u, t = clearRegs u) := by
  rcases h.changed (F := State.elems)
      (P := fun op _ => (∃ S, op = .perm S ∨ op = .chunkPerm S ∨ ∃ n, op = .pstep S n) ∨
        (∃ S, op = .sfinal S true) ∨ op = .sinit)
      (Q := WritesElems) (fun _ _ _ => rfl) complete_elems (fun _ _ ha => ha.sponge.1.imp_left (·.1)) hne
    with ⟨op, hdone, ⟨S, rfl | rfl | ⟨n, rfl⟩⟩ | ⟨S, rfl⟩ | rfl⟩ | ⟨a, rest, ha, hw⟩ | hreset
  · exact .inl ⟨S, .inl hdone⟩
  · exact .inl ⟨S, .inr (.inl hdone)⟩
  · exact .inl ⟨S, .inr (.inr ⟨n, hdone⟩)⟩
  · exact .inr (.inl ⟨S, hdone⟩)
  · exact .inr (.inr (.inl hdone))
  · rcases elemWritten_or_absorbs ha hw with hwrite | habs
    · exact .inr (.inr (.inr (.inl hwrite)))
    · exact .inr (.inr (.inr (.inr (.inl habs))))
  · exact .inr (.inr (.inr (.inr (.inr hreset))))

/-- SFINAL alone sets DIGEST_VALID (10 R38). -/
theorem step_digestValid_writers (hstep : step s = .next t) (hne : t.digestValid ≠ s.digestValid) :
    (t.digestValid = true ∧ s.Squeezes) ∨
    (t.digestValid = false ∧ (s.Permutes ∨ s.Completes .sinit ∨ s.ElemWritten ∨ s.absorbsElement ∨ s.resetMoves)) := by
  rcases (step_effect hstep).changed (F := State.digestValid)
      (P := fun op v => (v = false ∧ (op = .sinit ∨ ∃ S, op = .perm S ∨ op = .chunkPerm S ∨ ∃ n, op = .pstep S n)) ∨
        (v = true ∧ ∃ S n, op = .sfinal S n))
      (Q := WritesElems) (fun _ _ _ => rfl) complete_digestValid (fun _ _ ha => ha.sponge.1.imp_left (·.2)) hne
    with ⟨op, hdone, ⟨hf, rfl | ⟨S, rfl | rfl | ⟨n, rfl⟩⟩⟩ | ⟨hv, S, n, rfl⟩⟩ | ⟨a, rest, ha, hw⟩ | ⟨hreset, u, rfl⟩
  · exact .inr ⟨hf, .inr (.inl hdone)⟩
  · exact .inr ⟨hf, .inl ⟨S, .inl hdone⟩⟩
  · exact .inr ⟨hf, .inl ⟨S, .inr (.inl hdone)⟩⟩
  · exact .inr ⟨hf, .inl ⟨S, .inr (.inr ⟨n, hdone⟩)⟩⟩
  · exact .inl ⟨hv, S, n, hdone⟩
  · have hwrite := elemWritten_or_absorbs ha hw
    refine .inr ⟨step_writesElems_digestValid hstep hwrite, .inr (.inr ?_)⟩
    exact hwrite.imp_right .inl
  · exact .inr ⟨rfl, .inr (.inr (.inr (.inr hreset)))⟩

theorem StepEffect.squeezed_writers (h : StepEffect s t) (hne : t.squeezed ≠ s.squeezed) :
    (t.squeezed = true ∧ s.Squeezes) ∨ (t.squeezed = false ∧ (s.Completes .sinit ∨ s.resetMoves)) := by
  rcases h.changed (F := State.squeezed) (Q := fun _ _ => False)
      (P := fun op v => (v = false ∧ op = .sinit) ∨ (v = true ∧ ∃ S n, op = .sfinal S n))
      (fun _ _ _ => rfl) complete_squeezed (fun _ _ ha => .inl ha.frame.squeezed) hne
    with ⟨op, hdone, ⟨hf, rfl⟩ | ⟨hv, S, n, rfl⟩⟩ | ⟨_, _, _, ⟨⟩⟩ | ⟨hreset, u, rfl⟩
  · exact .inr ⟨hf, .inl hdone⟩
  · exact .inl ⟨hv, S, n, hdone⟩
  · exact .inr ⟨rfl, .inr hreset⟩

/-- A change of STATE that leaves a valid digest is SFINAL's. -/
theorem step_elems_digestValid (hstep : step s = .next t) (hne : t.elems ≠ s.elems) (hvalid : t.digestValid = true) :
    s.Squeezes := by
  have cleared {op : Pending} (hdone : s.Completes op)
      (hop : op = .sinit ∨ ∃ S, op = .perm S ∨ op = .chunkPerm S ∨ ∃ n, op = .pstep S n) : False := by
    have hop' := step_completes_digestValid hstep hdone
    rcases hop with rfl | ⟨S, rfl | rfl | ⟨n, rfl⟩⟩ <;> exact nomatch hvalid.symm.trans hop'
  rcases (step_effect hstep).elems_writers hne
    with ⟨S, hd | hd | ⟨n, hd⟩⟩ | ⟨S, hd⟩ | hd | hw | habs | ⟨-, u, rfl⟩
  · exact (cleared hd (.inr ⟨S, .inl rfl⟩)).elim
  · exact (cleared hd (.inr ⟨S, .inr (.inl rfl)⟩)).elim
  · exact (cleared hd (.inr ⟨S, .inr (.inr ⟨n, rfl⟩)⟩)).elim
  · exact ⟨S, true, hd⟩
  · exact (cleared hd (.inl rfl)).elim
  · exact nomatch hvalid.symm.trans (step_writesElems_digestValid hstep (.inl hw))
  · exact nomatch hvalid.symm.trans (step_writesElems_digestValid hstep (.inr habs))
  · exact nomatch hvalid

theorem StepEffect.absPos_writers (h : StepEffect s t) (hne : t.absPos ≠ s.absPos) :
    s.absorbsElement ∨ s.Squeezes ∨ s.Completes .sinit ∨ s.resetMoves := by
  rcases h.changed (F := State.absPos) (P := fun op _ => (∃ S n, op = .sfinal S n) ∨ op = .sinit) (Q := Absorbs)
      (fun _ _ _ => rfl) complete_absPos (fun _ _ ha => ha.sponge.2.imp_left (·.1)) hne
    with ⟨op, hdone, ⟨S, n, rfl⟩ | rfl⟩ | ⟨a, rest, ha, habs⟩ | ⟨hreset, -⟩
  · exact .inr (.inl ⟨S, n, hdone⟩)
  · exact .inr (.inr (.inl hdone))
  · exact .inl (absorbsElement_of_absorbs ha habs)
  · exact .inr (.inr (.inr hreset))

/-- BYTE_POS and BYTE_ACC have the same writers. -/
theorem StepEffect.byteGroup_writers (h : StepEffect s t) (hne : (t.bytePos, t.byteAcc) ≠ (s.bytePos, s.byteAcc)) :
    (s.pending = none ∧ ∃ v, s.hostWrites 0x070 v) ∨ s.Completes .sinit ∨ s.resetMoves := by
  rcases h.changed (F := fun u => (u.bytePos, u.byteAcc)) (P := fun op _ => op = .sinit)
      (Q := fun u a => u.pending = none ∧ ∃ v, a = .write 0x070 8 v) (fun _ _ _ => rfl)
      (fun op u => (complete_input op u).imp_left fun ⟨hpos, hacc, _⟩ => Prod.ext hpos hacc)
      (fun _ _ ha => ha.byteGroup.imp_left fun ⟨hpos, hacc⟩ => Prod.ext hpos hacc) hne
    with ⟨op, hdone, rfl⟩ | ⟨a, rest, ha, hidle, v, rfl⟩ | ⟨hreset, -⟩
  · exact .inr (.inl hdone)
  · exact .inl ⟨hidle, v, ha⟩
  · exact .inr (.inr hreset)

theorem StepEffect.absCnt_writers (h : StepEffect s t) (hne : t.absCnt ≠ s.absCnt) :
    s.absorbsElement ∨ s.Completes .sinit ∨ (s.resetMoves ∧ t.absCnt = 0) := by
  rcases h.changed (F := State.absCnt) (P := fun op _ => op = .sinit) (Q := Absorbs) (fun _ _ _ => rfl)
      (fun op u => (complete_input op u).imp_left fun ⟨_, _, hcnt⟩ => hcnt)
      (fun _ _ ha => ha.sponge.2.imp_left (·.2)) hne
    with ⟨op, hdone, rfl⟩ | ⟨a, rest, ha, habs⟩ | ⟨hreset, u, rfl⟩
  · exact .inr (.inl hdone)
  · exact .inl (absorbsElement_of_absorbs ha habs)
  · exact .inr (.inr ⟨hreset, rfl⟩)

end

/-- Settles O26: each clause is the list of a register's writers, and DIGEST_VALID's values at them. -/
theorem statusBitsHaveTheirWritersOnly : Obligations.StatusBitsHaveTheirWritersOnly := by
  intro s t hstep
  have h := step_effect hstep
  refine ⟨fun hs ht => ?_, fun hs ht => ?_, fun op hop => ?_, step_writesElems_digestValid hstep, fun hs ht => ?_,
    fun hs ht => ?_, fun hne => ?_, fun hne => ?_, fun hne => ?_, step_elems_digestValid hstep, h.absPos_writers,
    fun hne => h.byteGroup_writers fun heq => ?_⟩
  · rcases step_digestValid_writers hstep (by rw [hs, ht]; decide) with ⟨-, hsq⟩ | ⟨hf, -⟩
    · exact hsq
    · exact nomatch ht.symm.trans hf
  · rcases step_digestValid_writers hstep (by rw [hs, ht]; decide) with ⟨hv, -⟩ | ⟨-, hw⟩
    · exact nomatch ht.symm.trans hv
    · exact hw
  · refine (step_completes_digestValid hstep hop).trans ?_
    cases op <;> rfl
  · rcases h.squeezed_writers (by rw [hs, ht]; decide) with ⟨-, hsq⟩ | ⟨hf, -⟩
    · exact hsq
    · exact nomatch ht.symm.trans hf
  · rcases h.squeezed_writers (by rw [hs, ht]; decide) with ⟨hv, -⟩ | ⟨-, hw⟩
    · exact nomatch ht.symm.trans hv
    · exact hw
  · rcases h.changed_by_completion (F := State.eq) (P := fun op _ => ∃ a b, op = .field .feq a b) (fun _ _ _ => rfl)
      complete_eq (fun _ _ ha => ha.frame.eq) hne with ⟨_, hdone, a, b, rfl⟩ | hreset
    · exact .inl ⟨a, b, hdone⟩
    · exact .inr hreset
  · rcases h.changed_by_completion (F := State.stage) (P := fun op _ => (∃ S n, op = .pstep S n) ∨ op = .sinit)
      (fun _ _ _ => rfl) complete_stage (fun _ _ ha => ha.frame.stage) hne
      with ⟨_, hdone, ⟨S, n, rfl⟩ | rfl⟩ | hreset
    · exact .inl ⟨S, n, hdone⟩
    · exact .inr (.inl hdone)
    · exact .inr (.inr hreset)
  · rcases h.elems_writers hne with hperm | hsq | hinit | hw | habs | ⟨hreset, -⟩
    · exact .inl hperm
    · exact .inr (.inl hsq)
    · exact .inr (.inr (.inl hinit))
    · exact .inr (.inr (.inr (.inl hw)))
    · exact .inr (.inr (.inr (.inr (.inl habs))))
    · exact .inr (.inr (.inr (.inr (.inr hreset))))
  · obtain ⟨hpos, hacc⟩ := Prod.mk.inj heq
    exact hne.elim (· hpos) (· hacc)

/-- Settles O27: the completions compute the counters, and elsewhere only an absorption and reset write one. -/
theorem countersCountWhatTheyName : Obligations.CountersCountWhatTheyName := by
  intro s t hstep
  have h := step_effect hstep
  refine ⟨fun op hop hm => ?_, fun hquiet hreset => ?_, fun habs => (step_absorbs_eq hstep habs).2,
    fun hop hm => ?_, fun habs hinit hreset => ?_, fun hne => ?_⟩
  · rw [step_completes_eq hstep ⟨hop, hm⟩]
    cases op with
    | field f a b => cases f <;> rfl
    | sfinal S need => cases need <;> rfl
    | _ => rfl
  · by_contra hne
    rcases h.changed_by_completion (F := State.permCnt) (P := fun _ _ => True) (fun _ _ _ => rfl)
      (fun _ _ => .inr trivial) (fun _ _ ha => ha.frame.permCnt) hne with ⟨op, ⟨hop, hm⟩, -⟩ | hmoves
    · exact hquiet.elim (fun hidle => nomatch hidle.symm.trans hop) (· hm)
    · exact hreset hmoves
  · rw [step_completes_eq hstep ⟨hop, hm⟩]
    rfl
  · by_contra hne
    rcases h.absCnt_writers hne with habs' | hinit' | ⟨hmoves, -⟩
    · exact habs habs'
    · exact hinit hinit'
    · exact hreset hmoves
  · rcases h.absCnt_writers hne with habs | hinit | ⟨hmoves, hzero⟩
    · refine .inl ⟨(step_absorbs_eq hstep habs).2, ?_⟩
      obtain ⟨-, -, -, ⟨-, w, hw⟩ | ⟨-, v, -, hw⟩⟩ := habs
      · exact ⟨w, .inl hw⟩
      · exact ⟨v, .inr hw⟩
    · refine .inr ⟨?_, .inl hinit⟩
      rw [step_completes_eq hstep hinit]
      rfl
    · exact .inr ⟨hzero, .inr hmoves⟩

end Sys2Proof.Machine
end

section
/-! PROOF. The wide reductions, the negation, the S-box and the initial transform as numbers (40 R136, R137, R143, 41
R185, R189): O35, O38, O39, O41. -/

namespace Sys2Proof.Machine

theorem residue_mod_eq {x : Word} {n : Nat} (h : residue x = n) : x.toNat % fieldOrder = n % fieldOrder := by
  rw [← canon_toNat]
  exact (residue_eq_natCast_iff x n).1 h

/-- Settles O35: both reductions keep the element of the ring of integers modulo p. -/
theorem wideReductionsAreCongruent : Obligations.WideReductionsAreCongruent := by
  refine ⟨fun xLo xHi => residue_mod_eq ?_, fun n => residue_mod_eq (residue_reduce160 n)⟩
  rw [residue_reduce96, Nat.cast_add, Nat.cast_mul, Nat.cast_pow, Nat.cast_ofNat, natCast_toNat]

theorem canon_eq_zero_iff (a : Word) : canon a = 0 ↔ a.toNat % fieldOrder = 0 := by
  rw [← canon_toNat]
  exact BitVec.toNat_inj.symm

theorem fneg_toNat (a : Word) :
    (fneg a).toNat = if a.toNat % fieldOrder = 0 then 0 else fieldOrder - a.toNat % fieldOrder := by
  rw [fneg]
  by_cases hzero : canon a = 0
  · rw [if_pos hzero, if_pos ((canon_eq_zero_iff a).1 hzero)]
    rfl
  · have hle : canon a ≤ pWord := BitVec.le_def.2 (canon_toNat_lt a).le
    rw [if_neg hzero, if_neg (mt (canon_eq_zero_iff a).2 hzero), BitVec.toNat_sub_of_le hle, pWord_toNat_eq,
      canon_toNat]

/-- Settles O38: p less a residue other than 0 is below p. -/
theorem negationIsCanonical : Obligations.NegationIsCanonical := by
  refine fun a => ⟨fneg_toNat a, ?_⟩
  have hp := fieldOrder_val
  rw [fneg_toNat]
  split <;> omega

/-- Settles O39: three multiplications make the exponent 7. -/
theorem sboxIsTheSeventhPower : Obligations.SboxIsTheSeventhPower := by
  refine fun x => ⟨(residue_eq_natCast_iff _ _).1 ?_, rfl⟩
  rw [residue_sbox, Nat.cast_pow, natCast_toNat]

/-- Settles O41: the accumulation is the model's own, and in the ring it is the sum. -/
theorem partialInitIsTheMatrixProduct : Obligations.PartialInitIsTheMatrixProduct := by
  refine fun c S => ⟨partialInit_zero c S, fun col => ⟨(residue_eq_natCast_iff _ _).1 ?_, partialInit_succ c S col⟩⟩
  rw [partialInit_succ, residue_partialInitColumn]
  simp only [Nat.cast_sum, Nat.cast_mul, natCast_toNat]

end Sys2Proof.Machine
end

section
/-! PROOF. PSTEP, and NSTAGE of them against one PERM (41 R195): O46. -/

namespace Sys2Proof.Machine

theorem exec_pstep_idle {s : State} (hidle : s.pending = none) :
    exec .pstep s = .next { s with pending := some (.pstep s.elems s.stage), resp := some (.writeDone false) } :=
  congrArg Host.Outcome.next (guardedWrite_idle hidle fun s => accept (.pstep s.elems s.stage) s)

/-- PSTEP issued to an idle block and completed (41 R195). -/
theorem settle_pstep {s : State} (hidle : s.pending = none) : settle .pstep s = .next { s with
    elems       := stage s.cfg.raw s.stage.toNat s.elems
    stage       := if s.stage.toNat + 1 = s.nstage then 0 else s.stage + 1
    permCnt     := if s.stage.toNat + 1 = s.nstage then s.permCnt + 1 else s.permCnt
    digestValid := false
    pending     := none
    event       := s.event ||| 1
    resp        := some (.writeDone false) } := by
  rw [settle_of_exec (exec_pstep_idle hidle), coreStep_some rfl]
  rfl

/-- The block after `n` stages of a permutation of `s`, the last not among them. -/
def afterStages (s : State) (n : Nat) : State := { s with
  elems := runStages s.cfg.raw n s.elems, stage := BitVec.ofNat 8 n, digestValid := false, pending := none,
  event := s.event ||| 1, resp := some (.writeDone false) }

theorem afterStages_stage {s : State} {n : Nat} (hn : n < s.nstage) : (afterStages s n).stage.toNat = n := by
  have hmax : s.nstage ≤ 255 := (nstage_bounds s.cfg).2
  exact Nat.mod_eq_of_lt (by omega)

theorem event_done_twice (event : BitVec 2) : event ||| 1 ||| 1 = event ||| 1 := by
  rw [BitVec.or_assoc, BitVec.or_self]

theorem settle_pstep_first {s : State} (hidle : s.pending = none) (hstage : s.stage = 0) :
    settle .pstep s = .next (afterStages s 1) := by
  have hmin : 3 ≤ s.nstage := (nstage_bounds s.cfg).1
  have hlast : ¬ s.stage.toNat + 1 = s.nstage := by
    have hzero : s.stage.toNat = 0 := congrArg BitVec.toNat hstage
    omega
  rw [settle_pstep hidle, if_neg hlast, if_neg hlast, hstage]
  rfl

theorem settle_pstep_next {s : State} {n : Nat} (hn : n + 1 < s.nstage) :
    settle .pstep (afterStages s n) = .next (afterStages s (n + 1)) := by
  have hstage : (afterStages s n).stage.toNat = n := afterStages_stage (by omega)
  have hlast : ¬ (afterStages s n).stage.toNat + 1 = (afterStages s n).nstage := by
    rw [hstage]
    exact hn.ne
  have hsucc : (afterStages s n).stage + 1 = BitVec.ofNat 8 (n + 1) := (BitVec.ofNat_add n 1).symm
  rw [settle_pstep rfl, if_neg hlast, if_neg hlast, hstage, hsucc, afterStages, event_done_twice]
  rfl

/-- The last stage leaves what PERM leaves (41 R194, R195). -/
theorem settle_pstep_last {s : State} {n : Nat} (hn : n + 1 = s.nstage) :
    settle .pstep (afterStages s n) = .next { s with
      elems := poseidon s.cfg.raw s.elems, stage := 0, permCnt := s.permCnt + 1, digestValid := false, pending := none,
      event := s.event ||| 1, resp := some (.writeDone false) } := by
  have hstage : (afterStages s n).stage.toNat = n := afterStages_stage (by omega)
  have hlast : (afterStages s n).stage.toNat + 1 = (afterStages s n).nstage := by
    rw [hstage]
    exact hn
  have hrun : poseidon s.cfg.raw s.elems = stage s.cfg.raw n (runStages s.cfg.raw n s.elems) := by
    rw [← runStages_succ, hn]
    rfl
  rw [settle_pstep rfl, if_pos hlast, if_pos hlast, hstage, hrun, afterStages, event_done_twice]

theorem settleTimes_pstep {s : State} (hidle : s.pending = none) (hstage : s.stage = 0) {n : Nat} (hn : 1 ≤ n)
    (hlt : n < s.nstage) : settleTimes .pstep n s = .next (afterStages s n) := by
  induction n, hn using Nat.le_induction with
  | base => exact (settleTimes_succ (n := 0) rfl).trans (settle_pstep_first hidle hstage)
  | succ n _ ih => exact (settleTimes_succ (ih (by omega))).trans (settle_pstep_next hlt)

theorem settle_perm {s : State} (hidle : s.pending = none) (hstage : s.stage = 0) : settle .perm s = .next { s with
    elems := poseidon s.cfg.raw s.elems, permCnt := s.permCnt + 1, digestValid := false, pending := none,
    event := s.event ||| 1, resp := some (.writeDone false) } := by
  rw [settle_of_exec (i := .perm) (execPerm_accepts hidle hstage), coreStep_some rfl]
  rfl

/-- Settles O46: the stages run one by one are the permutation, and only the last counts it and returns STAGE to 0. -/
theorem pstepRunsOneStage : Obligations.PstepRunsOneStage := by
  refine ⟨issuedBy_cmd rfl rfl, fun s => exec_pstep_idle, fun u S n => coreStep_some, fun s hidle hstage => ?_⟩
  have hmin : 3 ≤ s.nstage := (nstage_bounds s.cfg).1
  obtain ⟨n, hn⟩ : ∃ n, n + 1 = s.nstage := ⟨s.nstage - 1, by omega⟩
  rw [← hn, settleTimes_succ (settleTimes_pstep hidle hstage (by omega) (by omega)), settle_pstep_last hn,
    settle_perm hidle hstage, ← hstage]

end Sys2Proof.Machine
end

section
/-! PROOF. IN_BYTE (42 R235, R236, R240): O49, O50, O51. Seven bytes join BYTE_ACC, and the eighth makes of them the word
that IN_WORD would have absorbed. -/

namespace Sys2Proof.Machine

theorem reserved_byte (b : Byte) : (b.setWidth 64 : Word) >>> 8 = 0 :=
  (ushiftRight_eq_zero_iff _ 8).2 (by rw [BitVec.toNat_setWidth]; omega)

theorem dataByte_setWidth (b : Byte) : dataByte (b.setWidth 64) = b := by
  simp [dataByte]

theorem issuedBy_inByte (b : Byte) : issuedBy (.inByte (b.setWidth 64)) 0x070 (b.setWidth 64) :=
  ⟨rfl, if_neg (not_not.2 (reserved_byte b)), fun _ hbusy => exec_busy hbusy _, fun hport => absurd hport (by decide)⟩

theorem exec_inByte_refuses {s : State} (hidle : s.pending = none) (hseq : s.stage ≠ 0 ∨ s.squeezed = true) {v : Word}
    (hres : v >>> 8 = 0) : exec (.inByte v) s = .next (abortWrite .seq s) := by
  refine congrArg _ (guardedWrite_fail ?_ (absorbByte (dataByte v)) s)
  simpa [hidle, hres, or_iff_not_imp_left] using hseq

theorem exec_inByte_absorbs {s : State} (hidle : s.pending = none) (hstage : s.stage = 0) (hsq : s.squeezed = false)
    (b : Byte) : exec (.inByte (b.setWidth 64)) s = .next (respond (.writeDone false) (absorbByte b s)) := by
  refine (congrArg Host.Outcome.next (guardedWrite_pass ?_ (absorbByte (dataByte (b.setWidth 64))) s)).trans ?_
  · simp [hidle, hstage, hsq, reserved_byte]
  · rw [dataByte_setWidth]

theorem exec_inByte_pushes {s : State} (hidle : s.pending = none) (hstage : s.stage = 0) (hsq : s.squeezed = false)
    (hbyte : s.bytePos ≠ 7) (b : Byte) : exec (.inByte (b.setWidth 64)) s = .next { s with
      byteAcc := pushByte s.byteAcc b, bytePos := s.bytePos + 1, resp := some (.writeDone false) } := by
  rw [exec_inByte_absorbs hidle hstage hsq, absorbByte, if_neg hbyte]
  rfl

/-- The eighth byte is an IN_WORD of the group's word from an empty group (42 R235). -/
theorem exec_inByte_completes {s : State} (hidle : s.pending = none) (hstage : s.stage = 0) (hsq : s.squeezed = false)
    (hbyte : s.bytePos = 7) (b : Byte) : exec (.inByte (b.setWidth 64)) s =
      exec (.inWord (groupWord s.byteAcc b)) { s with byteAcc := 0, bytePos := 0 } := by
  rw [exec_inByte_absorbs hidle hstage hsq, absorbByte, if_pos hbyte,
    exec_inWord_absorbs (s := { s with byteAcc := 0, bytePos := 0 }) hidle hstage hsq rfl]

/-- Settles O49: BYTE_POS decides between joining the group and absorbing it. -/
theorem inByteCollectsAGroup : Obligations.InByteCollectsAGroup := by
  refine ⟨issuedBy_inByte, fun s v hidle hres => inByte_write_reserved hidle hres,
    fun s b hidle hseq => exec_inByte_refuses hidle hseq (reserved_byte b), fun s b hidle hstage hsq =>
    ⟨fun hbyte => ?_, fun hbyte => ?_⟩⟩
  · exact exec_inByte_pushes hidle hstage hsq hbyte b
  · rw [← groupWord_eq]
    exact exec_inByte_completes hidle hstage hsq hbyte b

/-- Settles O51: each check alone refuses, with the error its rule names. -/
theorem sequencingIsRefused : Obligations.SequencingIsRefused := by
  intro s hidle
  have byteRefused {v : Word} (hv : v.toNat < 256) (hseq : s.stage ≠ 0 ∨ s.squeezed = true) :=
    exec_inByte_refuses hidle hseq ((ushiftRight_eq_zero_iff v 8).2 hv)
  refine ⟨fun hstage i hi => ?_, fun hsq i hi => ?_, fun hbyte w => exec_inWord_refuses hidle (.inr (.inr hbyte)) w,
    exec_sfinal_refuses_len hidle⟩
  · rcases hi with rfl | rfl | ⟨w, rfl⟩ | ⟨v, rfl, hv⟩
    · exact execPerm_refuses hidle hstage
    · exact exec_sfinal_refuses_seq hidle (.inl hstage)
    · exact exec_inWord_refuses hidle (.inl hstage) w
    · exact byteRefused hv (.inl hstage)
  · rcases hi with rfl | ⟨w, rfl⟩ | ⟨v, rfl, hv⟩
    · exact exec_sfinal_refuses_seq hidle (.inr hsq)
    · exact exec_inWord_refuses hidle (.inr (.inl hsq)) w
    · exact byteRefused hv (.inr hsq)

/-- The block with the bytes `bs` joined to its group and the last answer `r`. -/
def collected (s : State) (bs : List Byte) (r : Option BusResponse) : State := { s with
  byteAcc := bs.foldl pushByte s.byteAcc, bytePos := s.bytePos + BitVec.ofNat 3 bs.length, resp := r }

theorem collected_cons (s : State) (b : Byte) (bs : List Byte) (r r' : Option BusResponse) :
    collected { s with byteAcc := pushByte s.byteAcc b, bytePos := s.bytePos + 1, resp := r } bs r' =
      collected s (b :: bs) r' := by
  have hcount : s.bytePos + 1 + BitVec.ofNat 3 bs.length = s.bytePos + BitVec.ofNat 3 (bs.length + 1) := by
    rw [BitVec.add_assoc, Nat.add_comm, BitVec.ofNat_add]
    rfl
  simp only [collected, hcount, List.foldl_cons, List.length_cons]

/-- Bytes that do not complete the group are collected in BYTE_ACC (42 R235). -/
theorem issueAll_inByte {bs : List Byte} {s : State} (hidle : s.pending = none) (hstage : s.stage = 0)
    (hsq : s.squeezed = false) (hroom : s.bytePos.toNat + bs.length ≤ 7) :
    ∃ r, issueAll (bs.map fun b => .inByte (b.setWidth 64)) s = .next (collected s bs r) := by
  induction bs generalizing s with
  | nil => exact ⟨s.resp, by simp [issueAll, collected]⟩
  | cons b bs ih =>
    rw [List.length_cons] at hroom
    have hbyte : s.bytePos ≠ 7 := by
      rintro h
      rw [h] at hroom
      change 7 + (bs.length + 1) ≤ 7 at hroom
      omega
    have hnext := toNat_add_one_of_ne_last hbyte
    obtain ⟨r, hr⟩ := ih (s := { s with
      byteAcc := pushByte s.byteAcc b, bytePos := s.bytePos + 1, resp := some (.writeDone false) }) hidle hstage hsq
      (by rw [hnext]; omega)
    refine ⟨r, ?_⟩
    rw [List.map_cons, issueAll, exec_inByte_pushes hidle hstage hsq hbyte]
    exact hr.trans (by rw [collected_cons])

/-- The bytes collected so far are a big-endian number (42 R240). -/
theorem foldl_pushByte_toNat (bs : List Byte) (acc : BitVec 56) (hroom : acc.toNat < 2 ^ (8 * (7 - bs.length)))
    (hlen : bs.length ≤ 7) :
    (bs.foldl pushByte acc).toNat = bs.foldl (fun n b => 256 * n + b.toNat) acc.toNat := by
  induction bs generalizing acc with
  | nil => rfl
  | cons b bs ih =>
    rw [List.length_cons] at hroom hlen
    have hb := b.isLt
    have hsmall : acc.toNat < 2 ^ 48 := hroom.trans_le (Nat.pow_le_pow_right (by decide) (by omega))
    have hpush := pushByte_toNat acc b hsmall
    have hpow : 2 ^ (8 * (7 - bs.length)) = 256 * 2 ^ (8 * (7 - (bs.length + 1))) := by
      rw [show 8 * (7 - bs.length) = 8 + 8 * (7 - (bs.length + 1)) by omega, pow_add]
      rfl
    rw [List.foldl_cons, List.foldl_cons, ih (pushByte acc b) (by rw [hpush, hpow]; omega) (by omega), hpush]

/-- An absorption's answer replaces the last one. -/
theorem exec_inWord_resp {s : State} (hidle : s.pending = none) (hstage : s.stage = 0) (hsq : s.squeezed = false)
    (hbyte : s.bytePos = 0) (w : Word) (r : Option BusResponse) :
    exec (.inWord w) { s with resp := r } = exec (.inWord w) s := by
  rw [exec_inWord_absorbs (s := { s with resp := r }) hidle hstage hsq hbyte,
    exec_inWord_absorbs hidle hstage hsq hbyte, absorbWord_eq, absorbWord_eq]
  by_cases hnc : fieldOrder ≤ w.toNat
  · rw [if_pos hnc, if_pos hnc]; rfl
  · rw [if_neg hnc, if_neg hnc]; rfl

theorem issueAll_singleton (i : Instr) (s : State) : issueAll [i] s = exec i s := by
  rw [issueAll]
  cases exec i s <;> rfl

/-- The word of a completed group, its first byte in bits 63:56 (42 R240). -/
theorem groupWord_eq_sum (bs : Vector Byte 8) :
    groupWord ((bs.toList.take 7).foldl pushByte 0) bs[7] =
      BitVec.ofNat 64 (∑ j : Fin 8, bs[j].toNat * 2 ^ (8 * (7 - j.val))) := by
  match bs with
  | ⟨⟨[b0, b1, b2, b3, b4, b5, b6, b7]⟩, _⟩ =>
    apply BitVec.eq_of_toNat_eq
    rw [groupWord_toNat, foldl_pushByte_toNat _ _ (by simp) (by simp)]
    simp [Fin.sum_univ_eight]
    omega

/-- Settles O50: seven bytes are collected, and the eighth completes their big-endian word. -/
theorem eightBytesAreOneWord : Obligations.EightBytesAreOneWord := by
  intro s bs hidle hstage hsq hbyte hacc
  have hlist : bs.toList = bs.toList.take 7 ++ [bs[7]] := by
    match bs with
    | ⟨⟨[_, _, _, _, _, _, _, _]⟩, _⟩ => rfl
  have hlen : (bs.toList.take 7).length = 7 := by simp
  obtain ⟨r, hr⟩ := issueAll_inByte (bs := bs.toList.take 7) hidle hstage hsq (by rw [hbyte, hlen]; decide)
  have hfull : (collected s (bs.toList.take 7) r).bytePos = 7 := by
    rw [collected, hbyte, hlen]
    rfl
  have hempty : { collected s (bs.toList.take 7) r with byteAcc := 0, bytePos := 0 } = { s with resp := r } := by
    rw [collected, ← hbyte, ← hacc]
  rw [hlist, List.map_append, issueAll_append hr, List.map_singleton, issueAll_singleton,
    exec_inByte_completes (s := collected s (bs.toList.take 7) r) hidle hstage hsq hfull, hempty,
    exec_inWord_resp hidle hstage hsq hbyte, collected, hacc, groupWord_eq_sum]

end Sys2Proof.Machine
end

section
/-! PROOF. The host sequence of a hash (42 R242): O54. While the words are absorbed the block holds the state `S` that
the full chunks left, overwritten with the words `pre` of the chunk begun since; what the hash of all words will be does not
change. -/

namespace Sys2Proof.Machine

/-! ### The hash of a chunk begun and the words to come -/

/-- Full and partial chunks of 8 words. -/
def chunks (ws : List Word) : Nat := (ws.length + 7) / 8

/-- The state after absorbing and permuting `ws`, chunk by chunk (42 R242). -/
def absorbed (c : Config) (S : Elems) (ws : List Word) : Elems := hashChunks c (chunks ws) S ws

theorem chunks_append {chunk : List Word} (h : chunk.length = 8) (ws : List Word) :
    chunks (chunk ++ ws) = chunks ws + 1 := by
  simp only [chunks, List.length_append]
  omega

theorem absorbed_append (c : Config) (S : Elems) {chunk : List Word} (h : chunk.length = 8) (ws : List Word) :
    absorbed c S (chunk ++ ws) = absorbed c (poseidon c (overwrite S chunk)) ws := by
  rw [absorbed, chunks_append h, hashChunks, List.take_left' h, List.drop_left' h, absorbed]

theorem chunks_partial {pre : List Word} (hne : pre ≠ []) (hshort : pre.length < 8) : chunks pre = 1 := by
  have hpos := List.length_pos_iff.2 hne
  rw [chunks]
  omega

theorem absorbed_partial (c : Config) (S : Elems) {pre : List Word} (hne : pre ≠ []) (hshort : pre.length < 8) :
    absorbed c S pre = poseidon c (overwrite S pre) := by
  rw [absorbed, chunks_partial hne hshort, hashChunks, List.take_of_length_le hshort.le, hashChunks]

theorem overwrite_nil (S : Elems) : overwrite S [] = S := by
  ext i hi
  simp [overwrite]

/-- A word written at the place after the words already there. -/
theorem overwrite_concat (S : Elems) (pre : List Word) (w : Word) :
    overwrite S (pre ++ [w]) =
      Vector.ofFn fun i : Fin 12 => if i.val = pre.length then w else (overwrite S pre)[i] := by
  refine congrArg Vector.ofFn (funext fun i => ?_)
  rw [overwrite_getElem]
  rcases lt_trichotomy i.val pre.length with hlt | heq | hgt
  · rw [if_neg hlt.ne, List.getElem?_append_left hlt]
  · rw [if_pos heq, heq, List.getElem?_concat_length, Option.getD_some]
  · have hlen : (pre ++ [w]).length ≤ i.val := by
      rw [List.length_append]
      exact hgt
    rw [if_neg hgt.ne', List.getElem?_eq_none hlen, List.getElem?_eq_none hgt.le]

theorem hashState_nil (c : Config) : hashState c [] = poseidon c zeroElems := rfl

theorem hashState_eq_absorbed (c : Config) {ws : List Word} (hne : ws ≠ []) :
    hashState c ws = absorbed c zeroElems ws :=
  if_neg (mt List.length_eq_zero_iff.1 hne)

/-! ### What an absorption leaves -/

/-- A word absorbed by an idle block, and the permutation that it may start, completed (42 R232, R234). -/
theorem coreStep_absorbWord {s : State} (hidle : s.pending = none) (w : Word) (r : BusResponse) :
    coreStep (respond r (absorbWord w s)) = { noteIf (nonCanonical w) .noncanon s with
      elems       := if s.absPos = 7 then poseidon s.cfg.raw (loadElem w s) else loadElem w s
      permCnt     := if s.absPos = 7 then s.permCnt + 1 else s.permCnt
      absCnt      := s.absCnt + 1
      digestValid := false
      absPos      := s.absPos + 1
      pending     := none
      event       := (coreStep (respond r (absorbWord w s))).event
      resp        := some r } := by
  generalize hnoted : noteIf (nonCanonical w) .noncanon s = u
  have hload : loadElem w u = loadElem w s := by subst hnoted; simp only [loadElem, noteIf_elems, noteIf_absPos]
  have hpos : u.absPos = s.absPos := by rw [← hnoted, noteIf_absPos]
  have hcnt : u.absCnt = s.absCnt := by rw [← hnoted, noteIf_absCnt]
  have hperm : u.permCnt = s.permCnt := by rw [← hnoted, noteIf_permCnt]
  have hcfg : u.cfg = s.cfg := by rw [← hnoted, noteIf_cfg]
  have hpend : u.pending = none := by rw [← hnoted, noteIf_pending, hidle]
  rw [absorbWord, hnoted, absorbElem_eq, hload, hpos, hcnt, hpend]
  by_cases hlast : s.absPos = 7
  · rw [if_pos hlast, if_pos hlast, if_pos hlast, coreStep_some rfl, ← hperm, ← hcfg]
    rfl
  · rw [if_neg hlast, if_neg hlast, if_neg hlast, coreStep_none rfl, ← hperm]
    rfl

/-! ### Instructions followed by `wait` -/

/-- Two pieces of a host sequence run one after the other. -/
theorem run_append {l l' : List Turn} {s t : State} (h : Host.Core.run Sys2Proof.core l.length s = .next t) :
    Host.Core.run Sys2Proof.core (l ++ l').length s = Host.Core.run Sys2Proof.core l'.length t := by
  rw [List.length_append, run_add h]

/-- An instruction that an idle block takes, and `wait`: it is issued and completed (30 R109). -/
theorem issue_wait_run (polls : Nat) {i : Instr} (hi : i.wf = true) {s u : State} {rest : List Turn}
    (hs : s.schedule = Asm.issue i ++ Asm.wait polls ++ rest) (hr : s.inReset = false)
    (hexec : exec i { s with schedule := Asm.wait polls ++ rest } = .next u) (hus : u.schedule = Asm.wait polls ++ rest)
    (hur : u.inReset = false) :
    ∃ t : State, Host.Core.run Sys2Proof.core (Asm.issue i ++ Asm.wait polls).length s = .next t ∧
      t = { coreStep u with draws := t.draws, resp := t.resp, schedule := rest } := by
  rw [List.append_assoc] at hs
  have hstep := (issue_step hi hs hr).trans hexec
  obtain ⟨t, hrun, ht⟩ := wait_run polls hus hur
  have hissue : Host.Core.run Sys2Proof.core (Asm.issue i).length s = .next u := run_succ hstep 0
  exact ⟨t, (run_append hissue).trans hrun, ht⟩

/-- An idle block that has absorbed the words `pre` of a chunk over `S`. -/
structure Absorbing (S : Elems) (pre : List Word) (s : State) : Prop where
  pending : s.pending = none
  inReset : s.inReset = false
  stage : s.stage = 0
  squeezed : s.squeezed = false
  bytePos : s.bytePos = 0
  elems : s.elems = overwrite S pre
  absPos : s.absPos.toNat = pre.length

/-- Absorbing `ws` brings the block from `S` and `pre` in `s` to `S'` and `pre'` in `t`: whatever words `vs` follow, the
hash and the number of permutations of all words come out the same. -/
structure Progress (s : State) (S : Elems) (pre ws : List Word) (t : State) (S' : Elems) (pre' : List Word) : Prop where
  absorbing : Absorbing S' pre' t
  cfg : t.cfg = s.cfg
  none_absorbed : ws = [] → S' = S ∧ pre' = pre
  hash : ∀ vs, absorbed s.cfg.raw S' (pre' ++ vs) = absorbed s.cfg.raw S (pre ++ ws ++ vs)
  permCnt : ∀ vs, t.permCnt + BitVec.ofNat 64 (chunks (pre' ++ vs)) =
    s.permCnt + BitVec.ofNat 64 (chunks (pre ++ ws ++ vs))
  absCnt : t.absCnt = s.absCnt + BitVec.ofNat 64 ws.length
  err : (∀ w ∈ ws, w.toNat < fieldOrder) → t.err = s.err

theorem Progress.refl {s : State} {S : Elems} {pre : List Word} (h : Absorbing S pre s) :
    Progress s S pre [] s S pre where
  absorbing := h
  cfg := rfl
  none_absorbed := fun _ => ⟨rfl, rfl⟩
  hash := fun vs => by rw [List.append_nil]
  permCnt := fun vs => by rw [List.append_nil]
  absCnt := (BitVec.add_zero _).symm
  err := fun _ => rfl

theorem Progress.trans {s t u : State} {S S' S'' : Elems} {pre pre' pre'' ws ws' : List Word}
    (h : Progress s S pre ws t S' pre') (h' : Progress t S' pre' ws' u S'' pre'') :
    Progress s S pre (ws ++ ws') u S'' pre'' where
  absorbing := h'.absorbing
  cfg := h'.cfg.trans h.cfg
  none_absorbed := fun hnil => by
    obtain ⟨hws, hws'⟩ := List.append_eq_nil_iff.1 hnil
    obtain ⟨rfl, rfl⟩ := h'.none_absorbed hws'
    exact h.none_absorbed hws
  hash := fun vs => by
    have hnext := h'.hash vs
    rw [h.cfg, List.append_assoc, h.hash] at hnext
    simpa only [List.append_assoc] using hnext
  permCnt := fun vs => by
    have hnext := h'.permCnt vs
    rw [List.append_assoc, h.permCnt] at hnext
    simpa only [List.append_assoc] using hnext
  absCnt := by rw [h'.absCnt, h.absCnt, List.length_append, BitVec.ofNat_add, BitVec.add_assoc]
  err := fun hcan => by
    obtain ⟨hws, hws'⟩ := List.forall_mem_append.1 hcan
    exact (h'.err hws').trans (h.err hws)

/-- The words of a chunk begun are fewer than 8, as ABS_POS counts them. -/
theorem Absorbing.length_lt {S : Elems} {pre : List Word} {s : State} (h : Absorbing S pre s) : pre.length < 8 :=
  h.absPos ▸ s.absPos.isLt

theorem loadElem_eq_overwrite {S : Elems} {pre : List Word} {s : State} (h : Absorbing S pre s) (w : Word) :
    loadElem w s = overwrite S (pre ++ [w]) := by
  rw [overwrite_concat, loadElem_eq_ofFn, h.absPos, h.elems]

theorem exec_inWord_of_absorbing {S : Elems} {pre : List Word} {s : State} (h : Absorbing S pre s) (w : Word)
    (schedule : List Turn) : exec (.inWord w) { s with schedule := schedule } =
      .next (respond (.writeDone false) (absorbWord w { s with schedule := schedule })) :=
  exec_inWord_absorbs (s := { s with schedule := schedule }) h.pending h.stage h.squeezed h.bytePos w

/-- One word absorbed and waited for: it joins the chunk, and as the eighth it completes it (42 R232). -/
theorem absorb_progress {s t : State} {S : Elems} {pre : List Word} {w : Word} (h : Absorbing S pre s)
    {schedule schedule' : List Turn}
    (ht : t = { coreStep (respond (.writeDone false) (absorbWord w { s with schedule := schedule })) with
      draws := t.draws, resp := t.resp, schedule := schedule' }) :
    ∃ S' pre', Progress s S pre [w] t S' pre' := by
  rw [coreStep_absorbWord (s := { s with schedule := schedule }) h.pending] at ht
  have hload : loadElem w { s with schedule := schedule } = overwrite S (pre ++ [w]) := loadElem_eq_overwrite h w
  rw [hload] at ht
  have hpend : t.pending = none := congrArg State.pending ht
  have hreset : t.inReset = false := (congrArg State.inReset ht).trans ((noteIf_inReset _ _ _).trans h.inReset)
  have hstage : t.stage = 0 := (congrArg State.stage ht).trans ((noteIf_stage _ _ _).trans h.stage)
  have hsq : t.squeezed = false := (congrArg State.squeezed ht).trans ((noteIf_squeezed _ _ _).trans h.squeezed)
  have hbyte : t.bytePos = 0 := (congrArg State.bytePos ht).trans ((noteIf_bytePos _ _ _).trans h.bytePos)
  have hcfg : t.cfg = s.cfg := (congrArg State.cfg ht).trans (noteIf_cfg _ _ _)
  have hcnt : t.absCnt = s.absCnt + 1 := congrArg State.absCnt ht
  have herr (hcan : ∀ v ∈ [w], v.toNat < fieldOrder) : t.err = s.err := by
    refine (congrArg State.err ht).trans ?_
    rw [noteIf_nonCanonical, if_neg (Nat.not_le.2 (hcan w List.mem_cons_self))]
  have hpos : t.absPos = s.absPos + 1 := congrArg State.absPos ht
  have hlen : (pre ++ [w]).length = s.absPos.toNat + 1 := by rw [List.length_append, h.absPos, List.length_singleton]
  by_cases hlast : s.absPos = 7
  · have hchunk : (pre ++ [w]).length = 8 := by rw [hlen, hlast]; rfl
    have helems : t.elems = poseidon s.cfg.raw (overwrite S (pre ++ [w])) :=
      (congrArg State.elems ht).trans (if_pos hlast)
    have hperm : t.permCnt = s.permCnt + 1 := (congrArg State.permCnt ht).trans (if_pos hlast)
    refine ⟨_, [], ⟨hpend, hreset, hstage, hsq, hbyte, helems.trans (overwrite_nil _).symm, ?_⟩, hcfg, nofun,
      fun vs => (absorbed_append _ S hchunk vs).symm, fun vs => ?_, hcnt, herr⟩
    · rw [hpos, hlast]
      rfl
    · rw [hperm, chunks_append hchunk, Nat.add_comm (chunks vs), BitVec.ofNat_add, ← BitVec.add_assoc]
      rfl
  · have helems : t.elems = overwrite S (pre ++ [w]) := (congrArg State.elems ht).trans (if_neg hlast)
    have hperm : t.permCnt = s.permCnt := (congrArg State.permCnt ht).trans (if_neg hlast)
    refine ⟨S, pre ++ [w], ⟨hpend, hreset, hstage, hsq, hbyte, helems, ?_⟩, hcfg, nofun, fun vs => rfl,
      fun vs => by rw [hperm], hcnt, herr⟩
    rw [hpos, hlen]
    exact toNat_add_one_of_ne_last hlast

/-- `absorb w` (30 R109). -/
theorem absorb_run (polls : Nat) {s : State} {S : Elems} {pre : List Word} {w : Word} {rest : List Turn}
    (h : Absorbing S pre s) (hs : s.schedule = Asm.absorb polls w ++ rest) :
    ∃ t S' pre', Host.Core.run Sys2Proof.core (Asm.absorb polls w).length s = .next t ∧ t.schedule = rest ∧
      Progress s S pre [w] t S' pre' := by
  obtain ⟨-, -, -, -, -, -, -, -, -, -, -, hsched, -, hreset⟩ :=
    absorbWord_frame w { s with schedule := Asm.wait polls ++ rest }
  obtain ⟨t, hrun, ht⟩ := issue_wait_run polls (i := .inWord w) rfl hs h.inReset (exec_inWord_of_absorbing h w _) hsched
    (hreset.trans h.inReset)
  obtain ⟨S', pre', hprog⟩ := absorb_progress h ht
  exact ⟨t, S', pre', hrun, congrArg State.schedule ht, hprog⟩

/-- The absorbs of a hash, one after the other. -/
theorem absorbAll_run (polls : Nat) {ws : List Word} {s : State} {S : Elems} {pre : List Word} {rest : List Turn}
    (h : Absorbing S pre s) (hs : s.schedule = Asm.absorbAll polls ws ++ rest) :
    ∃ t S' pre', Host.Core.run Sys2Proof.core (Asm.absorbAll polls ws).length s = .next t ∧ t.schedule = rest ∧
      Progress s S pre ws t S' pre' := by
  induction ws generalizing s S pre with
  | nil => exact ⟨s, S, pre, rfl, hs, .refl h⟩
  | cons w ws ih =>
    rw [Asm.absorbAll, List.append_assoc] at hs
    obtain ⟨t, S', pre', hrun, ht, hprog⟩ := absorb_run polls h hs
    obtain ⟨u, S'', pre'', hrun', hu, hprog'⟩ := ih hprog.absorbing ht
    exact ⟨u, S'', pre'', (run_append hrun).trans hrun', hu, hprog.trans hprog'⟩

/-- SINIT and `wait` (42 R231): no word is absorbed. -/
theorem sinit_run (polls : Nat) {s : State} {rest : List Turn} (hidle : s.Idle)
    (hs : s.schedule = Asm.issue .sinit ++ Asm.wait polls ++ rest) :
    ∃ t, Host.Core.run Sys2Proof.core (Asm.issue .sinit ++ Asm.wait polls).length s = .next t ∧ t.schedule = rest ∧
      Absorbing zeroElems [] t ∧ t.cfg = s.cfg ∧ t.permCnt = 0 ∧ t.absCnt = 0 ∧ t.err = s.err := by
  obtain ⟨hpend, hr⟩ := hidle
  obtain ⟨-, haccepts, -⟩ := sinitStartsAFreshSponge
  have hexec := haccepts { s with schedule := Asm.wait polls ++ rest } hpend
  obtain ⟨t, hrun, ht⟩ := issue_wait_run polls (i := .sinit) rfl hs hr hexec rfl hr
  refine ⟨t, hrun, congrArg State.schedule ht, ⟨congrArg State.pending ht, (congrArg State.inReset ht).trans hr,
    congrArg State.stage ht, congrArg State.squeezed ht, congrArg State.bytePos ht, ?_, ?_⟩, (congrArg State.cfg ht :),
    congrArg State.permCnt ht, congrArg State.absCnt ht, (congrArg State.err ht :)⟩
  · rw [overwrite_nil]
    exact congrArg State.elems ht
  · rw [congrArg State.absPos ht]
    rfl

/-- SFINAL and `wait` (42 R238): the chunk begun is permuted, and so is an empty sponge. -/
theorem sfinal_run (polls : Nat) {s : State} {S : Elems} {pre : List Word} {rest : List Turn} (h : Absorbing S pre s)
    (hs : s.schedule = Asm.issue .sfinal ++ Asm.wait polls ++ rest) :
    ∃ t, Host.Core.run Sys2Proof.core (Asm.issue .sfinal ++ Asm.wait polls).length s = .next t ∧ t.schedule = rest ∧
      t.pending = none ∧ t.elems = (if s.needPerm then poseidon s.cfg.raw (overwrite S pre) else overwrite S pre) ∧
      t.permCnt = (if s.needPerm then s.permCnt + 1 else s.permCnt) ∧ t.absCnt = s.absCnt ∧ t.digestValid = true ∧
      t.squeezed = true ∧ t.err = s.err := by
  have hexec := exec_sfinal_accepts (s := { s with schedule := Asm.wait polls ++ rest }) h.pending h.stage h.squeezed
    h.bytePos
  obtain ⟨t, hrun, ht⟩ := issue_wait_run polls (i := .sfinal) rfl hs h.inReset hexec rfl h.inReset
  rw [← h.elems]
  exact ⟨t, hrun, congrArg State.schedule ht, congrArg State.pending ht, congrArg State.elems ht,
    congrArg State.permCnt ht, (congrArg State.absCnt ht :), congrArg State.digestValid ht, congrArg State.squeezed ht,
    (congrArg State.err ht :)⟩

theorem Absorbing.needPerm_iff {S : Elems} {pre : List Word} {s : State} (h : Absorbing S pre s) :
    s.needPerm = true ↔ pre ≠ [] ∨ s.absCnt = 0 := by
  have hpos : s.absPos = 0 ↔ pre = [] := by
    rw [← List.length_eq_zero_iff, ← h.absPos]
    exact BitVec.toNat_inj.symm
  rw [needPerm_eq_decide, decide_eq_true_eq, Ne, hpos]

/-- SFINAL closes a sponge that is not empty as the chunks of its words do (42 R238). -/
theorem Absorbing.closes {S : Elems} {pre : List Word} {s : State} (h : Absorbing S pre s) (hcnt : s.absCnt ≠ 0) :
    (if s.needPerm then poseidon s.cfg.raw (overwrite S pre) else overwrite S pre) = absorbed s.cfg.raw S pre ∧
    (if s.needPerm then s.permCnt + 1 else s.permCnt) = s.permCnt + BitVec.ofNat 64 (chunks pre) := by
  by_cases hpre : pre = []
  · have hneed : ¬ s.needPerm = true := by simpa [h.needPerm_iff, hpre] using hcnt
    rw [if_neg hneed, if_neg hneed, hpre]
    exact ⟨overwrite_nil S, (BitVec.add_zero _).symm⟩
  · have hneed := h.needPerm_iff.2 (.inl hpre)
    rw [if_pos hneed, if_pos hneed, absorbed_partial _ _ hpre h.length_lt, chunks_partial hpre h.length_lt]
    exact ⟨rfl, rfl⟩

theorem chunks_pos {ws : List Word} (hne : ws ≠ []) : 1 ≤ chunks ws := by
  have hpos := List.length_pos_iff.2 hne
  rw [chunks]
  omega

/-- A fresh sponge that has absorbed `ws` is closed as the hash function closes it, an empty one by one permutation of
the zero state (42 R238, R242). -/
theorem Progress.closes {s t : State} {S : Elems} {pre ws : List Word} (h : Progress s zeroElems [] ws t S pre)
    (hperm : s.permCnt = 0) (hcnt : s.absCnt = 0) (hlen : ws.length < 2 ^ 64) :
    (if t.needPerm then poseidon t.cfg.raw (overwrite S pre) else overwrite S pre) = hashState s.cfg.raw ws ∧
    (if t.needPerm then t.permCnt + 1 else t.permCnt).toNat = max 1 (chunks ws) ∧ t.absCnt.toNat = ws.length := by
  have hhash := h.hash []
  have hcount := h.permCnt []
  have hwords := h.absCnt
  simp only [List.append_nil, List.nil_append, hperm, hcnt, zero_add] at hhash hcount hwords
  have htotal : t.absCnt.toNat = ws.length := by rw [hwords, BitVec.toNat_ofNat, Nat.mod_eq_of_lt hlen]
  by_cases hne : ws = []
  · subst hne
    obtain ⟨rfl, rfl⟩ := h.none_absorbed rfl
    have hneed : t.needPerm = true := h.absorbing.needPerm_iff.2 (.inr hwords)
    have hzero : t.permCnt = 0 := (BitVec.add_zero _).symm.trans hcount
    rw [if_pos hneed, if_pos hneed, overwrite_nil, h.cfg, hashState_nil, hzero]
    exact ⟨rfl, rfl, htotal⟩
  · have hnonzero : t.absCnt ≠ 0 := fun hzero => hne (List.length_eq_zero_iff.1 (htotal.symm.trans (congrArg _ hzero)))
    obtain ⟨hclosed, hperms⟩ := h.absorbing.closes hnonzero
    have hfit : chunks ws < 2 ^ 64 := by
      rw [chunks]
      omega
    rw [hclosed, hperms, h.cfg, hhash, hcount, hashState_eq_absorbed _ hne, BitVec.toNat_ofNat, Nat.mod_eq_of_lt hfit,
      max_eq_right (chunks_pos hne)]
    exact ⟨rfl, rfl, htotal⟩

/-- Settles O54: SINIT, the words and SFINAL run one after the other; the absorbs keep what the hash of all words will
be, and SFINAL closes the sponge as the hash function does. -/
theorem hostSequenceComputesTheHash : Obligations.HostSequenceComputesTheHash := by
  intro s ws polls rest hidle hlen hs
  have hpieces : Asm.hash polls ws = Asm.issue .sinit ++ Asm.wait polls ++
      (Asm.absorbAll polls ws ++ (Asm.issue .sfinal ++ Asm.wait polls)) := by
    simp only [Asm.hash, List.append_assoc]
  rw [hpieces, List.append_assoc _ _ rest, List.append_assoc _ _ rest] at hs
  obtain ⟨a, hrunA, hschedA, habs, hcfg, hpermA, hcntA, herrA⟩ := sinit_run polls hidle hs
  obtain ⟨b, S, pre, hrunB, hschedB, hprog⟩ := absorbAll_run polls habs hschedA
  obtain ⟨t, hrunT, hschedT, hpend, helems, hperm, hcnt, hvalid, hsq, herr⟩ := sfinal_run polls hprog.absorbing hschedB
  obtain ⟨hhash, hcount, hwords⟩ := hprog.closes hpermA hcntA hlen
  rw [hcfg] at hhash
  refine ⟨t, ?_, hpend, hschedT, helems.trans hhash, (congrArg BitVec.toNat hperm).trans hcount,
    (congrArg BitVec.toNat hcnt).trans hwords, hvalid, hsq, fun hcan => ?_⟩
  · rw [hpieces, run_append hrunA, run_append hrunB, hrunT]
  · rw [herr, hprog.err hcan, herrA]

end Sys2Proof.Machine
end
